-- ==== Sys2Proof/Word.lean ====
section
/-! DEFINITION. The two word types of the block: 32-bit register words (20_memory R51) and bytes. -/

namespace Sys2Proof

/-- A block register as the host sees it: 32 bits (00_scope R8 REG_WIDTH, 20_memory R51). -/
abbrev Word := BitVec 32

/-- A byte of slave data (20_memory R53, R56). -/
abbrev Byte := BitVec 8

end Sys2Proof
end

