-- ==== Sys2Proof/Syntax.lean ====
section
/-! DEFINITION. The instructions: one constructor per row of the opcode table (30_encoding R71, 40_register_access),
the host access they are decoded from (30_encoding R70) and the typed control configuration (30_encoding R75). -/

namespace Sys2Proof

/-- One host access, the unit the block decodes (30_encoding R70): write enable, offset from I2C_BASE, width in
bytes, data word. A read carries no data word; the decoder ignores `v` there. -/
structure Access where
  we  : Bool
  off : Word
  n   : Nat
  v   : Word
  deriving DecidableEq, Repr, Inhabited

/-- The typed configuration a CR word is assembled from and split into (30_encoding R75, R76). -/
structure CrFields where
  sadd    : BitVec 10
  rdWrn   : Bool
  start   : Bool
  stop    : Bool
  nbytes  : Byte
  autoend : Bool
  deriving DecidableEq, Repr, Inhabited

/-- The eight access kinds of opcode_table.json; a write carries its data word. -/
inductive Instr where
  | writeCr (v : Word)     -- R101
  | readCr                 -- R106
  | readSr                 -- R107
  | writeSr (v : Word)     -- R108
  | writeTxdr (v : Word)   -- R109
  | readTxdr               -- R110
  | readRxdr               -- R111
  | writeRxdr (v : Word)   -- R112
  deriving DecidableEq, Repr, Inhabited

end Sys2Proof
end

