-- ==== Sys2Proof/Decode.lean ====
section
/-! DEFINITION. Access decode (40_register_access R100, 30_encoding R70, R71, R77, R78) and the encoder written from
the same table. The byte form of an access is the model's own container (log 1): byte 0 is off[7:0], bit 0 of byte 1
is we, bits 7:1 of byte 1 are 0, and a write goes on with its data word in four bytes, least significant first. -/

namespace Sys2Proof

/-- Why an access is no operation. Each raises F01 at the block (30_encoding R77). -/
inductive DecodeError where
  | badWidth       -- width other than 4 bytes (R100)
  | misaligned     -- offset not a multiple of 4 (R100)
  | offTooLarge    -- offset above 0xFF: no access word (R71)
  | unmapped       -- an access word that is not in R71's table
  | reservedBits   -- container bits 15:9 not zero (log 1)
  | truncated      -- the container ends inside an access (log 1)
  deriving DecidableEq, Repr, Inhabited

/-- The access word aw = we : off[7:0] (30_encoding R71). -/
def accessWord (we : Bool) (off : Byte) : BitVec 9 := BitVec.ofBool we ++ off

/-- R71's table: the operation of an access word, with the data word of a write. -/
def decodeWord (aw : BitVec 9) (v : Word) : Except DecodeError Instr :=
  if aw = 0x104#9 then .ok (.writeCr v)
  else if aw = 0x004#9 then .ok .readCr
  else if aw = 0x018#9 then .ok .readSr
  else if aw = 0x118#9 then .ok (.writeSr v)
  else if aw = 0x128#9 then .ok (.writeTxdr v)
  else if aw = 0x028#9 then .ok .readTxdr
  else if aw = 0x024#9 then .ok .readRxdr
  else if aw = 0x124#9 then .ok (.writeRxdr v)
  else .error .unmapped

/-- Access decode (R100, R71): width, alignment, then the access word. -/
def decodeAccess (a : Access) : Except DecodeError Instr :=
  if a.n ≠ 4 then .error .badWidth
  else if a.off.toNat % 4 ≠ 0 then .error .misaligned
  else if 0xFF < a.off.toNat then .error .offTooLarge
  else decodeWord (accessWord a.we (a.off.setWidth 8)) a.v

/-- A word from its four bytes, least significant first. -/
def wordOfBytes (b0 b1 b2 b3 : Byte) : Word := b3 ++ b2 ++ b1 ++ b0

/-- The four bytes of a word, least significant first. -/
def bytesOfWord (v : Word) : List Byte :=
  [v.extractLsb' 0 8, v.extractLsb' 8 8, v.extractLsb' 16 8, v.extractLsb' 24 8]

/-- Decodes the container's first access and answers the rest of the bytes (log 1). -/
def decode : List Byte → Except DecodeError (Instr × List Byte)
  | off :: ctl :: rest =>
    if ctl >>> 1 ≠ 0 then .error .reservedBits
    else if ctl.getLsbD 0 then
      match rest with
      | b0 :: b1 :: b2 :: b3 :: rest' =>
        (decodeAccess ⟨true, off.setWidth 32, 4, wordOfBytes b0 b1 b2 b3⟩).map (·, rest')
      | _ => .error .truncated
    else (decodeAccess ⟨false, off.setWidth 32, 4, 0⟩).map (·, rest)
  | _ => .error .truncated

/-- The access an instruction word of the opcode table stands for (log 1): bits 8:0 are the access word, bits 47:16
the data word, every bit from `nbits` up is 0. A word with one of bits 15:9 set is no access word; it stands for an
access of width 0, which decoding refuses. -/
def accessOfTableWord (nbits w : Nat) : Access :=
  let x := BitVec.ofNat 48 (w % 2 ^ nbits)
  { we  := x.getLsbD 8
    off := (x.extractLsb' 0 8).setWidth 32
    n   := if x.extractLsb' 9 7 = 0 then 4 else 0
    v   := x.extractLsb' 16 32 }

/-- The container bytes of an instruction word of the opcode table (log 1). -/
def bytesOfTableWord (nbits w : Nat) : List Byte :=
  let x := BitVec.ofNat 48 (w % 2 ^ nbits)
  x.extractLsb' 0 8 :: x.extractLsb' 8 8 :: bytesOfWord (x.extractLsb' 16 32)

/-- The instruction the decoder reads from an instruction word of the opcode table. -/
def decodeTableWord (nbits w : Nat) : Option Instr :=
  match decode (bytesOfTableWord nbits w) with
  | .ok (i, _) => some i
  | .error _   => none

/-! The encoder (30_encoding R71). -/

/-- The access word of an instruction (R71). -/
def opcode : Instr → BitVec 9
  | .writeCr _   => 0x104#9
  | .readCr      => 0x004#9
  | .readSr      => 0x018#9
  | .writeSr _   => 0x118#9
  | .writeTxdr _ => 0x128#9
  | .readTxdr    => 0x028#9
  | .readRxdr    => 0x024#9
  | .writeRxdr _ => 0x124#9

/-- The data word of a write (30_encoding R70). -/
def dataWord : Instr → Option Word
  | .writeCr v   => some v
  | .readCr      => none
  | .readSr      => none
  | .writeSr v   => some v
  | .writeTxdr v => some v
  | .readTxdr    => none
  | .readRxdr    => none
  | .writeRxdr v => some v

/-- The host access that asks for an instruction. -/
def encodeAccess (i : Instr) : Access :=
  { we  := (opcode i).getLsbD 8
    off := (opcode i).setWidth 8 |>.setWidth 32
    n   := 4
    v   := (dataWord i).getD 0 }

/-- The container bytes of an instruction (log 1). -/
def encode (i : Instr) : List Byte :=
  (opcode i).setWidth 8 :: (BitVec.ofBool ((opcode i).getLsbD 8)).setWidth 8 ::
    match dataWord i with
    | some v => bytesOfWord v
    | none   => []

end Sys2Proof
end

