-- ==== Sys2Proof/Machine/Program.lean ====
section
/-! DEFINITION. What the agents can do, as data: the bus agent's answers (41_bus_sequencer R130), the driver's
statements (30_encoding R79, R80), their inlined form, and the moves of the agents (20_memory R60). -/

namespace Sys2Proof.Machine

/-- Transfer direction: `W` is RD_WRN = 0, `R` is RD_WRN = 1 (10_state R22). -/
inductive Dir where
  | W
  | R
  deriving DecidableEq, Repr, Inhabited

/-- An acknowledge bit. -/
inductive Ack where
  | ack
  | nack
  deriving DecidableEq, Repr, Inhabited

/-- The bus agent's oracle answers (41_bus_sequencer R130). -/
inductive Answer where
  | addrResp (a : Ack)
  | wrResp (a : Ack)
  | rdByte (b : Byte)
  | abort
  deriving DecidableEq, Repr, Inhabited

/-- The status flags a wait can poll (30_encoding R79, 42_bus_primitives R160). -/
inductive Flag where
  | txis
  | rxne
  | tc
  deriving DecidableEq, Repr, Inhabited

/-- Who waits: recorded with a BusStall (60_exceptions R215). `bare` is a `poll` statement of its own; `burst count`
is the recv_byte inside read_burst, whose timeout may be a MalformedBurst (43_device_protocol R183). -/
inductive Waiter where
  | bare
  | sendByte
  | awaitTransferComplete
  | recvByte
  | burst (count : Nat)
  deriving DecidableEq, Repr, Inhabited

/-- What the host does with the word a read access returned. -/
inductive Dest where
  | none                  -- keep it as `t` only (30_encoding R79 `read SR -> t`); nothing for a write
  | buf (i : Nat)         -- `read RXDR -> buf[i]` (30_encoding R79)
  | value                 -- the value recv_byte or read_register returns (42 R165, 43 R181)
  | probe                 -- the post-write probe byte of write_register (43 R182, R185)
  | burst (count : Nat)   -- buf[got], got + 1; the buffer is the result when got = count (43 R183)
  deriving DecidableEq, Repr, Inhabited

/-- What one statement of an inlined driver program does. -/
inductive Act where
  | access (a : Access) (d : Dest)   -- one host access
  | poll (f : Flag) (w : Waiter)     -- one READ_SR per step (42 R160)
  | argFault                         -- an argument check that failed: F11 (42 R161, R162; 43 R183)
  | decodeSample                     -- host arithmetic on buf (43 R184)
  | delay (ms : Nat)                 -- the external delay service (30 R79, 70 R247)
  | jumpBack (k : Nat)               -- the end of a `forever` body: pc <- pc - k (00_scope R10 `pc <- target`)
  deriving DecidableEq, Repr, Inhabited

/-- A statement of an inlined driver program. `enter` marks the first statement of a device transaction: the driver
state takes its start-of-call values before it runs (10_state R31). -/
structure Op where
  enter : Bool
  act   : Act
  deriving DecidableEq, Repr, Inhabited

/-- The statements of a driver program as they are written (30_encoding R79, R80), and the host's plain accesses by
host address (00_scope R10). Arguments of the primitives are natural numbers, so that one out of range can be written
and refused (42_bus_primitives R161). -/
inductive Stmt where
  | memRead (addr : Word) (n : Nat)             -- MemRead at a host address
  | memWrite (addr : Word) (n : Nat) (v : Word) -- MemWrite at a host address
  | writeCR (imm : Word)
  | writeTXDR (imm : Byte)
  | readSR
  | readRXDR (i : Nat)
  | poll (f : Flag)
  | startWrite (address nbytes : Nat)
  | startRead (address nbytes : Nat) (autoStop : Bool)
  | sendByte (b : Byte)
  | awaitTransferComplete
  | recvByte
  | beginWrite (address nbytes : Nat)
  | beginRead (address nbytes : Nat) (autoStop : Bool)
  | beginTransaction (c : CrFields)
  | readRegister (reg : Byte)
  | writeRegister (reg value : Byte)
  | readBurst (startReg : Byte) (count : Nat)
  | decodeSample
  | repeatN (n : Nat) (body : List Stmt)
  | forever (body : List Stmt)
  | delayMs (ms : Nat)
  deriving Repr

/-- One move of one agent. A run is an interleaving of moves (20_memory R60, 60_exceptions R213). -/
inductive Move where
  | host                    -- the host takes its next step
  | bus (a : Answer)        -- the bus agent answers (41 R130)
  | reset                   -- hardware reset (70 R241)
  | call (prog : List Op)   -- the caller hands the host a driver program (log 8)
  deriving DecidableEq, Repr, Inhabited

end Sys2Proof.Machine
end

