-- ==== Sys2Proof/Config.lean ====
section
/-! DEFINITION. The implementation parameters (00_scope R8) and the free values the spec leaves open. -/

namespace Sys2Proof

/-- How the programmed slave address becomes the wire address (41_bus_sequencer R143, 92 D7). -/
inductive AddrReading where
  | shifted
  | literal
  deriving DecidableEq, Repr, Inhabited

/-- The slave register addresses the driver uses (00_scope R8 REG_TABLE, 43_device_protocol R180). -/
structure RegTable where
  whoAmI  : Byte
  cfgRegA : Byte
  outxL   : Byte
  deriving DecidableEq, Repr, Inhabited

/-- The parameters of the machine (00_scope R8). I2C_BASE is held by its upper 30 bits, its bits [1:0] being 0. -/
structure Config where
  baseHigh            : BitVec 30
  addrReading         : AddrReading
  slaveAddr           : BitVec 10
  regTable            : RegTable
  whoAmIExpected      : Byte
  pollBudget          : Option Nat
  expectedCfgReadback : Option Byte
  deriving DecidableEq, Repr, Inhabited

/-- The upper 30 bits of I2C_BASE: OPEN (92 D6). No body, so no proof can see its value. -/
opaque Config.openBaseHigh : BitVec 30

/-- The k-th free word: SR's undefined bits at a read (40_register_access R107, 93 U1; log 6). -/
opaque Config.freeWord : Nat → Word

/-- The k-th free byte: RXDR after a reset during a run (70_reset_and_hazards R240, 93 U2; log 5). -/
opaque Config.freeByte : Nat → Byte

/-- The k-th free move: which agent goes next, and with what, when no move is listed (60_exceptions R213,
93 U6; log 3). -/
opaque Config.freeMove : Nat → Machine.Move

/-- REG_TABLE's defaults (00_scope R8). -/
def RegTable.default : RegTable := { whoAmI := 0x4F, cfgRegA := 0x60, outxL := 0x68 }

/-- The defaults of 00_scope R8, with the open base. -/
def Config.default : Config :=
  { baseHigh            := Config.openBaseHigh
    addrReading         := .shifted
    slaveAddr           := 0x03C
    regTable            := RegTable.default
    whoAmIExpected      := 0x48
    pollBudget          := none
    expectedCfgReadback := none }

/-- I2C_BASE, a 32-bit value with bits [1:0] = 0 (00_scope R8). -/
def Config.i2cBase (c : Config) : Word := c.baseHigh ++ 0#2

/-- The largest burst count (00_scope R8 BURST_MAX, 92 D29). -/
def Config.burstMax : Nat := 255

end Sys2Proof
end

