-- ==== Sys2Proof/Machine/State.lean ====
section
/-! DEFINITION. Everything the spec gives the machine (10_state): the block, the host's driver state, the
configuration, and the model's own bookkeeping; the reset state (70_reset_and_hazards R240); faults and refusals. -/

namespace Sys2Proof.Machine

/-- PHASE (10_state R22); `remaining` is the block's one hidden counter (10_state R27). -/
inductive Phase where
  | idle
  | addressing (dir : Dir)
  | transferring (dir : Dir) (remaining : Byte)
  | completing
  deriving DecidableEq, Repr, Inhabited

/-- The bus events of HIST (10_state R28). -/
inductive Event where
  | start (sadd : BitVec 10) (dir : Dir)
  | restart (sadd : BitVec 10) (dir : Dir)
  | addrAck
  | addrNack
  | wr (b : Byte) (a : Ack)
  | rd (b : Byte) (mack : Ack)
  | stop
  | abort
  | reset
  deriving DecidableEq, Repr, Inhabited

/-- The fault codes F01 to F12 (60_exceptions R212). -/
inductive FaultCode where
  | badAccess      -- F01
  | roWrite        -- F02
  | crReserved     -- F03
  | crBusy         -- F04
  | startAndStop   -- F05
  | nbytesZero     -- F06
  | rxPending      -- F07
  | stopNotHeld    -- F08
  | txNotReady     -- F09
  | rxEmpty        -- F10
  | argRange       -- F11
  | reentrant      -- F12: declared by R212, raised by nothing in a machine of one host (60_exceptions R222)
  deriving DecidableEq, Repr, Inhabited

/-- CR's stored fields (10_state R23). START and STOP are triggers and are not stored. -/
structure ControlReg where
  sadd    : BitVec 10
  rdWrn   : Bool
  nbytes  : Byte
  autoend : Bool
  deriving DecidableEq, Repr, Inhabited

/-- SR's three defined bits (10_state R24). -/
structure StatusReg where
  txis : Bool
  rxne : Bool
  tc   : Bool
  deriving DecidableEq, Repr, Inhabited

/-- Three signed 16-bit values as their two's-complement patterns (00_scope glossary, 43_device_protocol R184). -/
structure SampleTriple where
  x : BitVec 16
  y : BitVec 16
  z : BitVec 16
  deriving DecidableEq, Repr, Inhabited

/-- The fatal typed errors and what is recorded with them (60_exceptions R215). -/
inductive DriverError where
  | busStall (who : Waiter) (awaited : Flag)   -- E1
  | malformedBurst (got count : Nat)           -- E3
  deriving DecidableEq, Repr, Inhabited

/-- The recorded diagnostic E2: the probe byte and the expected one (60_exceptions R215, 43_device_protocol R185). -/
structure UnexpectedReadback where
  probe    : Byte
  expected : Byte
  deriving DecidableEq, Repr, Inhabited

/-- The value or typed error a transaction returns (10_state R31). -/
inductive Result where
  | byte (b : Byte)
  | bytes (bs : List Byte)
  | sample (t : SampleTriple)
  | error (e : DriverError)
  deriving DecidableEq, Repr, Inhabited

/-- Host memory: (index, byte) cells, indexes strictly rising; an unlisted element is unwritten and reads as no
value (10_state R31, log 12). -/
abbrev Memory := List Host.Cell

/-- The canonical form of a memory: addresses strictly rising. (No listed byte equals what an unlisted address reads
as, since an unlisted one reads as no value.) -/
def Memory.wf : Memory → Bool
  | []            => true
  | [_]           => true
  | c :: d :: rest => decide (c.1 < d.1) && Memory.wf (d :: rest)

/-- The host's driver state (10_state R31, 30_encoding R79). `inWait` and `diags` are the model's own (logs 13, 14). -/
structure Driver where
  prog   : List Op
  pc     : Nat
  polls  : Nat
  inWait : Bool
  buf    : Memory
  got    : Nat
  result : Option Result
  diags  : List UnexpectedReadback
  deriving DecidableEq, Repr, Inhabited

/-- The machine. `rdata`, `draws` and `moves` are the model's own fields (logs 11, 6, 3). -/
structure State where
  phase : Phase
  cr    : ControlReg
  sr    : StatusReg
  txdr  : Byte
  rxdr  : Byte
  hist  : List Event
  fault : Option FaultCode
  rdata : Word
  drv   : Driver
  moves : List Move
  draws : Nat
  cfg   : Config
  deriving DecidableEq, Repr, Inhabited

/-- CR after reset (10_state R23, 70 R240). -/
def ControlReg.reset : ControlReg := { sadd := 0, rdWrn := false, nbytes := 0, autoend := false }

/-- SR after reset (10_state R24, 70 R240). -/
def StatusReg.reset : StatusReg := { txis := false, rxne := false, tc := false }

/-- The driver at the start of a run: no program handed over yet (log 8), R31's start-of-call values. -/
def Driver.reset : Driver :=
  { prog := [], pc := 0, polls := 0, inWait := false, buf := [], got := 0, result := none, diags := [] }

/-- The machine right after reset, at the start of a run (70_reset_and_hazards R240, R242). RXDR: PRESUMED 0x00 (log 5). -/
def State.reset : State :=
  { phase := .idle
    cr    := ControlReg.reset
    sr    := StatusReg.reset
    txdr  := 0x00
    rxdr  := 0x00
    hist  := []
    fault := none
    rdata := 0
    drv   := Driver.reset
    moves := []
    draws := 0
    cfg   := Config.default }

/-- Why the machine stops. Each is a stop the spec itself states; a stop is safe (nothing false is proved by it). -/
inductive Fault where
  /-- FAULT is set: no agent has a further step (60_exceptions R211). Answered by every instruction and by `step`. Safe. -/
  | halted (c : FaultCode)
  /-- A host move when pc equals the program's length: the run has ended (30_encoding R79). Answered by `step`. Safe. -/
  | programEnded
  /-- A host move after a fatal error: the run ended with it (30_encoding R79, 60_exceptions R216). Answered by
  `step`. Safe. -/
  | endedWithError (e : DriverError)
  /-- The host read an element of buf that nothing has written (10_state R31). Answered by `step`. Safe. -/
  | unwrittenElement (i : Nat)
  deriving DecidableEq, Repr, Inhabited

/-- What the model leaves out. -/
inductive Refusal where
  /-- An instruction without a meaning, by its mnemonic; `exec` has no such arm. Safe. -/
  | notModelled (mnemonic : String)
  deriving DecidableEq, Repr, Inhabited

/-- The outcome of a step of this machine (00_scope R11). -/
abbrev StepOutcome := Host.Outcome State Fault Refusal

end Sys2Proof.Machine
end

