-- ==== Sys2Proof/Machine/Flags.lean ====
section
/-! DEFINITION. The status flags TXIS, RXNE and TC: setting and clearing them (10_state R24), the SR word a read
returns (30_encoding R73, 40_register_access R107) and the test of a flag in that word (42_bus_primitives R160). -/

namespace Sys2Proof.Machine

/-- R[SR].TXIS <- b. -/
def setTxis (b : Bool) (s : State) : State := { s with sr := { s.sr with txis := b } }

/-- R[SR].RXNE <- b. -/
def setRxne (b : Bool) (s : State) : State := { s with sr := { s.sr with rxne := b } }

/-- R[SR].TC <- b. -/
def setTc (b : Bool) (s : State) : State := { s with sr := { s.sr with tc := b } }

/-- The defined bits of SR: 1, 2 and 6 (30_encoding R73). -/
def srMask : Word := 0x46#32

/-- The three flags at their places in the SR word (30_encoding R73). -/
def srBits (r : StatusReg) : Word :=
  (BitVec.ofBool r.tc).setWidth 32 <<< 6 ||| (BitVec.ofBool r.rxne).setWidth 32 <<< 2 |||
    (BitVec.ofBool r.txis).setWidth 32 <<< 1

/-- The word READ_SR returns, given the draw for its undefined bits (40_register_access R107). -/
def srWord (d : Word) (r : StatusReg) : Word := (d &&& ~~~srMask) ||| srBits r

/-- The bit position of a flag in the SR word (30_encoding R73). -/
def flagBit : Flag → Nat
  | .txis => 1
  | .rxne => 2
  | .tc   => 6

/-- The predicate of a wait over the SR word that was read (42_bus_primitives R160). -/
def flagSeen (f : Flag) (sr : Word) : Bool := sr.getLsbD (flagBit f)

/-- A flag of the status register itself. -/
def StatusReg.flag (r : StatusReg) : Flag → Bool
  | .txis => r.txis
  | .rxne => r.rxne
  | .tc   => r.tc

end Sys2Proof.Machine
end

