-- ==== Sys2Proof/Machine/Operands.lean ====
section
/-! DEFINITION. The register data formats (30_encoding R72 to R76), the driver's argument ranges and host addresses. -/

namespace Sys2Proof.Machine

/-! The control register's word (30_encoding R72, R75, R76). -/

/-- The must-be-zero bits of a CR word: 31:27, 26, 24, 15, 12, 11 (30_encoding R72). -/
def mbzMask : Word := 0xFD009800#32

/-- The must-be-zero bits that are set in a CR word (30_encoding R76 MBZ). -/
def crMbz (v : Word) : Word := v &&& mbzMask

/-- decodeCR (30_encoding R76). -/
def decodeCR (v : Word) : CrFields :=
  { sadd    := v.extractLsb' 0 10
    rdWrn   := v.getLsbD 10
    start   := v.getLsbD 13
    stop    := v.getLsbD 14
    nbytes  := v.extractLsb' 16 8
    autoend := v.getLsbD 25 }

/-- A single bit as a word. -/
def bitWord (b : Bool) : Word := (BitVec.ofBool b).setWidth 32

/-- encodeCR (30_encoding R75). -/
def encodeCR (c : CrFields) : Word :=
  bitWord c.autoend <<< 25 ||| c.nbytes.setWidth 32 <<< 16 ||| bitWord c.stop <<< 14 |||
    bitWord c.start <<< 13 ||| bitWord c.rdWrn <<< 10 ||| c.sadd.setWidth 32

/-- The word READ_CR returns: the latched fields, START, STOP and every must-be-zero bit 0 (40_register_access R106). -/
def crWord (r : ControlReg) : Word :=
  bitWord r.autoend <<< 25 ||| r.nbytes.setWidth 32 <<< 16 ||| bitWord r.rdWrn <<< 10 ||| r.sadd.setWidth 32

/-- The direction a CR word's RD_WRN asks for (40_register_access R102, R103). -/
def dirOf (rdWrn : Bool) : Dir := if rdWrn then .R else .W

/-! The data registers' word (30_encoding R74). -/

/-- The byte of a data word: bits 7:0; bits 31:8 are ignored (30_encoding R74, 40_register_access R109). -/
def byteOf (v : Word) : Byte := v.setWidth 8

/-- A data byte as a word: bits 31:8 read as 0 (30_encoding R74). -/
def wordOf (b : Byte) : Word := b.setWidth 32

/-! The driver's arguments. -/

/-- The argument check of start_write and start_read (42_bus_primitives R161, R162). -/
def startArgsOk (address nbytes : Nat) : Bool :=
  decide (address ≤ 0x3FF) && decide (1 ≤ nbytes) && decide (nbytes ≤ 255)

/-- The argument check of read_burst (43_device_protocol R183). -/
def countOk (count : Nat) : Bool := decide (1 ≤ count) && decide (count ≤ Config.burstMax)

/-! Host addresses (00_scope R10, 20_memory R50, R57). -/

/-- The offset of CR (20_memory R59). -/
def offCR : Word := 0x04
/-- The offset of SR (20_memory R59). -/
def offSR : Word := 0x18
/-- The offset of RXDR (20_memory R59). -/
def offRXDR : Word := 0x24
/-- The offset of TXDR (20_memory R59). -/
def offTXDR : Word := 0x28

/-- The offsets of the four registers (20_memory R57, R59). -/
def registerOffsets : List Word := [offCR, offSR, offRXDR, offTXDR]

/-- The host address of an offset: I2C_BASE + off (00_scope R10). -/
def hostAddr (c : Config) (off : Word) : Word := c.i2cBase + off

/-- The offset of a host address: the address minus I2C_BASE (40_register_access R100). -/
def offsetOf (c : Config) (addr : Word) : Word := addr - c.i2cBase

/-- MemRead(off, n) (00_scope R10). -/
def readAccess (off : Word) (n : Nat) : Access := { we := false, off := off, n := n, v := 0 }

/-- MemWrite(off, n, v) (00_scope R10). -/
def writeAccess (off : Word) (n : Nat) (v : Word) : Access := { we := true, off := off, n := n, v := v }

end Sys2Proof.Machine
end

