-- ==== Sys2Proof/Machine/Ops.lean ====
section
/-! DEFINITION. The operations the meanings share: raising a fault (60_exceptions R211), bus events (10_state R28),
free draws, host memory (10_state R31), the driver's bookkeeping, and the next move (20_memory R60). -/

namespace Sys2Proof.Machine

/-! Faults: the one operation that takes an exception on this hardware (60_exceptions R211, R218). -/

/-- `raise Fault(c)`: FAULT <- c, nothing else changes; no state is saved and there is no handler (60 R211, log 2). -/
def raise (c : FaultCode) (s : State) : StepOutcome := .next { s with fault := some c }

/-- What an agent may do only while FAULT = none (40_register_access preamble, 60_exceptions R211). -/
def whileLive (s : State) (k : StepOutcome) : StepOutcome :=
  match s.fault with
  | none   => k
  | some c => .fault (.halted c)

/-- Goes on from a next state that raised no fault; a fault ends the run where it was raised (60_exceptions R211). -/
def onNext (o : StepOutcome) (k : State → StepOutcome) : StepOutcome :=
  match o with
  | .next s    => if s.fault = none then k s else .next s
  | .fault r   => .fault r
  | .refused r => .refused r

/-! The block. -/

/-- `emit E` (00_scope R10, 10_state R28). -/
def emit (e : Event) (s : State) : State := { s with hist := s.hist ++ [e] }

/-- `phase <- p`. -/
def setPhase (p : Phase) (s : State) : State := { s with phase := p }

/-- A CR write's latch (40_register_access R101). -/
def latchCr (c : CrFields) (s : State) : State :=
  { s with cr := { sadd := c.sadd, rdWrn := c.rdWrn, nbytes := c.nbytes, autoend := c.autoend } }

/-- The block has a phase in progress: no CR write is accepted (40_register_access R101, fault F04). -/
def Phase.busy : Phase → Bool
  | .idle             => false
  | .addressing _     => true
  | .transferring _ _ => true
  | .completing       => false

/-- A read access returns its word to the host (log 11). -/
def returnWord (r : Word) (s : State) : State := { s with rdata := r }

/-- One free value is used up (log 6). -/
def countDraw (s : State) : State := { s with draws := s.draws + 1 }

/-! Host memory: buf (10_state R31, 20_memory R50). -/

/-- Reads one element; an unwritten one has no value (10_state R31, log 12). -/
def Memory.read : Memory → Nat → Option Byte
  | [], _          => none
  | (k, b) :: r, a => if a = k then some b else Memory.read r a

/-- Writes one element and keeps the canonical form. -/
def Memory.write : Memory → Nat → Byte → Memory
  | [], a, v => [(a, v)]
  | (k, b) :: r, a, v =>
    if a < k then (a, v) :: (k, b) :: r
    else if a = k then (a, v) :: r
    else (k, b) :: Memory.write r a v

/-- The first `n` elements in order, or the index of the first unwritten one. -/
def Memory.readRange (m : Memory) (n : Nat) : Except Nat (List Byte) :=
  match n with
  | 0     => .ok []
  | n + 1 =>
    match Memory.readRange m n with
    | .error i => .error i
    | .ok bs   =>
      match m.read n with
      | none   => .error n
      | some b => .ok (bs ++ [b])

/-! The driver (10_state R31, 30_encoding R79). -/

/-- The driver after `f`. -/
def onDriver (f : Driver → Driver) (s : State) : State := { s with drv := f s.drv }

/-- pc <- pc + 1 (30_encoding R79). -/
def Driver.advance (d : Driver) : Driver := { d with pc := d.pc + 1 }

/-- The driver state at the start of every call: polls = 0, got = 0, buf all unwritten, result none (10_state R31). -/
def Driver.startCall (d : Driver) : Driver :=
  { d with polls := 0, inWait := false, buf := [], got := 0, result := none }

/-- A restart of the host: pc at the program's entry and R31's start-of-call values (70_reset_and_hazards R240). -/
def Driver.restart (d : Driver) : Driver := { d.startCall with pc := 0 }

/-- Writes the result of a transaction. -/
def Driver.return (r : Result) (d : Driver) : Driver := { d with result := some r }

/-- The host has a statement to run: it is not between calls (30_encoding R79, log 10). -/
def Driver.running (d : Driver) : Bool :=
  match d.result with
  | some (.error _) => false
  | _               => decide (d.pc < d.prog.length)

/-! The moves. -/

/-- The next move and the state without it: the first listed one, else a free one (log 3). -/
def takeMove (s : State) : Move × State :=
  match s.moves with
  | m :: ms => (m, { s with moves := ms })
  | []      => (Config.freeMove s.draws, countDraw s)

end Sys2Proof.Machine
end

