-- ==== Sys2Proof/Machine/Bus.lean ====
section
/-! DEFINITION. The controller's own steps on the bus agent's answers (41_bus_sequencer R130 to R142), and the wire
address (R143). Each step answers none where the answer is not enabled (R131). -/

namespace Sys2Proof.Machine

/-- Address ACK, write direction (41 R132). -/
def addrAckWrite (s : State) : State :=
  setTxis true (setPhase (.transferring .W s.cr.nbytes) (emit .addrAck s))

/-- Address ACK, read direction (41 R133). -/
def addrAckRead (s : State) : State :=
  setPhase (.transferring .R s.cr.nbytes) (emit .addrAck s)

/-- Address NACK: STOP, no flag set (41 R134). -/
def addrNack (s : State) : State :=
  setTxis false (setPhase .idle (emit .stop (emit .addrNack s)))

/-- Byte ACKed with more bytes to send (41 R135). -/
def byteAckedMore (r : Byte) (s : State) : State :=
  setTxis true (setPhase (.transferring .W (r - 1)) (emit (.wr s.txdr .ack) s))

/-- Last byte ACKed, no auto-stop (41 R136). -/
def lastByteAckedHold (s : State) : State :=
  setTc true (setPhase .completing (emit (.wr s.txdr .ack) s))

/-- Last byte ACKed, auto-stop (41 R137). -/
def lastByteAckedStop (s : State) : State :=
  setPhase .idle (emit .stop (emit (.wr s.txdr .ack) s))

/-- Byte NACKed: STOP (41 R138). -/
def byteNacked (s : State) : State :=
  setPhase .idle (emit .stop (emit (.wr s.txdr .nack) s))

/-- A received byte reaches RXDR and RXNE rises (41 R139 to R141). -/
def receive (b : Byte) (s : State) : State := setRxne true { s with rxdr := b }

/-- Byte received, more to come: the master ACKs (41 R139). -/
def byteReceivedMore (b r : Byte) (s : State) : State :=
  setPhase (.transferring .R (r - 1)) (emit (.rd b .ack) (receive b s))

/-- Last byte received, no auto-stop: the master NACKs and holds the bus (41 R140). -/
def lastByteReceivedHold (b : Byte) (s : State) : State :=
  setTc true (setPhase .completing (emit (.rd b .nack) (receive b s)))

/-- Last byte received, auto-stop (41 R141). -/
def lastByteReceivedStop (b : Byte) (s : State) : State :=
  setPhase .idle (emit .stop (emit (.rd b .nack) (receive b s)))

/-- Abort: no STOP; RXNE and RXDR are kept (41 R142). -/
def abortPhase (s : State) : State :=
  setTc false (setTxis false (setPhase .idle (emit .abort s)))

/-- A written byte's answer in Transferring(W, r) with TXIS = 0 (41 R135 to R138). r = 0 never exists (10_state R22,
log 20). -/
def wrAnswer (a : Ack) (r : Byte) (s : State) : Option State :=
  if r = 0 then none
  else match a with
    | .nack => some (byteNacked s)
    | .ack  =>
      if r = 1 then some (if s.cr.autoend then lastByteAckedStop s else lastByteAckedHold s)
      else some (byteAckedMore r s)

/-- A byte the slave drives in Transferring(R, r) with RXNE = 0 (41 R139 to R141). -/
def rdAnswer (b r : Byte) (s : State) : Option State :=
  if r = 0 then none
  else if r = 1 then some (if s.cr.autoend then lastByteReceivedStop b s else lastByteReceivedHold b s)
  else some (byteReceivedMore b r s)

/-- The step an answer fires, by R131's table; none where the answer is not enabled. -/
def busStep (a : Answer) (s : State) : Option State :=
  match s.phase, a with
  | .idle, _                           => none
  | .addressing _, .abort              => some (abortPhase s)
  | .addressing .W, .addrResp .ack     => some (addrAckWrite s)
  | .addressing .R, .addrResp .ack     => some (addrAckRead s)
  | .addressing _, .addrResp .nack     => some (addrNack s)
  | .addressing _, .wrResp _           => none
  | .addressing _, .rdByte _           => none
  | .transferring _ _, .abort          => some (abortPhase s)
  | .transferring .W r, .wrResp k      => if s.sr.txis then none else wrAnswer k r s
  | .transferring .R r, .rdByte b      => if s.sr.rxne then none else rdAnswer b r s
  | .transferring .W _, .rdByte _      => none
  | .transferring .R _, .wrResp _      => none
  | .transferring _ _, .addrResp _     => none
  | .completing, .abort                => some (abortPhase s)
  | .completing, .addrResp _           => none
  | .completing, .wrResp _             => none
  | .completing, .rdByte _             => none

/-- The 7-bit address the slave sees (41 R143). -/
def wireAddr7 (reading : AddrReading) (sadd : BitVec 10) : BitVec 7 :=
  match reading with
  | .shifted => sadd.extractLsb' 1 7
  | .literal => sadd.extractLsb' 0 7

/-- The address byte on the wire: seven address bits, then R/W (41 R143). -/
def addressByte (reading : AddrReading) (sadd : BitVec 10) (d : Dir) : Byte :=
  wireAddr7 reading sadd ++ BitVec.ofBool (decide (d = .R))

end Sys2Proof.Machine
end

