-- ==== Sys2Proof/Machine/Control.lean ====
section
/-! DEFINITION. The control register's accesses: WRITE_CR (40_register_access R101 to R105) and READ_CR (R106). -/

namespace Sys2Proof.Machine

/-- WRITE_CR's checks in priority order: F03, F04, F05, F08, F06, F07 (40 R101, 60_exceptions R213). -/
def crFault (v : Word) (s : State) : Option FaultCode :=
  let c := decodeCR v
  if crMbz v ≠ 0 then some .crReserved
  else if s.phase.busy then some .crBusy
  else if c.start && c.stop then some .startAndStop
  else if c.stop && decide (s.phase ≠ .completing) then some .stopNotHeld
  else if c.start && decide (c.nbytes = 0) then some .nbytesZero
  else if c.start && s.sr.rxne then some .rxPending
  else none

/-- START in Idle (40 R102). -/
def startCondition (c : CrFields) (s : State) : State :=
  setPhase (.addressing (dirOf c.rdWrn)) (emit (.start c.sadd (dirOf c.rdWrn)) s)

/-- START in Completing: RESTART; the bus is not released (40 R103). -/
def restartCondition (c : CrFields) (s : State) : State :=
  setPhase (.addressing (dirOf c.rdWrn)) (emit (.restart c.sadd (dirOf c.rdWrn)) (setTc false s))

/-- STOP in Completing (40 R104). -/
def stopCondition (s : State) : State := setPhase .idle (emit .stop (setTc false s))

/-- What an accepted CR write does after its latch: exactly one of R102, R103, R104, R105. In Addressing and
Transferring no CR write is accepted (fault F04). -/
def crAct (c : CrFields) (s : State) : State :=
  match s.phase with
  | .idle             => if c.start then startCondition c s else s
  | .completing       =>
    if c.start then restartCondition c s
    else if c.stop then stopCondition s
    else s
  | .addressing _     => s
  | .transferring _ _ => s

/-- WRITE_CR (40 R101 to R105). -/
def execWriteCr (v : Word) (s : State) : StepOutcome :=
  whileLive s <|
    match crFault v s with
    | some f => raise f s
    | none   => .next (crAct (decodeCR v) (latchCr (decodeCR v) s))

/-- READ_CR (40 R106). -/
def execReadCr (s : State) : StepOutcome :=
  whileLive s <| .next (returnWord (crWord s.cr) s)

end Sys2Proof.Machine
end

