-- ==== Sys2Proof/Machine/Data.lean ====
section
/-! DEFINITION. The data registers' accesses: WRITE_TXDR (40_register_access R109), READ_TXDR (R110), READ_RXDR
(R111) and WRITE_RXDR (R112). -/

namespace Sys2Proof.Machine

/-- WRITE_TXDR: the byte waits for the bus agent's answer (40 R109). -/
def execWriteTxdr (v : Word) (s : State) : StepOutcome :=
  whileLive s <|
    if s.sr.txis then .next (setTxis false { s with txdr := byteOf v })
    else raise .txNotReady s

/-- READ_TXDR (40 R110). -/
def execReadTxdr (s : State) : StepOutcome :=
  whileLive s <| .next (returnWord (wordOf s.txdr) s)

/-- READ_RXDR: reading frees the receive register for the next byte (40 R111). -/
def execReadRxdr (s : State) : StepOutcome :=
  whileLive s <|
    if s.sr.rxne then .next (setRxne false (returnWord (wordOf s.rxdr) s))
    else raise .rxEmpty s

/-- WRITE_RXDR: RXDR is a read port; the data word is ignored (40 R112). -/
def execWriteRxdr (_v : Word) (s : State) : StepOutcome :=
  whileLive s <| raise .roWrite s

end Sys2Proof.Machine
end

