-- ==== Sys2Proof/Machine/Status.lean ====
section
/-! DEFINITION. The status register's accesses: READ_SR (40_register_access R107) and WRITE_SR (R108). -/

namespace Sys2Proof.Machine

/-- READ_SR: the flags in bits 1, 2 and 6, a fresh free value in every other bit (40 R107, log 6). -/
def execReadSr (s : State) : StepOutcome :=
  whileLive s <| .next (returnWord (srWord (Config.freeWord s.draws) s.sr) (countDraw s))

/-- WRITE_SR: SR is readable only; the data word is ignored (40 R108). -/
def execWriteSr (_v : Word) (s : State) : StepOutcome :=
  whileLive s <| raise .roWrite s

end Sys2Proof.Machine
end

