-- ==== Sys2Proof/Machine/Dispatch.lean ====
section
/-! DEFINITION. Which meaning each instruction has, one arm per constructor of Instr. -/

namespace Sys2Proof.Machine

def exec (i : Instr) (s : State) : Host.Outcome State Fault Refusal :=
  match i with
  | .writeCr v => Sys2Proof.Machine.execWriteCr v s
  | .readCr => Sys2Proof.Machine.execReadCr s
  | .readSr => Sys2Proof.Machine.execReadSr s
  | .writeSr v => Sys2Proof.Machine.execWriteSr v s
  | .writeTxdr v => Sys2Proof.Machine.execWriteTxdr v s
  | .readTxdr => Sys2Proof.Machine.execReadTxdr s
  | .readRxdr => Sys2Proof.Machine.execReadRxdr s
  | .writeRxdr v => Sys2Proof.Machine.execWriteRxdr v s

end Sys2Proof.Machine
end

