-- ==== Sys2Proof/Machine/Driver.lean ====
section
/-! DEFINITION. Driver programs: every statement of 30_encoding R79 and every pseudo-instruction of R80 as the inlined
statements it stands for (42_bus_primitives R161 to R166, 43_device_protocol R181 to R183). -/

namespace Sys2Proof.Machine

/-- A statement that is one access. -/
def accessOp (a : Access) (d : Dest) : Op := { enter := false, act := .access a d }

/-- A statement that polls. -/
def pollOp (f : Flag) (w : Waiter) : Op := { enter := false, act := .poll f w }

/-- Marks the first statement of a transaction: R31's start-of-call values are taken before it (10_state R31). -/
def entering : List Op → List Op
  | []        => []
  | op :: ops => { op with enter := true } :: ops

/-- start_write: F11 for arguments that do not fit, else one CR write (42 R161). -/
def startWriteOps (address nbytes : Nat) : List Op :=
  if startArgsOk address nbytes then
    [accessOp (writeAccess offCR 4 (encodeCR
      { sadd := BitVec.ofNat 10 address, rdWrn := false, start := true, stop := false,
        nbytes := BitVec.ofNat 8 nbytes, autoend := false })) .none]
  else [{ enter := false, act := .argFault }]

/-- start_read (42 R162). -/
def startReadOps (address nbytes : Nat) (autoStop : Bool) : List Op :=
  if startArgsOk address nbytes then
    [accessOp (writeAccess offCR 4 (encodeCR
      { sadd := BitVec.ofNat 10 address, rdWrn := true, start := true, stop := false,
        nbytes := BitVec.ofNat 8 nbytes, autoend := autoStop })) .none]
  else [{ enter := false, act := .argFault }]

/-- send_byte (42 R163). -/
def sendByteOps (b : Byte) : List Op :=
  [pollOp .txis .sendByte, accessOp (writeAccess offTXDR 4 (wordOf b)) .none]

/-- await_transfer_complete (42 R164). -/
def awaitTransferCompleteOps : List Op := [pollOp .tc .awaitTransferComplete]

/-- recv_byte, with who waits and where the byte goes (42 R165). -/
def recvByteOps (w : Waiter) (d : Dest) : List Op :=
  [pollOp .rxne w, accessOp (readAccess offRXDR 4) d]

/-- read_register (43 R181). -/
def readRegisterOps (c : Config) (reg : Byte) : List Op :=
  entering <|
    startWriteOps c.slaveAddr.toNat 1 ++ sendByteOps reg ++ awaitTransferCompleteOps ++
    startReadOps c.slaveAddr.toNat 1 true ++ recvByteOps .recvByte .value

/-- write_register (43 R182). -/
def writeRegisterOps (c : Config) (reg value : Byte) : List Op :=
  entering <|
    startWriteOps c.slaveAddr.toNat 2 ++ sendByteOps reg ++ sendByteOps value ++ awaitTransferCompleteOps ++
    startReadOps c.slaveAddr.toNat 1 true ++ recvByteOps .recvByte .probe

/-- read_burst: F11 for a count out of range, before any access (43 R183). -/
def readBurstOps (c : Config) (startReg : Byte) (count : Nat) : List Op :=
  entering <|
    if countOk count then
      startWriteOps c.slaveAddr.toNat 1 ++ sendByteOps startReg ++ awaitTransferCompleteOps ++
      startReadOps c.slaveAddr.toNat count true ++
      (List.replicate count (recvByteOps (.burst count) (.burst count))).flatten
    else [{ enter := false, act := .argFault }]

/-- The inlined form of a statement (30_encoding R79, R80). -/
def Stmt.expand (c : Config) : Stmt → List Op
  | .memRead addr n          => [accessOp (readAccess (offsetOf c addr) n) .none]
  | .memWrite addr n v       => [accessOp (writeAccess (offsetOf c addr) n v) .none]
  | .writeCR imm             => [accessOp (writeAccess offCR 4 imm) .none]
  | .writeTXDR imm           => [accessOp (writeAccess offTXDR 4 (wordOf imm)) .none]
  | .readSR                  => [accessOp (readAccess offSR 4) .none]
  | .readRXDR i              => [accessOp (readAccess offRXDR 4) (.buf i)]
  | .poll f                  => [pollOp f .bare]
  | .startWrite a n          => startWriteOps a n
  | .startRead a n ae        => startReadOps a n ae
  | .sendByte b              => sendByteOps b
  | .awaitTransferComplete   => awaitTransferCompleteOps
  | .recvByte                => recvByteOps .recvByte .value
  | .beginWrite a n          => startWriteOps a n
  | .beginRead a n ae        => startReadOps a n ae
  | .beginTransaction cr     => [accessOp (writeAccess offCR 4 (encodeCR cr)) .none]
  | .readRegister reg        => readRegisterOps c reg
  | .writeRegister reg value => writeRegisterOps c reg value
  | .readBurst reg n         => readBurstOps c reg n
  | .decodeSample            => [{ enter := false, act := .decodeSample }]
  | .repeatN n body          => (List.replicate n (expandBody c body)).flatten
  | .forever body            =>
    expandBody c body ++ [{ enter := false, act := .jumpBack (expandBody c body).length }]
  | .delayMs ms              => [{ enter := false, act := .delay ms }]
where
  /-- The inlined form of a list of statements (30_encoding R79). -/
  expandBody (c : Config) : List Stmt → List Op
    | []      => []
    | st :: r => Stmt.expand c st ++ expandBody c r

/-- The inlined form of a driver program. -/
def expand (c : Config) (prog : List Stmt) : List Op := Stmt.expand.expandBody c prog

/-- The application as the spec reconstructs it (92 D33, 95 P4); informative, no rule rests on it. -/
def application (c : Config) : List Stmt :=
  [.readRegister c.regTable.whoAmI, .writeRegister c.regTable.cfgRegA 0x00,
   .forever [.readBurst c.regTable.outxL 6, .decodeSample, .delayMs 1000]]

end Sys2Proof.Machine
end

