-- ==== Sys2Proof/Machine/Sample.lean ====
section
/-! DEFINITION. The host's arithmetic on samples (43_device_protocol R184, R186) and the readback check (R185). -/

namespace Sys2Proof.Machine

/-- s16 (00_scope R9): a 16-bit pattern as a signed value. -/
def s16 (v : BitVec 16) : Int := v.toInt

/-- The 16-bit pattern of a low byte and a high byte (43 R184). -/
def pairOf (lo hi : Byte) : BitVec 16 := hi.setWidth 16 <<< 8 ||| lo.setWidth 16

/-- decode_sample: little-endian pairs in the axis order X, Z, Y (43 R184). -/
def decodeSample (b0 b1 b2 b3 b4 b5 : Byte) : SampleTriple :=
  { x := pairOf b0 b1, z := pairOf b2 b3, y := pairOf b4 b5 }

/-- encode_sample, the inverse (43 R186). -/
def encodeSample (t : SampleTriple) : List Byte :=
  [t.x.extractLsb' 0 8, t.x.extractLsb' 8 8, t.z.extractLsb' 0 8, t.z.extractLsb' 8 8,
   t.y.extractLsb' 0 8, t.y.extractLsb' 8 8]

/-- decode_sample of a buffer's first six elements, or the index of the first unwritten one (43 R184, 10_state R31). -/
def sampleOf (buf : Memory) : Except Nat SampleTriple :=
  match buf.readRange 6 with
  | .ok [b0, b1, b2, b3, b4, b5] => .ok (decodeSample b0 b1 b2 b3 b4 b5)
  | .ok _                        => .error 0
  | .error i                     => .error i

/-- check_readback: E2 is recorded and the caller goes on (43 R185). -/
def checkReadback (expected : Option Byte) (p : Byte) (d : Driver) : Driver :=
  match expected with
  | none   => d
  | some e => if p = e then d else { d with diags := d.diags ++ [{ probe := p, expected := e }] }

end Sys2Proof.Machine
end

