-- ==== Sys2Proof/Machine/Host.lean ====
section
/-! DEFINITION. The moves of the agents: the host's statements (30_encoding R79, 42_bus_primitives R160), the bus
agent's answers (41_bus_sequencer R131), the hardware reset (70_reset_and_hazards R240, R241) and the caller's calls
(log 8). -/

namespace Sys2Proof.Machine

/-! The host's statements. -/

/-- One host access: decode, then the meaning; an access that decodes to nothing raises F01 (40 R100, 30 R77). -/
def perform (a : Access) (s : State) : StepOutcome :=
  match decodeAccess a with
  | .ok i    => exec i s
  | .error _ => whileLive s <| raise .badAccess s

/-- A burst's next byte: stored at got; when it was the last one, the buffer is the result (43 R183). Reading back an
unwritten element answers its index (10_state R31). -/
def storeBurst (count : Nat) (b : Byte) (d : Driver) : Except Nat Driver :=
  let d' := { d with buf := d.buf.write d.got b, got := d.got + 1 }
  if d'.got = count then
    match d'.buf.readRange count with
    | .ok bs   => .ok (d'.return (.bytes bs))
    | .error i => .error i
  else .ok d'

/-- What the host does with the word a read access returned, or the index of an unwritten element it read
(30_encoding R79; 42 R165; 43 R181 to R183). -/
def deliver (dest : Dest) (expected : Option Byte) (r : Word) (d : Driver) : Except Nat Driver :=
  match dest with
  | .none        => .ok d
  | .buf i       => .ok { d with buf := d.buf.write i (byteOf r) }
  | .value       => .ok (d.return (.byte (byteOf r)))
  | .probe       => .ok ((checkReadback expected (byteOf r) d).return (.byte (byteOf r)))
  | .burst count => storeBurst count (byteOf r) d

/-- The host after an access that raised no fault: the word goes to its destination and pc moves on. -/
def finishAccess (dest : Dest) (s : State) : StepOutcome :=
  match deliver dest s.cfg.expectedCfgReadback s.rdata s.drv with
  | .ok d    => .next { s with drv := d.advance }
  | .error i => .fault (.unwrittenElement i)

/-- Whether the poll budget is spent after that many failed polls (42 R160). -/
def budgetSpent (budget : Option Nat) (polls : Nat) : Bool :=
  match budget with
  | none   => false
  | some b => decide (b ≤ polls)

/-- The typed error of a wait that timed out: E3 inside read_burst once a byte has been stored, else E1 (43 R183,
60_exceptions R215). -/
def timeoutError (w : Waiter) (f : Flag) (got : Nat) : DriverError :=
  match w with
  | .burst count => if 1 ≤ got then .malformedBurst got count else .busStall .recvByte f
  | _            => .busStall w f

/-- The failed polls of the wait so far: 0 at its start (42 R160, log 13). -/
def Driver.pollsSoFar (d : Driver) : Nat := if d.inWait then d.polls else 0

/-- What one poll does with the SR word it read (42 R160). -/
def pollOutcome (f : Flag) (w : Waiter) (budget : Option Nat) (sr : Word) (d : Driver) : Driver :=
  if flagSeen f sr then { d with polls := d.pollsSoFar, inWait := false }.advance
  else if budgetSpent budget (d.pollsSoFar + 1) then
    { d with polls := d.pollsSoFar + 1, inWait := false, result := some (.error (timeoutError w f d.got)) }
  else { d with polls := d.pollsSoFar + 1, inWait := true }

/-- The host after a poll's SR read (42 R160). -/
def finishPoll (f : Flag) (w : Waiter) (s : State) : StepOutcome :=
  .next (onDriver (pollOutcome f w s.cfg.pollBudget s.rdata) s)

/-- One statement of the host. -/
def runAct (act : Act) (s : State) : StepOutcome :=
  match act with
  | .access a d   => onNext (perform a s) (finishAccess d)
  | .poll f w     => onNext (perform (readAccess offSR 4) s) (finishPoll f w)
  | .argFault     => whileLive s <| raise .argRange s
  | .decodeSample =>
    match sampleOf s.drv.buf with
    | .ok t    => .next (onDriver (fun d => (d.return (.sample t)).advance) s)
    | .error i => .fault (.unwrittenElement i)
  | .delay _      => .next (onDriver Driver.advance s)
  | .jumpBack k   => .next (onDriver (fun d => { d with pc := d.pc - k }) s)

/-- The host's next step: the statement at pc; none after the program's end or a fatal error (30 R79, log 10). -/
def hostStep (s : State) : StepOutcome :=
  match s.drv.result with
  | some (.error e) => .fault (.endedWithError e)
  | _ =>
    match s.drv.prog[s.drv.pc]? with
    | none    => .fault .programEnded
    | some op => runAct op.act (if op.enter then onDriver Driver.startCall s else s)

/-! The other agents. -/

/-- A bus move: the step its answer fires; an answer that is not enabled is no step of the bus agent, which then
stalls (41 R131, 00_scope R3, log 4). -/
def busMove (a : Answer) (s : State) : State := (busStep a s).getD s

/-- Hardware reset (70 R240, R241): the block and the host. RXDR is unspecified after it (log 5). -/
def resetMove (s : State) : State :=
  countDraw
    { emit .reset s with
      phase := .idle
      cr    := ControlReg.reset
      sr    := StatusReg.reset
      txdr  := 0x00
      rxdr  := Config.freeByte s.draws
      rdata := 0
      drv   := s.drv.restart }

/-- The caller hands the host a program; only between calls, since the host is single-threaded (42 R167, log 8). -/
def callMove (prog : List Op) (s : State) : State :=
  if s.drv.running then s
  else onDriver (fun d => { d.startCall with prog := prog, pc := 0 }) s

/-- One move of one agent. -/
def stepMove (m : Move) (s : State) : StepOutcome :=
  match m with
  | .host   => hostStep s
  | .bus a  => .next (busMove a s)
  | .reset  => .next (resetMove s)
  | .call p => .next (callMove p s)

/-! Placing a program's next statement. -/

/-- The program with `op` at index `pc`; a gap before it is filled with statements that do nothing. -/
def setStatement (prog : List Op) (pc : Nat) (op : Op) : List Op :=
  prog.take pc ++ List.replicate (pc - prog.length) { enter := false, act := .delay 0 } ++ op :: prog.drop (pc + 1)

/-- A driver without a fatal error pending. -/
def Driver.cleared (d : Driver) : Driver :=
  match d.result with
  | some (.error _) => { d with result := none }
  | _               => d

/-- `s` with the host about to issue the access `a`: the statement at pc, and the host moves next (log 8). -/
def withNextAccess (s : State) (a : Access) : State :=
  { onDriver (fun d => { d.cleared with prog := setStatement d.prog d.pc (accessOp a .none) }) s with
    moves := .host :: s.moves }

end Sys2Proof.Machine
end

