-- ==== Sys2Proof/Machine/Step.lean ====
section
/-! DEFINITION. One step of the machine, and where an instruction of the opcode table is placed for it to run. -/

namespace Sys2Proof.Machine

/-- One step: nothing once FAULT is set (60_exceptions R211); else the next move of the agents (20_memory R60). -/
def step (s : State) : Host.Outcome State Fault Refusal :=
  whileLive s (stepMove (takeMove s).1 (takeMove s).2)

/-- `s` with the instruction word of the opcode table as the host's next access, and the host moving next (log 8). -/
def State.withFetchWord (s : State) (nbits w : Nat) : State := withNextAccess s (accessOfTableWord nbits w)

end Sys2Proof.Machine
end

