-- ==== Sys2Proof/Safety.lean ====
section
/-! DEFINITION. The terms claims use: the block apart from the rest of the state, its invariants, the bracketing of
HIST, which instruction the host issues next, and the launch premises (70_reset_and_hazards R243). -/

namespace Sys2Proof.Machine

/-! The block (10_state). -/

/-- The block's state with its event history, apart from the host, the moves and FAULT. -/
structure Block where
  phase : Phase
  cr    : ControlReg
  sr    : StatusReg
  txdr  : Byte
  rxdr  : Byte
  hist  : List Event
  deriving DecidableEq, Repr, Inhabited

/-- The block of a state. -/
def State.block (s : State) : Block :=
  { phase := s.phase, cr := s.cr, sr := s.sr, txdr := s.txdr, rxdr := s.rxdr, hist := s.hist }

/-- What every phase says of the flags, the counter and the latched fields: TXIS only in Transferring(W, r), TC exactly
in Completing, 1 ≤ remaining ≤ NBYTES, the direction as latched, no unread byte before a read phase delivers one
(10_state R22, R24, R27; 40_register_access R101 F06, F07). -/
def Block.inv (b : Block) : Bool :=
  match b.phase with
  | .idle               => !b.sr.txis && !b.sr.tc
  | .addressing d       =>
    !b.sr.txis && !b.sr.rxne && !b.sr.tc && decide (b.cr.nbytes ≠ 0) && decide (d = dirOf b.cr.rdWrn)
  | .transferring .W r  =>
    !b.sr.rxne && !b.sr.tc && decide (r ≠ 0) && decide (r ≤ b.cr.nbytes) && !b.cr.rdWrn
  | .transferring .R r  =>
    !b.sr.txis && !b.sr.tc && decide (r ≠ 0) && decide (r ≤ b.cr.nbytes) && b.cr.rdWrn
  | .completing         => !b.sr.txis && b.sr.tc

/-! HIST (10_state R28, 41_bus_sequencer R145). -/

/-- The events that end what a Start began: Stop, Abort, Reset (41 R145). -/
def Event.ends : Event → Bool
  | .stop  => true
  | .abort => true
  | .reset => true
  | _      => false

/-- An event that is a Start (not a Restart). -/
def Event.isStart : Event → Bool
  | .start _ _ => true
  | _          => false

/-- Reads one more event: `some true` while a transaction is open on the bus, `some false` while none is, `none` once
an event stood where R145 lets none stand. -/
def bracketStep (b : Option Bool) (e : Event) : Option Bool :=
  match b with
  | none       => none
  | some true  => if e.isStart then none else some !e.ends
  | some false => if e.isStart then some true else if e = .reset then some false else none

/-- Whether a transaction is open after a history; none if the history is not bracketed (41 R145). -/
def bracket (h : List Event) : Option Bool := h.foldl bracketStep (some false)

/-- HIST is bracketed, and a transaction is open on the bus exactly when PHASE is not Idle. -/
def Block.bracketed (b : Block) : Bool := decide (bracket b.hist = some (decide (b.phase ≠ .idle)))

/-- The byte of the last Rd event of a history. -/
def lastRd (h : List Event) : Option Byte :=
  h.foldl (fun acc e => match e with | .rd b _ => some b | _ => acc) none

/-- The bytes of the Rd events of a history, in order (43_device_protocol R187). -/
def rdBytes (h : List Event) : List Byte :=
  h.filterMap fun e => match e with | .rd b _ => some b | _ => none

/-- A byte waiting in RXDR is the byte of the last Rd event (43_device_protocol R187). -/
def Block.byteIntact (b : Block) : Bool := !b.sr.rxne || decide (lastRd b.hist = some b.rxdr)

/-! What the next step does. -/

/-- The move the next step takes. -/
def State.nextMove (s : State) : Move := (takeMove s).1

/-- The instruction the host's next statement issues, if it issues a decodable access. -/
def State.issues (s : State) : Option Instr :=
  if s.drv.running then
    match s.drv.prog[s.drv.pc]? with
    | some ⟨_, .access a _⟩ => (decodeAccess a).toOption
    | some ⟨_, .poll _ _⟩   => some .readSr
    | _                     => none
  else none

/-- The next step is the host's and issues `i`. -/
def State.hostDoes (s : State) (i : Instr) : Prop := s.nextMove = .host ∧ s.issues = some i

/-! Launch premises (70_reset_and_hazards R243). -/

/-- `Clean`: FAULT = none, PHASE = Idle, TXIS = RXNE = TC = 0, HIST = []. -/
def State.clean (s : State) : Bool :=
  decide (s.fault = none) && decide (s.phase = .idle) && decide (s.sr = StatusReg.reset) && decide (s.hist = [])

/-- An answer of a live bus agent: never Nack, never Abort (R243 `BusLive`). -/
def Answer.positive : Answer → Bool
  | .addrResp a => decide (a = .ack)
  | .wrResp a   => decide (a = .ack)
  | .rdByte _   => true
  | .abort      => false

/-- A finite or infinite run as a sequence that stays where it stops. -/
def IsRun (run : Nat → State) : Prop :=
  ∀ k, step (run k) = .next (run (k + 1)) ∨ ((∀ t, step (run k) ≠ .next t) ∧ run (k + 1) = run k)

/-- The run goes on: some agent has the next step. After a fault no agent has one (60_exceptions R211), and none has
one where the run has ended (30_encoding R79), so there no step stays enabled. -/
def State.goesOn (s : State) : Prop := ∃ t, step s = .next t

/-- The next step is taken, and it is the move `m`. -/
def State.takes (s : State) (m : Move) : Prop := s.nextMove = m ∧ s.goesOn

/-- `NoReset` (R243): no reset step in the run. -/
def NoReset (run : Nat → State) : Prop := ∀ k, ¬ (run k).takes .reset

/-- The bus agent has a positive step. -/
def BusEnabled (s : State) : Prop := s.goesOn ∧ ∃ a, a.positive = true ∧ (busStep a s).isSome = true

/-- The next step is a step of the bus agent. -/
def BusSteps (s : State) : Prop := ∃ a, s.takes (.bus a) ∧ (busStep a s).isSome = true

/-- `BusLive` (R243): the bus agent steps by positive answers only, and a step that stays enabled is taken (weak
fairness). -/
def BusLive (run : Nat → State) : Prop :=
  (∀ k a, (run k).takes (.bus a) → (busStep a (run k)).isSome = true → a.positive = true) ∧
  ∀ k, ∃ j, k ≤ j ∧ (BusSteps (run j) ∨ ¬ BusEnabled (run j))

/-- The host has a step: none after a fault, a fatal error, or its program's end (60 R211, 30 R79). -/
def HostEnabled (s : State) : Prop := s.goesOn ∧ ∃ t, hostStep s = .next t

/-- A weakly fair host (R243): a step of the host that stays enabled is taken. -/
def HostFair (run : Nat → State) : Prop := ∀ k, ∃ j, k ≤ j ∧ ((run j).takes .host ∨ ¬ HostEnabled (run j))

/-- `Budget(P)` (R243). -/
def Budget (p : Option Nat) (s : State) : Prop := s.cfg.pollBudget = p

/-- The host is at the start of a transaction's statements and nothing is pending. -/
def State.atStartOf (s : State) (prog : List Op) : Prop :=
  s.drv.prog = prog ∧ s.drv.pc = 0 ∧ s.drv.result = none ∧ s.drv.inWait = false

end Sys2Proof.Machine
end

