-- ==== Sys2Proof/WellFormed.lean ====
section
/-! DEFINITION. Which terms are well formed: instructions, host accesses (20_memory R54), primitive arguments
(42_bus_primitives R161, R162; 43_device_protocol R183), inlined programs and configurations (00_scope R8). -/

namespace Sys2Proof

/-- Every instruction is well formed: an operand is exactly the 32-bit data word the format gives (30_encoding R70). -/
def Instr.wf : Instr → Bool
  | .writeCr _   => true
  | .readCr      => true
  | .readSr      => true
  | .writeSr _   => true
  | .writeTxdr _ => true
  | .readTxdr    => true
  | .readRxdr    => true
  | .writeRxdr _ => true

/-- An access the block decodes: 4 bytes wide at a register (20_memory R54). -/
def Access.wf (a : Access) : Bool := decide (a.n = 4) && Machine.registerOffsets.contains a.off

/-- The parameters' own bounds (00_scope R8): a poll budget is at least 1. (I2C_BASE's low bits are 0 by its type.) -/
def Config.wf (c : Config) : Bool :=
  match c.pollBudget with
  | none   => true
  | some b => decide (1 ≤ b)

namespace Machine

/-- A statement whose arguments fit; bodies are checked as programs. -/
def Stmt.wf : Stmt → Bool
  | .memRead _ _           => true
  | .memWrite _ _ _        => true
  | .writeCR _             => true
  | .writeTXDR _           => true
  | .readSR                => true
  | .readRXDR _            => true
  | .poll _                => true
  | .startWrite a n        => startArgsOk a n
  | .startRead a n _       => startArgsOk a n
  | .sendByte _            => true
  | .awaitTransferComplete => true
  | .recvByte              => true
  | .beginWrite a n        => startArgsOk a n
  | .beginRead a n _       => startArgsOk a n
  | .beginTransaction _    => true
  | .readRegister _        => true
  | .writeRegister _ _     => true
  | .readBurst _ n         => countOk n
  | .decodeSample          => true
  | .repeatN _ body        => bodyWf body
  | .forever body          => bodyWf body
  | .delayMs _             => true
where
  /-- Every statement of a body fits. -/
  bodyWf : List Stmt → Bool
    | []      => true
    | st :: r => Stmt.wf st && bodyWf r

/-- An inlined program's jumps stay inside it (30_encoding R79: `forever` repeats its own body). -/
def progWf (prog : List Op) : Bool :=
  (List.range prog.length).all fun k =>
    match prog[k]? with
    | some ⟨_, .jumpBack d⟩ => decide (d ≤ k)
    | _ => true

end Machine

end Sys2Proof
end

