-- ==== Sys2Proof/Certificates/Slice0/Obligations.lean ====
section
/-! DEFINITION. The statements for the provers. Each docstring names the rule of spec/ it formalises, or says what is
the model's own choice and where it is logged. -/

open Sys2Proof Sys2Proof.Machine

/-! ## Encoding (30_encoding, 40_register_access R100) -/

/-- 30_encoding R71: access words of the table, written out as we : off, decode to their operations. -/
def Obligations.TableWordsDecode : Prop :=
  ∀ v : Word,
    decodeWord 0b1_0000_0100#9 v = .ok (.writeCr v) ∧ decodeWord 0b0_0000_0100#9 v = .ok .readCr ∧
    decodeWord 0b0_0001_1000#9 v = .ok .readSr ∧ decodeWord 0b1_0001_1000#9 v = .ok (.writeSr v) ∧
    decodeWord 0b1_0010_1000#9 v = .ok (.writeTxdr v) ∧ decodeWord 0b0_0010_1000#9 v = .ok .readTxdr ∧
    decodeWord 0b0_0010_0100#9 v = .ok .readRxdr ∧ decodeWord 0b1_0010_0100#9 v = .ok (.writeRxdr v)

/-- 40_register_access R100: width 4 and one of the four offsets select the operation; any other access raises F01 and
changes nothing else. -/
def Obligations.AccessDecodeSelectsOrRaisesF01 : Prop :=
  (∀ (we : Bool) (off : Word) (n : Nat) (v : Word) (s : State), s.fault = none →
    (n ≠ 4 ∨ ¬ (off = 0x04 ∨ off = 0x18 ∨ off = 0x24 ∨ off = 0x28)) →
      perform ⟨we, off, n, v⟩ s = .next { s with fault := some .badAccess }) ∧
  (∀ (v : Word) (s : State),
    perform ⟨true, 0x04, 4, v⟩ s = exec (.writeCr v) s ∧ perform ⟨false, 0x04, 4, v⟩ s = exec .readCr s ∧
    perform ⟨false, 0x18, 4, v⟩ s = exec .readSr s ∧ perform ⟨true, 0x18, 4, v⟩ s = exec (.writeSr v) s ∧
    perform ⟨true, 0x28, 4, v⟩ s = exec (.writeTxdr v) s ∧ perform ⟨false, 0x28, 4, v⟩ s = exec .readTxdr s ∧
    perform ⟨false, 0x24, 4, v⟩ s = exec .readRxdr s ∧ perform ⟨true, 0x24, 4, v⟩ s = exec (.writeRxdr v) s)

/-- Decoding the bytes of any instruction gives it back with every bit of its data word, and the rest of the bytes
(30_encoding R70, R71). The byte container is the model's choice (log 1). -/
def Obligations.DecodeUndoesEncode : Prop :=
  ∀ (i : Instr) (rest : List Byte), i.wf = true → decode (encode i ++ rest) = .ok (i, rest)

/-- Whatever decodes is the encoding of what it decodes to: no two byte strings mean one instruction and no word has
two meanings (30_encoding R71, R78). The byte container is the model's choice (log 1). -/
def Obligations.EncodeUndoesDecode : Prop :=
  ∀ (bs rest : List Byte) (i : Instr), decode bs = .ok (i, rest) → bs = encode i ++ rest

/-- 30_encoding R75: encodeCR places each field at its bits; the worked values. -/
def Obligations.EncodeCrPlacesFields : Prop :=
  (∀ c : CrFields, (encodeCR c).toNat =
    c.autoend.toNat * 2 ^ 25 + c.nbytes.toNat * 2 ^ 16 + c.stop.toNat * 2 ^ 14 + c.start.toNat * 2 ^ 13 +
      c.rdWrn.toNat * 2 ^ 10 + c.sadd.toNat) ∧
  encodeCR ⟨0x03C, false, true, false, 1, false⟩ = 0x0001203C#32 ∧
  encodeCR ⟨0x03C, false, true, false, 2, false⟩ = 0x0002203C#32 ∧
  encodeCR ⟨0x03C, true, true, false, 1, true⟩ = 0x0201243C#32 ∧
  encodeCR ⟨0x03C, true, true, false, 6, true⟩ = 0x0206243C#32

/-- 30_encoding R76: decodeCR's fields, and decodeCR undoes encodeCR with no must-be-zero bit set. -/
def Obligations.DecodeCrUndoesEncodeCr : Prop :=
  (∀ v : Word,
    (decodeCR v).sadd.toNat = v.toNat % 2 ^ 10 ∧ (decodeCR v).rdWrn = v.toNat.testBit 10 ∧
    (decodeCR v).start = v.toNat.testBit 13 ∧ (decodeCR v).stop = v.toNat.testBit 14 ∧
    (decodeCR v).nbytes.toNat = v.toNat / 2 ^ 16 % 2 ^ 8 ∧ (decodeCR v).autoend = v.toNat.testBit 25 ∧
    crMbz v = v &&& 0xFD009800#32) ∧
  ∀ c : CrFields, decodeCR (encodeCR c) = c ∧ crMbz (encodeCR c) = 0

/-! ## The control register (40_register_access R101 to R106) -/

/-- 40_register_access R101: the six checks in priority order, each raising its fault and nothing else; when all pass,
the write completes with the fields latched. -/
def Obligations.WriteCrChecksThenLatches : Prop :=
  ∀ (v : Word) (s : State), s.fault = none →
    (v &&& 0xFD009800#32 ≠ 0 → exec (.writeCr v) s = .next { s with fault := some .crReserved }) ∧
    (v &&& 0xFD009800#32 = 0 →
      (((∃ d, s.phase = .addressing d) ∨ ∃ d r, s.phase = .transferring d r) →
        exec (.writeCr v) s = .next { s with fault := some .crBusy }) ∧
      ((s.phase = .idle ∨ s.phase = .completing) →
        (v.getLsbD 13 = true → v.getLsbD 14 = true →
          exec (.writeCr v) s = .next { s with fault := some .startAndStop }) ∧
        (v.getLsbD 13 = false → v.getLsbD 14 = true → s.phase ≠ .completing →
          exec (.writeCr v) s = .next { s with fault := some .stopNotHeld }) ∧
        (v.getLsbD 13 = true → v.getLsbD 14 = false → v.extractLsb' 16 8 = 0 →
          exec (.writeCr v) s = .next { s with fault := some .nbytesZero }) ∧
        (v.getLsbD 13 = true → v.getLsbD 14 = false → v.extractLsb' 16 8 ≠ 0 → s.sr.rxne = true →
          exec (.writeCr v) s = .next { s with fault := some .rxPending }) ∧
        (¬ (v.getLsbD 13 = true ∧ v.getLsbD 14 = true) → (v.getLsbD 14 = true → s.phase = .completing) →
          (v.getLsbD 13 = true → v.extractLsb' 16 8 ≠ 0 ∧ s.sr.rxne = false) →
          ∃ t, exec (.writeCr v) s = .next t ∧ t.fault = none ∧
            t.cr = ⟨v.extractLsb' 0 10, v.getLsbD 10, v.extractLsb' 16 8, v.getLsbD 25⟩)))

/-- 40_register_access R102: START in Idle. -/
def Obligations.StartInIdleBeginsAddressing : Prop :=
  ∀ (v : Word) (s : State), s.fault = none → v &&& 0xFD009800#32 = 0 → s.phase = .idle →
    v.getLsbD 13 = true → v.getLsbD 14 = false → v.extractLsb' 16 8 ≠ 0 → s.sr.rxne = false →
    exec (.writeCr v) s = .next
      { s with
        cr    := ⟨v.extractLsb' 0 10, v.getLsbD 10, v.extractLsb' 16 8, v.getLsbD 25⟩
        hist  := s.hist ++ [.start (v.extractLsb' 0 10) (if v.getLsbD 10 then .R else .W)]
        phase := .addressing (if v.getLsbD 10 then .R else .W) }

/-- 40_register_access R103: START in Completing is a RESTART; TC clears, no Stop is emitted. -/
def Obligations.StartInCompletingRestarts : Prop :=
  ∀ (v : Word) (s : State), s.fault = none → v &&& 0xFD009800#32 = 0 → s.phase = .completing →
    v.getLsbD 13 = true → v.getLsbD 14 = false → v.extractLsb' 16 8 ≠ 0 → s.sr.rxne = false →
    exec (.writeCr v) s = .next
      { s with
        cr    := ⟨v.extractLsb' 0 10, v.getLsbD 10, v.extractLsb' 16 8, v.getLsbD 25⟩
        sr    := { s.sr with tc := false }
        hist  := s.hist ++ [.restart (v.extractLsb' 0 10) (if v.getLsbD 10 then .R else .W)]
        phase := .addressing (if v.getLsbD 10 then .R else .W) }

/-- 40_register_access R104: STOP in Completing; RXNE is unchanged. -/
def Obligations.StopInCompletingReleasesBus : Prop :=
  ∀ (v : Word) (s : State), s.fault = none → v &&& 0xFD009800#32 = 0 → s.phase = .completing →
    v.getLsbD 13 = false → v.getLsbD 14 = true →
    exec (.writeCr v) s = .next
      { s with
        cr    := ⟨v.extractLsb' 0 10, v.getLsbD 10, v.extractLsb' 16 8, v.getLsbD 25⟩
        sr    := { s.sr with tc := false }
        hist  := s.hist ++ [.stop]
        phase := .idle }

/-- 40_register_access R105: neither START nor STOP: latch only. -/
def Obligations.CrWriteWithoutTriggerLatchesOnly : Prop :=
  ∀ (v : Word) (s : State), s.fault = none → v &&& 0xFD009800#32 = 0 → (s.phase = .idle ∨ s.phase = .completing) →
    v.getLsbD 13 = false → v.getLsbD 14 = false →
    exec (.writeCr v) s = .next
      { s with cr := ⟨v.extractLsb' 0 10, v.getLsbD 10, v.extractLsb' 16 8, v.getLsbD 25⟩ }

/-- 40_register_access R106: READ_CR returns the latched fields; START, STOP and the must-be-zero bits read 0. The word
read stands in rdata (log 11). -/
def Obligations.ReadCrReturnsLatchedFields : Prop :=
  ∀ s : State, s.fault = none → ∃ r : Word,
    exec .readCr s = .next { s with rdata := r } ∧
    r.toNat = s.cr.autoend.toNat * 2 ^ 25 + s.cr.nbytes.toNat * 2 ^ 16 + s.cr.rdWrn.toNat * 2 ^ 10 + s.cr.sadd.toNat

/-! ## The status and data registers (40_register_access R107 to R112) -/

/-- 40_register_access R107: READ_SR shows the three flags at bits 6, 2 and 1 and a draw elsewhere, and clears none.
The draw is the free value `Config.freeWord` at the count of draws, whatever it is (log 6). -/
def Obligations.ReadSrShowsFlagsAndClearsNone : Prop :=
  ∀ s : State, s.fault = none → ∃ r : Word,
    exec .readSr s = .next { s with rdata := r, draws := s.draws + 1 } ∧
    r.getLsbD 1 = s.sr.txis ∧ r.getLsbD 2 = s.sr.rxne ∧ r.getLsbD 6 = s.sr.tc ∧
    ∀ k, k ≠ 1 → k ≠ 2 → k ≠ 6 → r.getLsbD k = (Config.freeWord s.draws).getLsbD k

/-- 40_register_access R108, R112: a write to SR or RXDR raises F02, whatever its data word. -/
def Obligations.ReadOnlyRegistersRefuseWrites : Prop :=
  ∀ (v : Word) (s : State), s.fault = none →
    exec (.writeSr v) s = .next { s with fault := some .roWrite } ∧
    exec (.writeRxdr v) s = .next { s with fault := some .roWrite }

/-- 40_register_access R109: WRITE_TXDR stores bits 7:0 and clears TXIS; F09 while TXIS = 0. -/
def Obligations.WriteTxdrStoresLowByte : Prop :=
  ∀ (v : Word) (s : State), s.fault = none →
    (s.sr.txis = true → ∃ b : Byte, b.toNat = v.toNat % 2 ^ 8 ∧
      exec (.writeTxdr v) s = .next { s with txdr := b, sr := { s.sr with txis := false } }) ∧
    (s.sr.txis = false → exec (.writeTxdr v) s = .next { s with fault := some .txNotReady })

/-- 40_register_access R110: READ_TXDR returns the last byte written, zero-extended. The word read stands in rdata
(log 11). -/
def Obligations.ReadTxdrReturnsByteZeroExtended : Prop :=
  ∀ s : State, s.fault = none → ∃ r : Word, r.toNat = s.txdr.toNat ∧ exec .readTxdr s = .next { s with rdata := r }

/-- 40_register_access R111: READ_RXDR returns RXDR zero-extended and clears RXNE; F10 while RXNE = 0. The word read
stands in rdata (log 11). -/
def Obligations.ReadRxdrTakesTheByte : Prop :=
  ∀ s : State, s.fault = none →
    (s.sr.rxne = true → ∃ r : Word, r.toNat = s.rxdr.toNat ∧
      exec .readRxdr s = .next { s with rdata := r, sr := { s.sr with rxne := false } }) ∧
    (s.sr.rxne = false → exec .readRxdr s = .next { s with fault := some .rxEmpty })

/-- What each instruction leaves unchanged when it answers a next state: the host's memory, driver and moves and the
configuration always; RXDR always; each other element unless the instruction's own rule writes it (40_register_access
R101 to R112). -/
def Obligations.InstructionFrames : Prop :=
  ∀ (i : Instr) (s t : State), exec i s = .next t →
    t.drv = s.drv ∧ t.moves = s.moves ∧ t.cfg = s.cfg ∧ t.rxdr = s.rxdr ∧
    (∀ k, t.drv.buf.read k = s.drv.buf.read k) ∧
    ((∀ v, i ≠ .writeCr v) → t.phase = s.phase ∧ t.cr = s.cr ∧ t.hist = s.hist ∧ t.sr.tc = s.sr.tc) ∧
    ((∀ v, i ≠ .writeTxdr v) → t.txdr = s.txdr ∧ t.sr.txis = s.sr.txis) ∧
    (i ≠ .readRxdr → t.sr.rxne = s.sr.rxne) ∧
    (i ≠ .readCr → i ≠ .readSr → i ≠ .readTxdr → i ≠ .readRxdr → t.rdata = s.rdata) ∧
    (i ≠ .readSr → t.draws = s.draws)

/-! ## Faults (60_exceptions R211, R212; 10_state R29) -/

/-- 10_state R29: FAULT is none at the start of a run; once it is set, no agent has a further step, not even a reset,
and no instruction runs. -/
def Obligations.FaultIsFinal : Prop :=
  State.reset.fault = none ∧
  ∀ (s : State) (c : FaultCode), s.fault = some c →
    step s = .fault (.halted c) ∧ (∀ i, exec i s = .fault (.halted c)) ∧
    ∀ k, Host.Core.run core (k + 1) s = .fault (.halted c)

/-- 60_exceptions R211: the access that faulted changes FAULT and nothing else, and a step that raises a fault leaves
the block as it was. -/
def Obligations.FaultedAccessChangesNothing : Prop :=
  (∀ (i : Instr) (s t : State), exec i s = .next t → t.fault ≠ none → t = { s with fault := t.fault }) ∧
  ∀ s t : State, step s = .next t → t.fault ≠ none → t.block = s.block

/-- 60_exceptions R222: F12 is unreachable, since only one host exists. -/
def Obligations.NoStepRaisesReentrancy : Prop :=
  ∀ s t : State, step s = .next t → t.fault ≠ some .reentrant

/-! ## The sequencer (41_bus_sequencer) -/

/-- 41_bus_sequencer R132, R133, R134: the slave's answers to the address byte. -/
def Obligations.AddressAnswers : Prop :=
  ∀ (s : State) (ms : List Move), s.fault = none →
    (s.moves = .bus (.addrResp .ack) :: ms → s.phase = .addressing .W →
      step s = .next { s with
        moves := ms, hist := s.hist ++ [.addrAck],
        phase := .transferring .W s.cr.nbytes, sr := { s.sr with txis := true } }) ∧
    (s.moves = .bus (.addrResp .ack) :: ms → s.phase = .addressing .R →
      step s = .next { s with moves := ms, hist := s.hist ++ [.addrAck], phase := .transferring .R s.cr.nbytes }) ∧
    (∀ d, s.moves = .bus (.addrResp .nack) :: ms → s.phase = .addressing d →
      step s = .next { s with
        moves := ms, hist := s.hist ++ [.addrNack, .stop], phase := .idle,
        sr := { s.sr with txis := false } })

/-- 41_bus_sequencer R135, R136, R137, R138: the slave's answers to a written byte. -/
def Obligations.WrittenByteAnswers : Prop :=
  ∀ (s : State) (ms : List Move) (r : Byte), s.fault = none → s.phase = .transferring .W r → s.sr.txis = false →
    (s.moves = .bus (.wrResp .ack) :: ms → 2 ≤ r →
      step s = .next { s with
        moves := ms, hist := s.hist ++ [.wr s.txdr .ack],
        phase := .transferring .W (r - 1), sr := { s.sr with txis := true } }) ∧
    (s.moves = .bus (.wrResp .ack) :: ms → r = 1 → s.cr.autoend = false →
      step s = .next { s with
        moves := ms, hist := s.hist ++ [.wr s.txdr .ack], phase := .completing,
        sr := { s.sr with tc := true } }) ∧
    (s.moves = .bus (.wrResp .ack) :: ms → r = 1 → s.cr.autoend = true →
      step s = .next { s with moves := ms, hist := s.hist ++ [.wr s.txdr .ack, .stop], phase := .idle }) ∧
    (s.moves = .bus (.wrResp .nack) :: ms → 1 ≤ r →
      step s = .next { s with moves := ms, hist := s.hist ++ [.wr s.txdr .nack, .stop], phase := .idle })

/-- 41_bus_sequencer R139, R140, R141: a byte received; the master ACKs all but the last. -/
def Obligations.ReceivedByteSteps : Prop :=
  ∀ (s : State) (ms : List Move) (r b : Byte), s.fault = none → s.phase = .transferring .R r → s.sr.rxne = false →
    s.moves = .bus (.rdByte b) :: ms →
    (2 ≤ r →
      step s = .next { s with
        moves := ms, rxdr := b, hist := s.hist ++ [.rd b .ack],
        phase := .transferring .R (r - 1), sr := { s.sr with rxne := true } }) ∧
    (r = 1 → s.cr.autoend = false →
      step s = .next { s with
        moves := ms, rxdr := b, hist := s.hist ++ [.rd b .nack], phase := .completing,
        sr := { s.sr with rxne := true, tc := true } }) ∧
    (r = 1 → s.cr.autoend = true →
      step s = .next { s with
        moves := ms, rxdr := b, hist := s.hist ++ [.rd b .nack, .stop], phase := .idle,
        sr := { s.sr with rxne := true } })

/-- 41_bus_sequencer R142: an abort goes to Idle without a Stop, clears TXIS and TC and keeps RXNE and RXDR. -/
def Obligations.AbortEndsPhase : Prop :=
  ∀ (s : State) (ms : List Move), s.fault = none → s.phase ≠ .idle → s.moves = .bus .abort :: ms →
    step s = .next { s with
      moves := ms, hist := s.hist ++ [.abort], phase := .idle,
      sr := { s.sr with txis := false, tc := false } }

/-- 41_bus_sequencer R131: in every state of the block that its invariant allows, exactly the answers of the table are
enabled. -/
def Obligations.EnabledAnswersAreTheTable : Prop :=
  ∀ (s : State) (a : Answer), s.block.inv = true →
    ((busStep a s).isSome = true ↔
      (s.phase ≠ .idle ∧ a = .abort) ∨
      ((∃ d, s.phase = .addressing d) ∧ ∃ k, a = .addrResp k) ∨
      ((∃ r, s.phase = .transferring .W r) ∧ s.sr.txis = false ∧ ∃ k, a = .wrResp k) ∨
      ((∃ r, s.phase = .transferring .R r) ∧ s.sr.rxne = false ∧ ∃ b, a = .rdByte b))

/-- An answer that is not enabled is no step of the bus agent: the move passes and nothing else changes. That the move
passes is the model's choice (log 4). -/
def Obligations.DisabledAnswerChangesNothing : Prop :=
  ∀ (s : State) (a : Answer) (ms : List Move), s.fault = none → s.moves = .bus a :: ms → busStep a s = none →
    step s = .next { s with moves := ms }

/-- 41_bus_sequencer R143: the wire address and the address byte under each reading; the worked values. -/
def Obligations.WireAddressUnderEachReading : Prop :=
  (∀ sadd : BitVec 10,
    (wireAddr7 .shifted sadd).toNat = sadd.toNat / 2 % 2 ^ 7 ∧ (wireAddr7 .literal sadd).toNat = sadd.toNat % 2 ^ 7) ∧
  (∀ (rd : AddrReading) (sadd : BitVec 10),
    (addressByte rd sadd .W).toNat = 2 * (wireAddr7 rd sadd).toNat ∧
    (addressByte rd sadd .R).toNat = 2 * (wireAddr7 rd sadd).toNat + 1) ∧
  wireAddr7 .shifted 0x03C = 0x1E ∧ addressByte .shifted 0x03C .W = 0x3C ∧ addressByte .shifted 0x03C .R = 0x3D ∧
  wireAddr7 .literal 0x03C = 0x3C ∧ addressByte .literal 0x03C .W = 0x78 ∧ addressByte .literal 0x03C .R = 0x79

/-! ## Invariants and whole-machine rules -/

/-- 10_state R22, R24, R27 (derived): every step keeps what the phases say of the flags, the counter and the latched
fields. -/
def Obligations.StepKeepsBlockInvariant : Prop :=
  ∀ s t : State, s.block.inv = true → step s = .next t → t.block.inv = true

/-- 41_bus_sequencer R145 (derived): every step keeps HIST bracketed, a transaction being open exactly when PHASE is
not Idle. -/
def Obligations.StepKeepsHistoryBracketed : Prop :=
  ∀ s t : State, s.block.bracketed = true → step s = .next t → t.block.bracketed = true

/-- 41_bus_sequencer R145 in its own words: in a bracketed history, between two Starts stands an event of Stop, Abort,
Reset, and up to the first of those only Restart, address and byte events. -/
def Obligations.NextEndAfterStartIsNoStart : Prop :=
  ∀ (h pre post : List Event) (sadd : BitVec 10) (d : Dir), bracket h ≠ none → h = pre ++ .start sadd d :: post →
    (∀ e ∈ post, e.isStart = false) ∨
    ∃ mid e rest, post = mid ++ e :: rest ∧ e.ends = true ∧ ∀ x ∈ mid, x.isStart = false ∧ x.ends = false

/-- A byte waiting in RXDR is the byte of the last Rd event: every step keeps it so (43_device_protocol R187,
derived). -/
def Obligations.StepKeepsReceivedByteIntact : Prop :=
  ∀ s t : State, s.block.byteIntact = true → step s = .next t → t.block.byteIntact = true

/-- Every step keeps buf in its canonical form (10_state R31; the form is the model's, log 12). -/
def Obligations.StepKeepsBufferCanonical : Prop :=
  ∀ s t : State, s.drv.buf.wf = true → step s = .next t → t.drv.buf.wf = true

/-- The four invariants hold at the start of a run. -/
def Obligations.ResetMeetsInvariants : Prop :=
  State.reset.block.inv = true ∧ State.reset.block.bracketed = true ∧ State.reset.block.byteIntact = true ∧
  State.reset.drv.buf.wf = true

/-- 10_state R28: HIST only grows. -/
def Obligations.HistoryOnlyGrows : Prop :=
  ∀ s t : State, step s = .next t → ∃ es, t.hist = s.hist ++ es

/-- No step changes the configuration (00_scope R8). -/
def Obligations.StepKeepsConfiguration : Prop :=
  ∀ s t : State, step s = .next t → t.cfg = s.cfg

/-- 10_state R24's table, the only-if direction: each flag rises and falls only by the steps the table lists. That those
steps do set and clear it, the statements on the accesses, the answers and the reset say. -/
def Obligations.FlagsChangeOnlyByTheirRules : Prop :=
  ∀ s t : State, step s = .next t →
    (s.sr.txis = false → t.sr.txis = true →
      (s.phase = .addressing .W ∧ s.nextMove = .bus (.addrResp .ack)) ∨
      (∃ r, s.phase = .transferring .W r ∧ 2 ≤ r ∧ s.nextMove = .bus (.wrResp .ack))) ∧
    (s.sr.txis = true → t.sr.txis = false →
      (∃ v, s.hostDoes (.writeTxdr v)) ∨ s.nextMove = .bus (.addrResp .nack) ∨ s.nextMove = .bus .abort ∨
      s.nextMove = .reset) ∧
    (s.sr.rxne = false → t.sr.rxne = true →
      ∃ r b, s.phase = .transferring .R r ∧ s.nextMove = .bus (.rdByte b)) ∧
    (s.sr.rxne = true → t.sr.rxne = false → s.hostDoes .readRxdr ∨ s.nextMove = .reset) ∧
    (s.sr.tc = false → t.sr.tc = true →
      s.cr.autoend = false ∧
      ((s.phase = .transferring .W 1 ∧ s.nextMove = .bus (.wrResp .ack)) ∨
       (s.phase = .transferring .R 1 ∧ ∃ b, s.nextMove = .bus (.rdByte b)))) ∧
    (s.sr.tc = true → t.sr.tc = false →
      (∃ v, s.hostDoes (.writeCr v) ∧ s.phase = .completing ∧ (v.getLsbD 13 = true ∨ v.getLsbD 14 = true)) ∨
      s.nextMove = .bus .abort ∨ s.nextMove = .reset)

/-- A received byte is never overwritten or lost before the host reads it: only READ_RXDR and a reset take it
(41_bus_sequencer R131, 70_reset_and_hazards R246). -/
def Obligations.UnreadByteSurvivesEveryOtherStep : Prop :=
  ∀ s t : State, step s = .next t → s.sr.rxne = true → ¬ s.hostDoes .readRxdr → s.nextMove ≠ .reset →
    t.sr.rxne = true ∧ t.rxdr = s.rxdr

/-- PHASE leaves Addressing and Transferring by bus answers and a reset alone: no host access does it (41_bus_sequencer
R144, 42_bus_primitives R167: a transaction cannot be cancelled short of a reset). -/
def Obligations.HostCannotLeaveBusyPhase : Prop :=
  ∀ s t : State, step s = .next t → s.phase.busy = true → t.phase ≠ s.phase →
    (∃ a, s.nextMove = .bus a) ∨ s.nextMove = .reset

/-! ## The host (30_encoding R79, 42_bus_primitives) -/

/-- A step whose move is the host's runs the decoded instruction of the statement at pc, and then delivers the word read
and moves pc on (30_encoding R79); what the delivery does, HostDeliversTheWordRead says. That a statement
with the mark `en` runs from the driver state a call begins with is the model's mark (log 9, DESIGN CHOICE) on 10_state
R31's start-of-call values. -/
def Obligations.StepRunsDecodedInstruction : Prop :=
  ∀ (s : State) (ms : List Move) (en : Bool) (a : Access) (d : Dest) (i : Instr),
    s.fault = none → s.moves = .host :: ms → s.drv.running = true →
    s.drv.prog[s.drv.pc]? = some ⟨en, .access a d⟩ → decodeAccess a = .ok i → i.wf = true →
    step s = onNext
      (exec i { s with moves := ms, drv := if en then s.drv.startCall else s.drv }) (finishAccess d)

/-- An instruction word of the opcode table, placed where the machine fetches it, is decoded and run by the very next
step. No rule places a word: the placing is the model's (log 8, DESIGN CHOICE), and so is the numbering of a table word's
bits (log 1, DESIGN CHOICE). -/
def Obligations.PlacedWordRunsNext : Prop :=
  ∀ (s : State) (nbits w : Nat) (i : Instr), s.fault = none → decodeTableWord nbits w = some i →
    ∃ d : Driver, step (s.withFetchWord nbits w) = onNext (exec i { s with drv := d }) (finishAccess .none) ∧
      d.prog[d.pc]? = some (accessOp (accessOfTableWord nbits w) .none) ∧ d.pc = s.drv.pc ∧ d.polls = s.drv.polls ∧
      d.inWait = s.drv.inWait ∧ d.buf = s.drv.buf ∧ d.got = s.drv.got ∧ d.diags = s.drv.diags ∧
      ((∀ e, s.drv.result ≠ some (.error e)) → d.result = s.drv.result)

/-- 42_bus_primitives R160: one poll is one SR read; the flag seen ends the wait, else the wait goes on unless the
budget is spent. The numbered draw and inWait are the model's (logs 6, 13). -/
def Obligations.PollStep : Prop :=
  ∀ (s : State) (ms : List Move) (f : Flag) (w : Waiter), s.fault = none → s.moves = .host :: ms →
    s.drv.running = true → s.drv.prog[s.drv.pc]? = some ⟨false, .poll f w⟩ →
    ∃ r : Word, ∃ d : Driver,
      exec .readSr s = .next { s with rdata := r, draws := s.draws + 1 } ∧
      step s = .next { s with moves := ms, rdata := r, draws := s.draws + 1, drv := d } ∧
      (s.sr.flag f = true →
        d = { s.drv with pc := s.drv.pc + 1, polls := if s.drv.inWait then s.drv.polls else 0, inWait := false }) ∧
      (s.sr.flag f = false →
        d.polls = (if s.drv.inWait then s.drv.polls else 0) + 1 ∧ d.pc = s.drv.pc ∧ d.prog = s.drv.prog ∧
        d.buf = s.drv.buf ∧ d.got = s.drv.got ∧
        ((∀ b, s.cfg.pollBudget = some b → d.polls < b) → d.result = s.drv.result ∧ d.inWait = true) ∧
        (∀ b, s.cfg.pollBudget = some b → b ≤ d.polls → d.result = some (.error (timeoutError w f s.drv.got))))

/-- 60_exceptions R215, 43_device_protocol R183: which typed error a wait that timed out ends with: MalformedBurst inside
read_burst once a byte has been stored, else BusStall with the waiter and the flag (a burst's first wait is recv_byte's,
log 18). -/
def Obligations.TimeoutErrorIsTyped : Prop :=
  ∀ (f : Flag) (got count : Nat),
    timeoutError .bare f got = .busStall .bare f ∧ timeoutError .sendByte f got = .busStall .sendByte f ∧
    timeoutError .awaitTransferComplete f got = .busStall .awaitTransferComplete f ∧
    timeoutError .recvByte f got = .busStall .recvByte f ∧
    (1 ≤ got → timeoutError (.burst count) f got = .malformedBurst got count) ∧
    (got = 0 → timeoutError (.burst count) f got = .busStall .recvByte f)

/-- 42_bus_primitives R160: with POLL_BUDGET = some B a wait whose flag stays 0 times out after exactly B failed
reads. -/
def Obligations.PollTimesOutAfterExactlyBudget : Prop :=
  ∀ (s : State) (ms : List Move) (f : Flag) (w : Waiter) (b : Nat), s.fault = none → 1 ≤ b →
    s.cfg.pollBudget = some b → s.moves = List.replicate b .host ++ ms → s.drv.running = true →
    s.drv.inWait = false → s.drv.prog[s.drv.pc]? = some ⟨false, .poll f w⟩ → s.sr.flag f = false →
    (∀ k, k < b → ∃ t, Host.Core.run core k s = .next t ∧ t.drv.running = true ∧ t.drv.pc = s.drv.pc ∧
      t.drv.result = s.drv.result ∧ t.block = s.block) ∧
    ∃ t, Host.Core.run core b s = .next t ∧ t.drv.polls = b ∧ t.block = s.block ∧ t.fault = none ∧ t.moves = ms ∧
      t.drv.result = some (.error (timeoutError w f s.drv.got)) ∧ t.drv.pc = s.drv.pc

/-- 60_exceptions R214: without a budget, a wait whose flag never rises polls forever, whatever bus moves and calls stand
between the polls. Up to any number of steps without a reset, if the flag stays 0, or is 0 and is one the phase can never
set again ((b) to (d): any flag in Idle, after a NACK or an abort, and in Completing; TC in a phase with AUTOEND = 1; TXIS
in a read phase; RXNE in a write phase), then the flag is 0 throughout, the machine goes on, the host is still at the poll,
and every host move was one more failed poll; where the bus agent does not move either ((a)), the block is as it was. A run
is a sequence of states (log 21, DEDUCED); inWait is the model's (log 13). -/
def Obligations.PollWithoutBudgetNeverEnds : Prop :=
  ∀ (run : Nat → State) (n : Nat) (f : Flag) (w : Waiter), IsRun run → (run 0).fault = none →
    (run 0).cfg.pollBudget = none → (run 0).drv.running = true →
    (run 0).drv.prog[(run 0).drv.pc]? = some ⟨false, .poll f w⟩ →
    (∀ k, k < n → (run k).nextMove ≠ .reset) → (run 0).sr.flag f = false →
    ((∀ k, k ≤ n → (run k).sr.flag f = false) ∨
      (run 0).phase = .idle ∨ (run 0).phase = .completing ∨ (f = .tc ∧ (run 0).cr.autoend = true) ∨
      (f = .txis ∧ ((run 0).phase = .addressing .R ∨ ∃ r, (run 0).phase = .transferring .R r)) ∨
      (f = .rxne ∧ ((run 0).phase = .addressing .W ∨ ∃ r, (run 0).phase = .transferring .W r))) →
    ∀ k, k ≤ n →
      let polled := ((List.range k).filter fun j => decide ((run j).nextMove = .host)).length
      (k < n → step (run k) = .next (run (k + 1))) ∧ (run k).sr.flag f = false ∧ (run k).fault = none ∧
      (run k).drv.running = true ∧ (run k).drv.pc = (run 0).drv.pc ∧ (run k).drv.prog = (run 0).drv.prog ∧
      (run k).drv.result = (run 0).drv.result ∧
      ((run 0).drv.inWait = false → 1 ≤ polled → (run k).drv.polls = polled) ∧
      ((∀ j a, j < k → (run j).nextMove ≠ .bus a) → (run k).block = (run 0).block)

/-- 42_bus_primitives R161, R162: start_write and start_read are one CR write of the stated word, or F11 without any
access when an argument does not fit. -/
def Obligations.StartPrimitivesWriteOneCrWord : Prop :=
  (∀ (a n : Nat) (ae : Bool), a ≤ 0x3FF → 1 ≤ n → n ≤ 255 → ∃ v u : Word,
    startWriteOps a n = [⟨false, .access ⟨true, 0x04, 4, v⟩ .none⟩] ∧ v.toNat = a + n * 2 ^ 16 + 2 ^ 13 ∧
    startReadOps a n ae = [⟨false, .access ⟨true, 0x04, 4, u⟩ .none⟩] ∧
    u.toNat = a + 2 ^ 10 + 2 ^ 13 + n * 2 ^ 16 + ae.toNat * 2 ^ 25) ∧
  (∀ (a n : Nat) (ae : Bool), (0x3FF < a ∨ n < 1 ∨ 255 < n) →
    startWriteOps a n = [⟨false, .argFault⟩] ∧ startReadOps a n ae = [⟨false, .argFault⟩]) ∧
  ∀ (s : State) (ms : List Move) (en : Bool), s.fault = none → s.moves = .host :: ms → s.drv.running = true →
    s.drv.prog[s.drv.pc]? = some ⟨en, .argFault⟩ →
    ∃ t, step s = .next t ∧ t.fault = some .argRange ∧ t.block = s.block ∧ t.rdata = s.rdata

/-- 30_encoding R80: the expansions of the transactions with SLAVE_ADDR = 0x03C (the `enter` mark of the first
statement is the model's, log 9). -/
def Obligations.TransactionExpansions : Prop :=
  ∀ (c : Config), c.slaveAddr = 0x03C →
    (∀ reg : Byte, (readRegisterOps c reg).map Op.act =
      [.access ⟨true, 0x04, 4, 0x0001203C⟩ .none, .poll .txis .sendByte,
       .access ⟨true, 0x28, 4, reg.setWidth 32⟩ .none, .poll .tc .awaitTransferComplete,
       .access ⟨true, 0x04, 4, 0x0201243C⟩ .none, .poll .rxne .recvByte, .access ⟨false, 0x24, 4, 0⟩ .value]) ∧
    (∀ reg v : Byte, (writeRegisterOps c reg v).map Op.act =
      [.access ⟨true, 0x04, 4, 0x0002203C⟩ .none, .poll .txis .sendByte,
       .access ⟨true, 0x28, 4, reg.setWidth 32⟩ .none, .poll .txis .sendByte,
       .access ⟨true, 0x28, 4, v.setWidth 32⟩ .none, .poll .tc .awaitTransferComplete,
       .access ⟨true, 0x04, 4, 0x0201243C⟩ .none, .poll .rxne .recvByte, .access ⟨false, 0x24, 4, 0⟩ .probe]) ∧
    (∀ (reg : Byte) (n : Nat), 1 ≤ n → n ≤ 255 → ∃ v : Word, v.toNat = 0x0200243C + n * 2 ^ 16 ∧
      (readBurstOps c reg n).map Op.act =
      ([.access ⟨true, 0x04, 4, 0x0001203C⟩ .none, .poll .txis .sendByte,
        .access ⟨true, 0x28, 4, reg.setWidth 32⟩ .none, .poll .tc .awaitTransferComplete,
        .access ⟨true, 0x04, 4, v⟩ .none] : List Act) ++
      (List.replicate n ([.poll .rxne (.burst n), .access ⟨false, 0x24, 4, 0⟩ (.burst n)] : List Act)).flatten) ∧
    (∀ (reg : Byte) (n : Nat), (n < 1 ∨ 255 < n) → (readBurstOps c reg n).map Op.act = [.argFault])

/-- Where the host has no step: at the program's end, and after a fatal error (30_encoding R79). The names of the two
stops are the model's (log 10). -/
def Obligations.EndedHostStops : Prop :=
  ∀ (s : State) (ms : List Move), s.fault = none → s.moves = .host :: ms →
    (∀ e, s.drv.result = some (.error e) → step s = .fault (.endedWithError e)) ∧
    ((∀ e, s.drv.result ≠ some (.error e)) → s.drv.prog.length ≤ s.drv.pc → step s = .fault .programEnded)

/-- The caller hands the host a program only between calls; a running host is not disturbed (42_bus_primitives R167).
The call move is the model's (log 8). -/
def Obligations.CallsOnlyBetweenCalls : Prop :=
  ∀ (s : State) (ms : List Move) (p : List Op), s.fault = none → s.moves = .call p :: ms →
    (s.drv.running = true → step s = .next { s with moves := ms }) ∧
    (s.drv.running = false → ∃ d, step s = .next { s with moves := ms, drv := d } ∧ d.prog = p ∧ d.pc = 0 ∧
      d.polls = 0 ∧ d.got = 0 ∧ d.buf = [] ∧ d.result = none)

/-! ## Transactions and samples (43_device_protocol) -/

/-- 43_device_protocol R181: read_register against a slave that ACKs throughout, the bus agent answering at once: the
slave's byte is the result, HIST is the stated one, and the block is idle with its flags 0. -/
def Obligations.ReadRegisterReturnsSlaveByte : Prop :=
  ∀ (s : State) (reg v : Byte) (ms : List Move), s.clean = true → s.cfg.slaveAddr = 0x03C →
    s.atStartOf (readRegisterOps s.cfg reg) →
    s.moves = ([.host, .bus (.addrResp .ack), .host, .host, .bus (.wrResp .ack), .host, .host,
      .bus (.addrResp .ack), .bus (.rdByte v), .host, .host] : List Move) ++ ms →
    ∃ t, Host.Core.run core 11 s = .next t ∧ t.drv.result = some (.byte v) ∧ t.drv.pc = 7 ∧ t.fault = none ∧
      t.phase = .idle ∧ t.sr = ⟨false, false, false⟩ ∧ t.txdr = reg ∧ t.rxdr = v ∧ t.moves = ms ∧
      t.hist = [.start 0x03C .W, .addrAck, .wr reg .ack, .restart 0x03C .R, .addrAck, .rd v .nack, .stop]

/-- 43_device_protocol R182, R185: write_register against a slave that ACKs throughout: the probe byte is the result
whatever it is, and an unexpected one is recorded and stops nothing. That the record is one more entry of `diags` is the
model's (log 14, DESIGN CHOICE). -/
def Obligations.WriteRegisterReturnsProbeByte : Prop :=
  ∀ (s : State) (reg v p : Byte) (ms : List Move), s.clean = true → s.cfg.slaveAddr = 0x03C →
    s.atStartOf (writeRegisterOps s.cfg reg v) →
    s.moves = ([.host, .bus (.addrResp .ack), .host, .host, .bus (.wrResp .ack), .host, .host, .bus (.wrResp .ack),
      .host, .host, .bus (.addrResp .ack), .bus (.rdByte p), .host, .host] : List Move) ++ ms →
    ∃ t, Host.Core.run core 14 s = .next t ∧ t.drv.result = some (.byte p) ∧ t.drv.pc = 9 ∧ t.fault = none ∧
      t.phase = .idle ∧ t.sr = ⟨false, false, false⟩ ∧ t.txdr = v ∧ t.moves = ms ∧
      t.hist = [.start 0x03C .W, .addrAck, .wr reg .ack, .wr v .ack, .restart 0x03C .R, .addrAck, .rd p .nack, .stop] ∧
      (s.cfg.expectedCfgReadback = none → t.drv.diags = s.drv.diags) ∧
      (∀ e, s.cfg.expectedCfgReadback = some e → p = e → t.drv.diags = s.drv.diags) ∧
      (∀ e, s.cfg.expectedCfgReadback = some e → p ≠ e → t.drv.diags = s.drv.diags ++ [⟨p, e⟩])

/-- 43_device_protocol R183: read_burst against a slave that ACKs throughout and drives the bytes `bs`, the bus agent
answering at once: the buffer is exactly those bytes in arrival order, every byte but the last is ACKed, and the
controller stops by itself. -/
def Obligations.ReadBurstReturnsBytesInOrder : Prop :=
  ∀ (s : State) (reg : Byte) (bs : List Byte) (ms : List Move), 1 ≤ bs.length → bs.length ≤ 255 →
    s.clean = true → s.cfg.slaveAddr = 0x03C → s.atStartOf (readBurstOps s.cfg reg bs.length) →
    s.moves = ([.host, .bus (.addrResp .ack), .host, .host, .bus (.wrResp .ack), .host, .host,
      .bus (.addrResp .ack)] : List Move) ++
      (bs.map fun b => ([.bus (.rdByte b), .host, .host] : List Move)).flatten ++ ms →
    ∃ t, Host.Core.run core (8 + 3 * bs.length) s = .next t ∧ t.drv.result = some (.bytes bs) ∧
      t.drv.got = bs.length ∧ t.fault = none ∧ t.phase = .idle ∧ t.sr = ⟨false, false, false⟩ ∧ t.moves = ms ∧
      t.hist = ([.start 0x03C .W, .addrAck, .wr reg .ack, .restart 0x03C .R, .addrAck] : List Event) ++
        (bs.dropLast.map fun b => Event.rd b .ack) ++ ([.rd (bs.getLastD 0) .nack, .stop] : List Event)

/-- 70_reset_and_hazards R243, 43_device_protocol R187: with no poll budget, no reset, a live bus agent and a fair host,
from a clean start, each transaction ends, whatever the interleaving: in Idle, its flags 0, no fault and no error, and its
value is exactly the bytes of the Rd events. What a run, a live bus agent and a fair host are is the model's reading of
R243 (log 21, DEDUCED): a run halted by a fault is one too, and the statement says that there is none here. -/
def Obligations.TransactionsEndUnderLiveBus : Prop :=
  ∀ (run : Nat → State) (prog : List Op), IsRun run → (run 0).clean = true → (run 0).atStartOf prog →
    ((∃ reg, prog = readRegisterOps (run 0).cfg reg) ∨ (∃ reg v, prog = writeRegisterOps (run 0).cfg reg v) ∨
      ∃ reg n, 1 ≤ n ∧ n ≤ 255 ∧ prog = readBurstOps (run 0).cfg reg n) →
    Budget none (run 0) → NoReset run → BusLive run → HostFair run →
    ∃ k, (run k).fault = none ∧ (run k).phase = .idle ∧ (run k).sr = ⟨false, false, false⟩ ∧
      (run k).drv.pc = prog.length ∧
      ((∃ b, (run k).drv.result = some (.byte b) ∧ rdBytes (run k).hist = [b]) ∨
        ∃ bs, (run k).drv.result = some (.bytes bs) ∧ rdBytes (run k).hist = bs)

/-- 43_device_protocol R184: decode_sample's values, axis order X, Z, Y, low byte first, signed. -/
def Obligations.DecodeSampleValues : Prop :=
  (∀ b0 b1 b2 b3 b4 b5 : Byte,
    let t := decodeSample b0 b1 b2 b3 b4 b5
    let s := fun (hi lo : Byte) =>
      if hi.toNat * 256 + lo.toNat < 0x8000 then (hi.toNat * 256 + lo.toNat : Int)
      else (hi.toNat * 256 + lo.toNat : Int) - 65536
    s16 t.x = s b1 b0 ∧ s16 t.z = s b3 b2 ∧ s16 t.y = s b5 b4) ∧
  decodeSample 0x01 0x00 0x03 0x00 0x02 0x00 = ⟨1, 2, 3⟩

/-- 43_device_protocol R186: encode_sample's bytes, and each of encode_sample and decode_sample undoes the other. -/
def Obligations.SampleRoundTrip : Prop :=
  (∀ t : SampleTriple, ∃ b0 b1 b2 b3 b4 b5, encodeSample t = [b0, b1, b2, b3, b4, b5] ∧
    decodeSample b0 b1 b2 b3 b4 b5 = t ∧
    b0.toNat = t.x.toNat % 256 ∧ b1.toNat = t.x.toNat / 256 ∧ b2.toNat = t.z.toNat % 256 ∧
    b3.toNat = t.z.toNat / 256 ∧ b4.toNat = t.y.toNat % 256 ∧ b5.toNat = t.y.toNat / 256) ∧
  ∀ b0 b1 b2 b3 b4 b5 : Byte, encodeSample (decodeSample b0 b1 b2 b3 b4 b5) = [b0, b1, b2, b3, b4, b5]

/-- 43_device_protocol R184, 10_state R31 (a read of an unwritten element of buf faults): decode_sample takes the first six
bytes of buf, or stops. That its value stands in `result`, which R31 gives to transactions, is the model's (log 15,
DEDUCED), and so is that the stop names the first unwritten index (log 12, DESIGN CHOICE). -/
def Obligations.DecodeSampleReadsWrittenBuffer : Prop :=
  ∀ (s : State) (ms : List Move), s.fault = none → s.moves = .host :: ms → s.drv.running = true →
    s.drv.prog[s.drv.pc]? = some ⟨false, .decodeSample⟩ →
    (∀ b0 b1 b2 b3 b4 b5, s.drv.buf.read 0 = some b0 → s.drv.buf.read 1 = some b1 → s.drv.buf.read 2 = some b2 →
      s.drv.buf.read 3 = some b3 → s.drv.buf.read 4 = some b4 → s.drv.buf.read 5 = some b5 →
      step s = .next { s with moves := ms, drv := { s.drv with
        pc := s.drv.pc + 1, result := some (.sample (decodeSample b0 b1 b2 b3 b4 b5)) } }) ∧
    (∀ k, k < 6 → s.drv.buf.read k = none → (∀ j, j < k → s.drv.buf.read j ≠ none) →
      step s = .fault (.unwrittenElement k))

/-! ## Reset (70_reset_and_hazards) -/

/-- 70_reset_and_hazards R240, R241: a hardware reset from any state with FAULT = none: the block's and the host's
values, HIST with Reset appended and no Stop. RXDR is not constrained. -/
def Obligations.HardwareResetRestoresValues : Prop :=
  ∀ (s : State) (ms : List Move), s.fault = none → s.moves = .reset :: ms → ∃ t, step s = .next t ∧
    t.phase = .idle ∧ t.cr = ⟨0x000, false, 0x00, false⟩ ∧ t.sr = ⟨false, false, false⟩ ∧ t.txdr = 0x00 ∧
    t.hist = s.hist ++ [.reset] ∧ t.fault = none ∧ t.moves = ms ∧ t.cfg = s.cfg ∧
    t.drv.prog = s.drv.prog ∧ t.drv.pc = 0 ∧ t.drv.polls = 0 ∧ t.drv.got = 0 ∧ t.drv.buf = [] ∧ t.drv.result = none

/-- 70_reset_and_hazards R240, 10_state R22 to R29: the values the spec gives at the start of a run. -/
def Obligations.StartOfRunValues : Prop :=
  State.reset.phase = .idle ∧ State.reset.cr = ⟨0x000, false, 0x00, false⟩ ∧
  State.reset.sr = ⟨false, false, false⟩ ∧ State.reset.txdr = 0x00 ∧ State.reset.hist = [] ∧
  State.reset.fault = none ∧ State.reset.drv.pc = 0 ∧ State.reset.drv.polls = 0 ∧ State.reset.drv.got = 0 ∧
  State.reset.drv.buf = [] ∧ State.reset.drv.result = none ∧ State.reset.clean = true

/-! ## Deliveries and statements (30_encoding R79, R80) -/

/-- 30_encoding R79, 42_bus_primitives R165, 43_device_protocol R181 to R183, R185: what a host step does with the word an
access returned (it stands in rdata, log 11), whose bits 7:0 are the byte `b`. `read SR -> t` keeps the word alone;
`read RXDR -> buf[i]` sets element i, and read_burst's read sets element got and counts it, every other element reading as
before; when the burst's last byte is stored its buffer, in order, is the result; recv_byte's value stands in `result`
(log 15), and so does write_register's probe byte, an unexpected one being recorded (log 14). In each case pc moves on and
nothing else changes. After an access that faulted nothing is delivered and pc stays. That a burst over a buffer with a gap
stops at the first one is the model's (log 12), as is the mark `en` (log 9). -/
def Obligations.HostDeliversTheWordRead : Prop :=
  ∀ (s u : State) (d : Driver) (ms : List Move) (en : Bool) (a : Access) (dest : Dest) (i : Instr),
    s.fault = none → s.moves = .host :: ms → s.drv.running = true →
    s.drv.prog[s.drv.pc]? = some ⟨en, .access a dest⟩ → decodeAccess a = .ok i →
    d = (if en then s.drv.startCall else s.drv) → exec i { s with moves := ms, drv := d } = .next u →
    (u.fault ≠ none → step s = .next u) ∧
    (u.fault = none → ∃ b : Byte, b.toNat = u.rdata.toNat % 2 ^ 8 ∧
      (dest = .none → step s = .next { u with drv := { d with pc := d.pc + 1 } }) ∧
      (∀ k, dest = .buf k → ∃ m, m.read k = some b ∧ (∀ j, j ≠ k → m.read j = d.buf.read j) ∧
        step s = .next { u with drv := { d with pc := d.pc + 1, buf := m } }) ∧
      (∀ n, dest = .burst n → ∃ m, m.read d.got = some b ∧ (∀ j, j ≠ d.got → m.read j = d.buf.read j) ∧
        (d.got + 1 ≠ n → step s = .next { u with drv := { d with pc := d.pc + 1, buf := m, got := d.got + 1 } }) ∧
        (d.got + 1 = n → (∀ j, j < d.got → d.buf.read j ≠ none) →
          ∃ bs, bs.length = n ∧ (∀ j, j < n → bs[j]? = m.read j) ∧
            step s = .next { u with drv := { d with
              pc := d.pc + 1, buf := m, got := n, result := some (.bytes bs) } }) ∧
        (∀ j, d.got + 1 = n → j < d.got → d.buf.read j = none → (∀ l, l < j → d.buf.read l ≠ none) →
          step s = .fault (.unwrittenElement j))) ∧
      (dest = .value → step s = .next { u with drv := { d with pc := d.pc + 1, result := some (.byte b) } }) ∧
      (dest = .probe → step s = .next { u with drv := { d with
        pc := d.pc + 1, result := some (.byte b)
        diags := d.diags ++ (match s.cfg.expectedCfgReadback with
          | none   => []
          | some e => if b = e then [] else [⟨b, e⟩]) } }))

/-- 30_encoding R79, R80, 00_scope R10, 40_register_access R100, 42_bus_primitives R161 to R166: what each statement stands
for. A plain statement is one access or one poll; a program's form is that of its statements in order; repeat N is its body
N times, and forever is its body and then a jump back over it (the jump is the model's, log 9). begin_* is start_* under
another name (StartPrimitivesWriteOneCrWord gives their words, TransactionExpansions the transactions'). A transaction's
first statement and no other carries the mark of a call, which is the model's (log 9), as is the place of recv_byte's and
decode_sample's value (log 15). delay_ms has no access to the block and moves pc on; the step at the end of a forever body
moves pc to the body's first statement. -/
def Obligations.StatementExpansions : Prop :=
  (∀ c : Config,
    (∀ addr n, Stmt.expand c (.memRead addr n) = [⟨false, .access ⟨false, addr - c.i2cBase, n, 0⟩ .none⟩]) ∧
    (∀ addr n v, Stmt.expand c (.memWrite addr n v) = [⟨false, .access ⟨true, addr - c.i2cBase, n, v⟩ .none⟩]) ∧
    (∀ v, Stmt.expand c (.writeCR v) = [⟨false, .access ⟨true, 0x04, 4, v⟩ .none⟩]) ∧
    (∀ b, ∃ v : Word, v.toNat = b.toNat ∧
      Stmt.expand c (.writeTXDR b) = [⟨false, .access ⟨true, 0x28, 4, v⟩ .none⟩] ∧
      Stmt.expand c (.sendByte b) = [⟨false, .poll .txis .sendByte⟩, ⟨false, .access ⟨true, 0x28, 4, v⟩ .none⟩]) ∧
    Stmt.expand c .readSR = [⟨false, .access ⟨false, 0x18, 4, 0⟩ .none⟩] ∧
    (∀ i, Stmt.expand c (.readRXDR i) = [⟨false, .access ⟨false, 0x24, 4, 0⟩ (.buf i)⟩]) ∧
    (∀ f, Stmt.expand c (.poll f) = [⟨false, .poll f .bare⟩]) ∧
    (∀ a n, Stmt.expand c (.startWrite a n) = startWriteOps a n ∧ Stmt.expand c (.beginWrite a n) = startWriteOps a n) ∧
    (∀ a n ae, Stmt.expand c (.startRead a n ae) = startReadOps a n ae ∧
      Stmt.expand c (.beginRead a n ae) = startReadOps a n ae) ∧
    (∀ cr, Stmt.expand c (.beginTransaction cr) = [⟨false, .access ⟨true, 0x04, 4, encodeCR cr⟩ .none⟩]) ∧
    Stmt.expand c .awaitTransferComplete = [⟨false, .poll .tc .awaitTransferComplete⟩] ∧
    Stmt.expand c .recvByte = [⟨false, .poll .rxne .recvByte⟩, ⟨false, .access ⟨false, 0x24, 4, 0⟩ .value⟩] ∧
    (∀ reg, Stmt.expand c (.readRegister reg) = readRegisterOps c reg) ∧
    (∀ reg v, Stmt.expand c (.writeRegister reg v) = writeRegisterOps c reg v) ∧
    (∀ reg n, Stmt.expand c (.readBurst reg n) = readBurstOps c reg n) ∧
    (∀ prog, ((∃ reg, prog = readRegisterOps c reg) ∨ (∃ reg v, prog = writeRegisterOps c reg v) ∨
        ∃ reg n, prog = readBurstOps c reg n) →
      ∃ op ops, prog = op :: ops ∧ op.enter = true ∧ ∀ x ∈ ops, x.enter = false) ∧
    Stmt.expand c .decodeSample = [⟨false, .decodeSample⟩] ∧
    (∀ ms, Stmt.expand c (.delayMs ms) = [⟨false, .delay ms⟩]) ∧
    (∀ body, Stmt.expand c (.repeatN 0 body) = []) ∧
    (∀ n body, Stmt.expand c (.repeatN (n + 1) body) = expand c body ++ Stmt.expand c (.repeatN n body)) ∧
    (∀ body, Stmt.expand c (.forever body) = expand c body ++ [⟨false, .jumpBack (expand c body).length⟩]) ∧
    expand c [] = [] ∧ ∀ st prog, expand c (st :: prog) = Stmt.expand c st ++ expand c prog) ∧
  ∀ (s : State) (ms : List Move), s.fault = none → s.moves = .host :: ms → s.drv.running = true →
    (∀ n, s.drv.prog[s.drv.pc]? = some ⟨false, .delay n⟩ →
      step s = .next { s with moves := ms, drv := { s.drv with pc := s.drv.pc + 1 } }) ∧
    (∀ pre body post, s.drv.prog = pre ++ Stmt.expand s.cfg (.forever body) ++ post →
      s.drv.pc = pre.length + (expand s.cfg body).length →
      step s = .next { s with moves := ms, drv := { s.drv with pc := pre.length } })
end

