-- ==== Sys2Proof/Laws/State.lean ====
section
/-! SUPPORT. One lemma per field per named update of State, so that no proof unfolds a record update. -/

namespace Sys2Proof.Machine

/-! emit -/

@[simp] theorem emit_phase (e : Event) (s : State) : (emit e s).phase = s.phase := rfl
@[simp] theorem emit_cr (e : Event) (s : State) : (emit e s).cr = s.cr := rfl
@[simp] theorem emit_sr (e : Event) (s : State) : (emit e s).sr = s.sr := rfl
@[simp] theorem emit_txdr (e : Event) (s : State) : (emit e s).txdr = s.txdr := rfl
@[simp] theorem emit_rxdr (e : Event) (s : State) : (emit e s).rxdr = s.rxdr := rfl
@[simp] theorem emit_hist (e : Event) (s : State) : (emit e s).hist = s.hist ++ [e] := rfl
@[simp] theorem emit_fault (e : Event) (s : State) : (emit e s).fault = s.fault := rfl
@[simp] theorem emit_rdata (e : Event) (s : State) : (emit e s).rdata = s.rdata := rfl
@[simp] theorem emit_drv (e : Event) (s : State) : (emit e s).drv = s.drv := rfl
@[simp] theorem emit_moves (e : Event) (s : State) : (emit e s).moves = s.moves := rfl
@[simp] theorem emit_draws (e : Event) (s : State) : (emit e s).draws = s.draws := rfl
@[simp] theorem emit_cfg (e : Event) (s : State) : (emit e s).cfg = s.cfg := rfl

/-! setPhase -/

@[simp] theorem setPhase_phase (p : Phase) (s : State) : (setPhase p s).phase = p := rfl
@[simp] theorem setPhase_cr (p : Phase) (s : State) : (setPhase p s).cr = s.cr := rfl
@[simp] theorem setPhase_sr (p : Phase) (s : State) : (setPhase p s).sr = s.sr := rfl
@[simp] theorem setPhase_txdr (p : Phase) (s : State) : (setPhase p s).txdr = s.txdr := rfl
@[simp] theorem setPhase_rxdr (p : Phase) (s : State) : (setPhase p s).rxdr = s.rxdr := rfl
@[simp] theorem setPhase_hist (p : Phase) (s : State) : (setPhase p s).hist = s.hist := rfl
@[simp] theorem setPhase_fault (p : Phase) (s : State) : (setPhase p s).fault = s.fault := rfl
@[simp] theorem setPhase_rdata (p : Phase) (s : State) : (setPhase p s).rdata = s.rdata := rfl
@[simp] theorem setPhase_drv (p : Phase) (s : State) : (setPhase p s).drv = s.drv := rfl
@[simp] theorem setPhase_moves (p : Phase) (s : State) : (setPhase p s).moves = s.moves := rfl
@[simp] theorem setPhase_draws (p : Phase) (s : State) : (setPhase p s).draws = s.draws := rfl
@[simp] theorem setPhase_cfg (p : Phase) (s : State) : (setPhase p s).cfg = s.cfg := rfl

/-! latchCr -/

@[simp] theorem latchCr_phase (c : CrFields) (s : State) : (latchCr c s).phase = s.phase := rfl
@[simp] theorem latchCr_cr (c : CrFields) (s : State) : (latchCr c s).cr = { sadd := c.sadd, rdWrn := c.rdWrn, nbytes := c.nbytes, autoend := c.autoend } := rfl
@[simp] theorem latchCr_sr (c : CrFields) (s : State) : (latchCr c s).sr = s.sr := rfl
@[simp] theorem latchCr_txdr (c : CrFields) (s : State) : (latchCr c s).txdr = s.txdr := rfl
@[simp] theorem latchCr_rxdr (c : CrFields) (s : State) : (latchCr c s).rxdr = s.rxdr := rfl
@[simp] theorem latchCr_hist (c : CrFields) (s : State) : (latchCr c s).hist = s.hist := rfl
@[simp] theorem latchCr_fault (c : CrFields) (s : State) : (latchCr c s).fault = s.fault := rfl
@[simp] theorem latchCr_rdata (c : CrFields) (s : State) : (latchCr c s).rdata = s.rdata := rfl
@[simp] theorem latchCr_drv (c : CrFields) (s : State) : (latchCr c s).drv = s.drv := rfl
@[simp] theorem latchCr_moves (c : CrFields) (s : State) : (latchCr c s).moves = s.moves := rfl
@[simp] theorem latchCr_draws (c : CrFields) (s : State) : (latchCr c s).draws = s.draws := rfl
@[simp] theorem latchCr_cfg (c : CrFields) (s : State) : (latchCr c s).cfg = s.cfg := rfl

/-! setTxis -/

@[simp] theorem setTxis_phase (b : Bool) (s : State) : (setTxis b s).phase = s.phase := rfl
@[simp] theorem setTxis_cr (b : Bool) (s : State) : (setTxis b s).cr = s.cr := rfl
@[simp] theorem setTxis_sr (b : Bool) (s : State) : (setTxis b s).sr = { s.sr with txis := b } := rfl
@[simp] theorem setTxis_txdr (b : Bool) (s : State) : (setTxis b s).txdr = s.txdr := rfl
@[simp] theorem setTxis_rxdr (b : Bool) (s : State) : (setTxis b s).rxdr = s.rxdr := rfl
@[simp] theorem setTxis_hist (b : Bool) (s : State) : (setTxis b s).hist = s.hist := rfl
@[simp] theorem setTxis_fault (b : Bool) (s : State) : (setTxis b s).fault = s.fault := rfl
@[simp] theorem setTxis_rdata (b : Bool) (s : State) : (setTxis b s).rdata = s.rdata := rfl
@[simp] theorem setTxis_drv (b : Bool) (s : State) : (setTxis b s).drv = s.drv := rfl
@[simp] theorem setTxis_moves (b : Bool) (s : State) : (setTxis b s).moves = s.moves := rfl
@[simp] theorem setTxis_draws (b : Bool) (s : State) : (setTxis b s).draws = s.draws := rfl
@[simp] theorem setTxis_cfg (b : Bool) (s : State) : (setTxis b s).cfg = s.cfg := rfl

/-! setRxne -/

@[simp] theorem setRxne_phase (b : Bool) (s : State) : (setRxne b s).phase = s.phase := rfl
@[simp] theorem setRxne_cr (b : Bool) (s : State) : (setRxne b s).cr = s.cr := rfl
@[simp] theorem setRxne_sr (b : Bool) (s : State) : (setRxne b s).sr = { s.sr with rxne := b } := rfl
@[simp] theorem setRxne_txdr (b : Bool) (s : State) : (setRxne b s).txdr = s.txdr := rfl
@[simp] theorem setRxne_rxdr (b : Bool) (s : State) : (setRxne b s).rxdr = s.rxdr := rfl
@[simp] theorem setRxne_hist (b : Bool) (s : State) : (setRxne b s).hist = s.hist := rfl
@[simp] theorem setRxne_fault (b : Bool) (s : State) : (setRxne b s).fault = s.fault := rfl
@[simp] theorem setRxne_rdata (b : Bool) (s : State) : (setRxne b s).rdata = s.rdata := rfl
@[simp] theorem setRxne_drv (b : Bool) (s : State) : (setRxne b s).drv = s.drv := rfl
@[simp] theorem setRxne_moves (b : Bool) (s : State) : (setRxne b s).moves = s.moves := rfl
@[simp] theorem setRxne_draws (b : Bool) (s : State) : (setRxne b s).draws = s.draws := rfl
@[simp] theorem setRxne_cfg (b : Bool) (s : State) : (setRxne b s).cfg = s.cfg := rfl

/-! setTc -/

@[simp] theorem setTc_phase (b : Bool) (s : State) : (setTc b s).phase = s.phase := rfl
@[simp] theorem setTc_cr (b : Bool) (s : State) : (setTc b s).cr = s.cr := rfl
@[simp] theorem setTc_sr (b : Bool) (s : State) : (setTc b s).sr = { s.sr with tc := b } := rfl
@[simp] theorem setTc_txdr (b : Bool) (s : State) : (setTc b s).txdr = s.txdr := rfl
@[simp] theorem setTc_rxdr (b : Bool) (s : State) : (setTc b s).rxdr = s.rxdr := rfl
@[simp] theorem setTc_hist (b : Bool) (s : State) : (setTc b s).hist = s.hist := rfl
@[simp] theorem setTc_fault (b : Bool) (s : State) : (setTc b s).fault = s.fault := rfl
@[simp] theorem setTc_rdata (b : Bool) (s : State) : (setTc b s).rdata = s.rdata := rfl
@[simp] theorem setTc_drv (b : Bool) (s : State) : (setTc b s).drv = s.drv := rfl
@[simp] theorem setTc_moves (b : Bool) (s : State) : (setTc b s).moves = s.moves := rfl
@[simp] theorem setTc_draws (b : Bool) (s : State) : (setTc b s).draws = s.draws := rfl
@[simp] theorem setTc_cfg (b : Bool) (s : State) : (setTc b s).cfg = s.cfg := rfl

/-! returnWord -/

@[simp] theorem returnWord_phase (r : Word) (s : State) : (returnWord r s).phase = s.phase := rfl
@[simp] theorem returnWord_cr (r : Word) (s : State) : (returnWord r s).cr = s.cr := rfl
@[simp] theorem returnWord_sr (r : Word) (s : State) : (returnWord r s).sr = s.sr := rfl
@[simp] theorem returnWord_txdr (r : Word) (s : State) : (returnWord r s).txdr = s.txdr := rfl
@[simp] theorem returnWord_rxdr (r : Word) (s : State) : (returnWord r s).rxdr = s.rxdr := rfl
@[simp] theorem returnWord_hist (r : Word) (s : State) : (returnWord r s).hist = s.hist := rfl
@[simp] theorem returnWord_fault (r : Word) (s : State) : (returnWord r s).fault = s.fault := rfl
@[simp] theorem returnWord_rdata (r : Word) (s : State) : (returnWord r s).rdata = r := rfl
@[simp] theorem returnWord_drv (r : Word) (s : State) : (returnWord r s).drv = s.drv := rfl
@[simp] theorem returnWord_moves (r : Word) (s : State) : (returnWord r s).moves = s.moves := rfl
@[simp] theorem returnWord_draws (r : Word) (s : State) : (returnWord r s).draws = s.draws := rfl
@[simp] theorem returnWord_cfg (r : Word) (s : State) : (returnWord r s).cfg = s.cfg := rfl

/-! countDraw -/

@[simp] theorem countDraw_phase (s : State) : (countDraw s).phase = s.phase := rfl
@[simp] theorem countDraw_cr (s : State) : (countDraw s).cr = s.cr := rfl
@[simp] theorem countDraw_sr (s : State) : (countDraw s).sr = s.sr := rfl
@[simp] theorem countDraw_txdr (s : State) : (countDraw s).txdr = s.txdr := rfl
@[simp] theorem countDraw_rxdr (s : State) : (countDraw s).rxdr = s.rxdr := rfl
@[simp] theorem countDraw_hist (s : State) : (countDraw s).hist = s.hist := rfl
@[simp] theorem countDraw_fault (s : State) : (countDraw s).fault = s.fault := rfl
@[simp] theorem countDraw_rdata (s : State) : (countDraw s).rdata = s.rdata := rfl
@[simp] theorem countDraw_drv (s : State) : (countDraw s).drv = s.drv := rfl
@[simp] theorem countDraw_moves (s : State) : (countDraw s).moves = s.moves := rfl
@[simp] theorem countDraw_draws (s : State) : (countDraw s).draws = s.draws + 1 := rfl
@[simp] theorem countDraw_cfg (s : State) : (countDraw s).cfg = s.cfg := rfl

/-! onDriver -/

@[simp] theorem onDriver_phase (f : Driver → Driver) (s : State) : (onDriver f s).phase = s.phase := rfl
@[simp] theorem onDriver_cr (f : Driver → Driver) (s : State) : (onDriver f s).cr = s.cr := rfl
@[simp] theorem onDriver_sr (f : Driver → Driver) (s : State) : (onDriver f s).sr = s.sr := rfl
@[simp] theorem onDriver_txdr (f : Driver → Driver) (s : State) : (onDriver f s).txdr = s.txdr := rfl
@[simp] theorem onDriver_rxdr (f : Driver → Driver) (s : State) : (onDriver f s).rxdr = s.rxdr := rfl
@[simp] theorem onDriver_hist (f : Driver → Driver) (s : State) : (onDriver f s).hist = s.hist := rfl
@[simp] theorem onDriver_fault (f : Driver → Driver) (s : State) : (onDriver f s).fault = s.fault := rfl
@[simp] theorem onDriver_rdata (f : Driver → Driver) (s : State) : (onDriver f s).rdata = s.rdata := rfl
@[simp] theorem onDriver_drv (f : Driver → Driver) (s : State) : (onDriver f s).drv = f s.drv := rfl
@[simp] theorem onDriver_moves (f : Driver → Driver) (s : State) : (onDriver f s).moves = s.moves := rfl
@[simp] theorem onDriver_draws (f : Driver → Driver) (s : State) : (onDriver f s).draws = s.draws := rfl
@[simp] theorem onDriver_cfg (f : Driver → Driver) (s : State) : (onDriver f s).cfg = s.cfg := rfl

/-! Driver.advance -/

@[simp] theorem Driver.advance_prog (d : Driver) : d.advance.prog = d.prog := rfl
@[simp] theorem Driver.advance_pc (d : Driver) : d.advance.pc = d.pc + 1 := rfl
@[simp] theorem Driver.advance_polls (d : Driver) : d.advance.polls = d.polls := rfl
@[simp] theorem Driver.advance_inWait (d : Driver) : d.advance.inWait = d.inWait := rfl
@[simp] theorem Driver.advance_buf (d : Driver) : d.advance.buf = d.buf := rfl
@[simp] theorem Driver.advance_got (d : Driver) : d.advance.got = d.got := rfl
@[simp] theorem Driver.advance_result (d : Driver) : d.advance.result = d.result := rfl
@[simp] theorem Driver.advance_diags (d : Driver) : d.advance.diags = d.diags := rfl

/-! Driver.startCall -/

@[simp] theorem Driver.startCall_prog (d : Driver) : d.startCall.prog = d.prog := rfl
@[simp] theorem Driver.startCall_pc (d : Driver) : d.startCall.pc = d.pc := rfl
@[simp] theorem Driver.startCall_polls (d : Driver) : d.startCall.polls = 0 := rfl
@[simp] theorem Driver.startCall_inWait (d : Driver) : d.startCall.inWait = false := rfl
@[simp] theorem Driver.startCall_buf (d : Driver) : d.startCall.buf = [] := rfl
@[simp] theorem Driver.startCall_got (d : Driver) : d.startCall.got = 0 := rfl
@[simp] theorem Driver.startCall_result (d : Driver) : d.startCall.result = none := rfl
@[simp] theorem Driver.startCall_diags (d : Driver) : d.startCall.diags = d.diags := rfl

/-! Driver.restart -/

@[simp] theorem Driver.restart_prog (d : Driver) : d.restart.prog = d.prog := rfl
@[simp] theorem Driver.restart_pc (d : Driver) : d.restart.pc = 0 := rfl
@[simp] theorem Driver.restart_polls (d : Driver) : d.restart.polls = 0 := rfl
@[simp] theorem Driver.restart_inWait (d : Driver) : d.restart.inWait = false := rfl
@[simp] theorem Driver.restart_buf (d : Driver) : d.restart.buf = [] := rfl
@[simp] theorem Driver.restart_got (d : Driver) : d.restart.got = 0 := rfl
@[simp] theorem Driver.restart_result (d : Driver) : d.restart.result = none := rfl
@[simp] theorem Driver.restart_diags (d : Driver) : d.restart.diags = d.diags := rfl

/-! Driver.return -/

@[simp] theorem Driver.return_prog (r : Result) (d : Driver) : (d.return r).prog = d.prog := rfl
@[simp] theorem Driver.return_pc (r : Result) (d : Driver) : (d.return r).pc = d.pc := rfl
@[simp] theorem Driver.return_polls (r : Result) (d : Driver) : (d.return r).polls = d.polls := rfl
@[simp] theorem Driver.return_inWait (r : Result) (d : Driver) : (d.return r).inWait = d.inWait := rfl
@[simp] theorem Driver.return_buf (r : Result) (d : Driver) : (d.return r).buf = d.buf := rfl
@[simp] theorem Driver.return_got (r : Result) (d : Driver) : (d.return r).got = d.got := rfl
@[simp] theorem Driver.return_result (r : Result) (d : Driver) : (d.return r).result = some r := rfl
@[simp] theorem Driver.return_diags (r : Result) (d : Driver) : (d.return r).diags = d.diags := rfl

end Sys2Proof.Machine
end

