-- ==== Sys2Proof/Laws/Ops.lean ====
section
/-! SUPPORT. What each shared operation can do, said once: outcomes, moves, and host memory. -/

namespace Sys2Proof.Machine

/-! Outcomes. -/

@[simp] theorem raise_eq (c : FaultCode) (s : State) : raise c s = .next { s with fault := some c } := rfl

@[simp] theorem whileLive_live {s : State} {k : StepOutcome} (h : s.fault = none) : whileLive s k = k := by
  simp [whileLive, h]

@[simp] theorem whileLive_halted {s : State} {k : StepOutcome} {c : FaultCode} (h : s.fault = some c) :
    whileLive s k = .fault (.halted c) := by
  simp [whileLive, h]

/-- What is done while live was done with FAULT = none. -/
theorem whileLive_next {s t : State} {k : StepOutcome} (h : whileLive s k = .next t) : s.fault = none ∧ k = .next t := by
  unfold whileLive at h
  split at h
  · exact ⟨‹_›, h⟩
  · cases h

/-- Going on from an outcome that answers next: either no fault was raised and the rest answers, or the outcome
raised a fault and is the answer. -/
theorem onNext_next {o : StepOutcome} {k : State → StepOutcome} {t : State} (h : onNext o k = .next t) :
    ∃ u, o = .next u ∧ ((u.fault = none ∧ k u = .next t) ∨ (u.fault ≠ none ∧ t = u)) := by
  cases o with
  | next u =>
    refine ⟨u, rfl, ?_⟩
    by_cases hf : u.fault = none
    · exact .inl ⟨hf, by simpa [onNext, hf] using h⟩
    · refine .inr ⟨hf, ?_⟩
      simp only [onNext, hf, if_false] at h
      cases h; rfl
  | fault r => simp [onNext] at h
  | refused r => simp [onNext] at h

@[simp] theorem onNext_live {u : State} {k : State → StepOutcome} (h : u.fault = none) :
    onNext (.next u) k = k u := by
  simp [onNext, h]

theorem onNext_fault {u : State} {k : State → StepOutcome} {c : FaultCode} (h : u.fault = some c) :
    onNext (.next u) k = .next u := by
  simp [onNext, h]

/-! The next move. -/

theorem takeMove_cons {s : State} {m : Move} {ms : List Move} (h : s.moves = m :: ms) :
    takeMove s = (m, { s with moves := ms }) := by
  simp [takeMove, h]

/-- Taking a move changes nothing but the moves and the count of draws. -/
theorem takeMove_state (s : State) : ∃ ms n, (takeMove s).2 = { s with moves := ms, draws := n } := by
  unfold takeMove
  split
  · exact ⟨_, _, rfl⟩
  · exact ⟨s.moves, s.draws + 1, rfl⟩

/-! Host memory. -/

theorem Memory.read_write_same (m : Memory) (a : Nat) (v : Byte) : (m.write a v).read a = some v := by
  induction m with
  | nil => simp [Memory.write, Memory.read]
  | cons c r ih =>
    obtain ⟨k, b⟩ := c
    simp only [Memory.write]
    split
    · simp [Memory.read]
    · split
      · simp [Memory.read]
      · simp_all [Memory.read]

theorem Memory.read_write_other (m : Memory) {a x : Nat} (v : Byte) (h : x ≠ a) :
    (m.write a v).read x = m.read x := by
  induction m with
  | nil => simp [Memory.write, Memory.read, h]
  | cons c r ih =>
    obtain ⟨k, b⟩ := c
    simp only [Memory.write]
    split
    · simp [Memory.read, h]
    · split
      · subst_vars
        simp [Memory.read, h]
      · simp [Memory.read, ih]

/-- A memory in canonical form is one whose rest is, with every later address above the first. -/
theorem Memory.wf_cons (k : Nat) (b : Byte) (m : Memory) :
    Memory.wf ((k, b) :: m) = true ↔ Memory.wf m = true ∧ ∀ c ∈ m.head?, k < c.1 := by
  cases m with
  | nil => simp [Memory.wf]
  | cons c r => simp [Memory.wf, and_comm]

/-- Where a write puts its first address. -/
theorem Memory.head_write (m : Memory) (a : Nat) (v : Byte) {k : Nat} (hk : k < a) (h : ∀ c ∈ m.head?, k < c.1) :
    ∀ c ∈ (m.write a v).head?, k < c.1 := by
  cases m with
  | nil => simpa [Memory.write] using hk
  | cons c r =>
    obtain ⟨j, b⟩ := c
    simp only [Memory.write]
    split
    · simpa using hk
    · split
      · simpa using hk
      · simpa using h

/-- A write keeps the canonical form. -/
theorem Memory.wf_write {m : Memory} (a : Nat) (v : Byte) (h : m.wf = true) : (m.write a v).wf = true := by
  induction m with
  | nil => simp [Memory.write, Memory.wf]
  | cons c r ih =>
    obtain ⟨k, b⟩ := c
    obtain ⟨hr, hk⟩ := (Memory.wf_cons k b r).1 h
    simp only [Memory.write]
    split
    · exact (Memory.wf_cons a v _).2 ⟨h, by simpa using ‹a < k›⟩
    · split
      · subst_vars
        exact (Memory.wf_cons _ v r).2 ⟨hr, hk⟩
      · exact (Memory.wf_cons k b _).2 ⟨ih hr, Memory.head_write r a v (by omega) hk⟩

/-- The first elements of a buffer whose elements are those of a list. -/
theorem Memory.readRange_ok {m : Memory} {bs : List Byte} {n : Nat} (h : ∀ k, k < n → m.read k = bs[k]?)
    (hl : n ≤ bs.length) : m.readRange n = .ok (bs.take n) := by
  induction n with
  | zero => rfl
  | succ n ih =>
    simp only [Memory.readRange, ih (fun k hk => h k (by omega)) (by omega), h n (by omega)]
    rw [List.getElem?_eq_getElem (by omega)]
    simp

/-- The first elements of a buffer are there when each of them is written. -/
theorem Memory.readRange_written {m : Memory} {n : Nat} (h : ∀ j, j < n → m.read j ≠ none) :
    ∃ bs, m.readRange n = .ok bs ∧ bs.length = n ∧ ∀ j, j < n → bs[j]? = m.read j := by
  induction n with
  | zero => exact ⟨[], rfl, rfl, fun j hj => by omega⟩
  | succ n ih =>
    obtain ⟨bs, h1, h2, h3⟩ := ih (fun j hj => h j (by omega))
    obtain ⟨b, hb⟩ := Option.ne_none_iff_exists'.1 (h n (by omega))
    refine ⟨bs ++ [b], by simp [Memory.readRange, h1, hb], by simp [h2], fun j hj => ?_⟩
    by_cases hj' : j < n
    · rw [List.getElem?_append_left (by omega), h3 j hj']
    · obtain rfl : j = n := by omega
      rw [List.getElem?_append_right (by omega), h2, Nat.sub_self, hb]
      rfl

/-- A gap among the first elements of a buffer is found at its first index. -/
theorem Memory.readRange_gap {m : Memory} {n j : Nat} (hj : j < n) (h : m.read j = none)
    (hl : ∀ l, l < j → m.read l ≠ none) : m.readRange n = .error j := by
  induction n with
  | zero => omega
  | succ n ih =>
    simp only [Memory.readRange]
    by_cases hjn : j < n
    · rw [ih hjn]
    · obtain rfl : j = n := by omega
      obtain ⟨bs, hb, -⟩ := Memory.readRange_written hl
      rw [hb, h]

@[simp] theorem Memory.wf_nil : Memory.wf [] = true := rfl

end Sys2Proof.Machine
end

