-- ==== Sys2Proof/Laws/Access.lean ====
section
/-! SUPPORT. One lemma per instruction: everything its meaning can do when it answers a next state. -/

namespace Sys2Proof.Machine

/-! The pieces of a CR write. -/

@[simp] theorem latchCr_crFault (c : CrFields) (v : Word) (s : State) : crFault v (latchCr c s) = crFault v s := rfl

/-- A CR write that passes its checks is made in Idle or in Completing. -/
theorem crFault_none_phase {v : Word} {s : State} (h : crFault v s = none) :
    s.phase = .idle ∨ s.phase = .completing := by
  unfold crFault at h
  simp only at h
  split at h
  · cases h
  · split at h
    · cases h
    · rename_i hb
      cases hp : s.phase <;> simp_all [Phase.busy]

/-- A CR write with START that passes its checks has NBYTES ≥ 1 and no unread byte (F06, F07). -/
theorem crFault_none_start {v : Word} {s : State} (h : crFault v s = none) (hs : (decodeCR v).start = true) :
    (decodeCR v).nbytes ≠ 0 ∧ s.sr.rxne = false ∧ (decodeCR v).stop = false := by
  unfold crFault at h
  simp only [hs, Bool.true_and] at h
  split at h
  · cases h
  · split at h
    · cases h
    · split at h
      · cases h
      · split at h
        · cases h
        · split at h
          · cases h
          · split at h
            · cases h
            · simp_all

/-- When the checks of a CR write pass: no must-be-zero bit, no phase in progress, not START and STOP together, STOP
only in Completing, START only with NBYTES ≥ 1 and no unread byte (40_register_access R101). -/
theorem crFault_none_of {v : Word} {s : State} (hm : crMbz v = 0) (hb : s.phase.busy = false)
    (hx : ¬ ((decodeCR v).start = true ∧ (decodeCR v).stop = true))
    (hp : (decodeCR v).stop = true → s.phase = .completing)
    (hn : (decodeCR v).start = true → (decodeCR v).nbytes ≠ 0 ∧ s.sr.rxne = false) : crFault v s = none := by
  simp only [crFault, hm, hb]
  cases h1 : (decodeCR v).start <;> cases h2 : (decodeCR v).stop <;> simp_all

/-- An accepted CR write: exactly one of R102 to R105. -/
theorem crAct_cases (c : CrFields) (s : State) (hp : s.phase = .idle ∨ s.phase = .completing) :
    (c.start = true ∧ s.phase = .idle ∧ crAct c s = startCondition c s) ∨
    (c.start = true ∧ s.phase = .completing ∧ crAct c s = restartCondition c s) ∨
    (c.start = false ∧ c.stop = true ∧ s.phase = .completing ∧ crAct c s = stopCondition s) ∨
    ((c.start = false ∧ (c.stop = false ∨ s.phase = .idle)) ∧ crAct c s = s) := by
  unfold crAct
  rcases hp with hp | hp <;> simp only [hp] <;> cases hs : c.start <;> cases ht : c.stop <;> simp

/-! Each meaning. -/

theorem execWriteCr_next {v : Word} {s t : State} (h : execWriteCr v s = .next t) :
    s.fault = none ∧
    ((∃ f, crFault v s = some f ∧ t = { s with fault := some f }) ∨
     (crFault v s = none ∧ t = crAct (decodeCR v) (latchCr (decodeCR v) s))) := by
  obtain ⟨hf, h⟩ := whileLive_next h
  refine ⟨hf, ?_⟩
  split at h
  · next f hc => cases h; exact .inl ⟨f, hc, rfl⟩
  · next hc => cases h; exact .inr ⟨hc, rfl⟩

/-- A live CR write that passes its checks is its latch and its action. -/
theorem execWriteCr_accepted {v : Word} {s : State} (hf : s.fault = none) (h : crFault v s = none) :
    execWriteCr v s = .next (crAct (decodeCR v) (latchCr (decodeCR v) s)) := by
  simp [execWriteCr, hf, h]

/-- A live CR write that fails a check raises that check's fault. -/
theorem execWriteCr_refused {v : Word} {s : State} {f : FaultCode} (hf : s.fault = none) (h : crFault v s = some f) :
    execWriteCr v s = .next { s with fault := some f } := by
  simp [execWriteCr, hf, h]

theorem execReadCr_next {s t : State} (h : execReadCr s = .next t) :
    s.fault = none ∧ t = { s with rdata := crWord s.cr } := by
  obtain ⟨hf, h⟩ := whileLive_next h
  cases h; exact ⟨hf, rfl⟩

theorem execReadSr_next {s t : State} (h : execReadSr s = .next t) :
    s.fault = none ∧ t = { s with rdata := srWord (Config.freeWord s.draws) s.sr, draws := s.draws + 1 } := by
  obtain ⟨hf, h⟩ := whileLive_next h
  cases h; exact ⟨hf, rfl⟩

theorem execWriteSr_next {v : Word} {s t : State} (h : execWriteSr v s = .next t) :
    s.fault = none ∧ t = { s with fault := some .roWrite } := by
  obtain ⟨hf, h⟩ := whileLive_next h
  cases h; exact ⟨hf, rfl⟩

theorem execWriteTxdr_next {v : Word} {s t : State} (h : execWriteTxdr v s = .next t) :
    s.fault = none ∧
    ((s.sr.txis = true ∧ t = { s with txdr := byteOf v, sr := { s.sr with txis := false } }) ∨
     (s.sr.txis = false ∧ t = { s with fault := some .txNotReady })) := by
  obtain ⟨hf, h⟩ := whileLive_next h
  refine ⟨hf, ?_⟩
  split at h
  · cases h; exact .inl ⟨‹_›, rfl⟩
  · cases h; exact .inr ⟨Bool.eq_false_iff.2 ‹_›, rfl⟩

theorem execReadTxdr_next {s t : State} (h : execReadTxdr s = .next t) :
    s.fault = none ∧ t = { s with rdata := wordOf s.txdr } := by
  obtain ⟨hf, h⟩ := whileLive_next h
  cases h; exact ⟨hf, rfl⟩

theorem execReadRxdr_next {s t : State} (h : execReadRxdr s = .next t) :
    s.fault = none ∧
    ((s.sr.rxne = true ∧ t = { s with rdata := wordOf s.rxdr, sr := { s.sr with rxne := false } }) ∨
     (s.sr.rxne = false ∧ t = { s with fault := some .rxEmpty })) := by
  obtain ⟨hf, h⟩ := whileLive_next h
  refine ⟨hf, ?_⟩
  split at h
  · cases h; exact .inl ⟨‹_›, rfl⟩
  · cases h; exact .inr ⟨Bool.eq_false_iff.2 ‹_›, rfl⟩

theorem execWriteRxdr_next {v : Word} {s t : State} (h : execWriteRxdr v s = .next t) :
    s.fault = none ∧ t = { s with fault := some .roWrite } := by
  obtain ⟨hf, h⟩ := whileLive_next h
  cases h; exact ⟨hf, rfl⟩

/-- No instruction answers a next state once FAULT is set (60_exceptions R211). -/
theorem exec_live {i : Instr} {s t : State} (h : exec i s = .next t) : s.fault = none := by
  cases i with
  | writeCr v => exact (execWriteCr_next h).1
  | readCr => exact (execReadCr_next h).1
  | readSr => exact (execReadSr_next h).1
  | writeSr v => exact (execWriteSr_next (v := v) h).1
  | writeTxdr v => exact (execWriteTxdr_next h).1
  | readTxdr => exact (execReadTxdr_next h).1
  | readRxdr => exact (execReadRxdr_next h).1
  | writeRxdr v => exact (execWriteRxdr_next (v := v) h).1

/-- While FAULT = none every instruction answers a next state. -/
theorem exec_answers (i : Instr) {s : State} (h : s.fault = none) : ∃ t, exec i s = .next t := by
  cases i <;> simp only [exec, execWriteCr, execReadCr, execReadSr, execWriteSr, execWriteTxdr, execReadTxdr,
    execReadRxdr, execWriteRxdr, whileLive_live h, raise_eq]
  case writeCr v => split <;> exact ⟨_, rfl⟩
  case writeTxdr v => split <;> exact ⟨_, rfl⟩
  case readRxdr => split <;> exact ⟨_, rfl⟩
  all_goals exact ⟨_, rfl⟩

/-- The fields outside the block, FAULT, the read word and the draws, after a conditioned CR write. -/
theorem crAct_outside (c : CrFields) (s : State) :
    (crAct c s).fault = s.fault ∧ (crAct c s).drv = s.drv ∧ (crAct c s).moves = s.moves ∧ (crAct c s).cfg = s.cfg ∧
    (crAct c s).draws = s.draws ∧ (crAct c s).rdata = s.rdata ∧ (crAct c s).cr = s.cr ∧ (crAct c s).txdr = s.txdr ∧
    (crAct c s).rxdr = s.rxdr := by
  unfold crAct
  split
  · split <;> simp [startCondition]
  · split
    · simp [restartCondition]
    · split <;> simp [stopCondition]
  · simp
  · simp

/-- No instruction changes the driver, the moves or the configuration. -/
theorem exec_frame {i : Instr} {s t : State} (h : exec i s = .next t) :
    t.drv = s.drv ∧ t.moves = s.moves ∧ t.cfg = s.cfg := by
  cases i with
  | writeCr v =>
    obtain ⟨-, ⟨f, -, rfl⟩ | ⟨-, rfl⟩⟩ := execWriteCr_next h
    · simp
    · have := crAct_outside (decodeCR v) (latchCr (decodeCR v) s)
      simp_all
  | readCr => obtain ⟨-, rfl⟩ := execReadCr_next h; simp
  | readSr => obtain ⟨-, rfl⟩ := execReadSr_next h; simp
  | writeSr v => obtain ⟨-, rfl⟩ := execWriteSr_next (v := v) h; simp
  | writeTxdr v => obtain ⟨-, ⟨-, rfl⟩ | ⟨-, rfl⟩⟩ := execWriteTxdr_next h <;> simp
  | readTxdr => obtain ⟨-, rfl⟩ := execReadTxdr_next h; simp
  | readRxdr => obtain ⟨-, ⟨-, rfl⟩ | ⟨-, rfl⟩⟩ := execReadRxdr_next h <;> simp
  | writeRxdr v => obtain ⟨-, rfl⟩ := execWriteRxdr_next (v := v) h; simp

end Sys2Proof.Machine
end

