-- ==== Sys2Proof/Laws/Bus.lean ====
section
/-! SUPPORT. What a bus step can do, said once (41_bus_sequencer R131 to R142). -/

namespace Sys2Proof.Machine

/-- Every step of the bus agent is one of the rules R132 to R142, under its condition. -/
theorem busStep_cases {a : Answer} {s t : State} (h : busStep a s = some t) :
    (s.phase = .addressing .W ∧ a = .addrResp .ack ∧ t = addrAckWrite s) ∨
    (s.phase = .addressing .R ∧ a = .addrResp .ack ∧ t = addrAckRead s) ∨
    ((∃ d, s.phase = .addressing d) ∧ a = .addrResp .nack ∧ t = addrNack s) ∨
    (∃ r, s.phase = .transferring .W r ∧ s.sr.txis = false ∧ r ≠ 0 ∧ r ≠ 1 ∧ a = .wrResp .ack ∧ t = byteAckedMore r s) ∨
    (s.phase = .transferring .W 1 ∧ s.sr.txis = false ∧ s.cr.autoend = false ∧ a = .wrResp .ack ∧
      t = lastByteAckedHold s) ∨
    (s.phase = .transferring .W 1 ∧ s.sr.txis = false ∧ s.cr.autoend = true ∧ a = .wrResp .ack ∧
      t = lastByteAckedStop s) ∨
    (∃ r, s.phase = .transferring .W r ∧ s.sr.txis = false ∧ r ≠ 0 ∧ a = .wrResp .nack ∧ t = byteNacked s) ∨
    (∃ r b, s.phase = .transferring .R r ∧ s.sr.rxne = false ∧ r ≠ 0 ∧ r ≠ 1 ∧ a = .rdByte b ∧
      t = byteReceivedMore b r s) ∨
    (∃ b, s.phase = .transferring .R 1 ∧ s.sr.rxne = false ∧ s.cr.autoend = false ∧ a = .rdByte b ∧
      t = lastByteReceivedHold b s) ∨
    (∃ b, s.phase = .transferring .R 1 ∧ s.sr.rxne = false ∧ s.cr.autoend = true ∧ a = .rdByte b ∧
      t = lastByteReceivedStop b s) ∨
    (s.phase ≠ .idle ∧ a = .abort ∧ t = abortPhase s) := by
  unfold busStep at h
  split at h
  case h_9 r k hp =>
    cases hx : s.sr.txis <;> simp only [hx, if_true, if_false, reduceCtorEq] at h
    unfold wrAnswer at h
    by_cases h0 : r = 0
    · simp [h0] at h
    · simp only [h0, if_false] at h
      cases k with
      | nack => cases h; simpa [hp, hx] using h0
      | ack =>
        by_cases h1 : r = 1
        · cases ha : s.cr.autoend <;> simp_all
        · simp_all
  case h_10 r b hp =>
    cases hx : s.sr.rxne <;> simp only [hx, if_true, if_false, reduceCtorEq] at h
    unfold rdAnswer at h
    by_cases h0 : r = 0
    · simp [h0] at h
    · simp only [h0, if_false] at h
      by_cases h1 : r = 1
      · cases ha : s.cr.autoend <;> simp_all
      · simp_all
  all_goals first | (cases h; done) | (cases h; simp_all)

/-- A bus step changes nothing outside the block: not FAULT, not the host, not the moves (20_memory R60). -/
theorem busStep_outside {a : Answer} {s t : State} (h : busStep a s = some t) :
    t.fault = s.fault ∧ t.rdata = s.rdata ∧ t.drv = s.drv ∧ t.moves = s.moves ∧ t.draws = s.draws ∧ t.cfg = s.cfg := by
  rcases busStep_cases h with h | h | h | ⟨_, h⟩ | h | h | ⟨_, h⟩ | ⟨_, _, h⟩ | ⟨_, h⟩ | ⟨_, h⟩ | h <;>
    simp_all [addrAckWrite, addrAckRead, addrNack, byteAckedMore, lastByteAckedHold, lastByteAckedStop, byteNacked,
      byteReceivedMore, lastByteReceivedHold, lastByteReceivedStop, abortPhase, receive]

/-- The bus agent's steps do not look at the moves. -/
theorem busStep_moves (a : Answer) (s : State) (ms : List Move) :
    busStep a { s with moves := ms } = (busStep a s).map fun t => { t with moves := ms } := by
  have hw : ∀ k r, wrAnswer k r { s with moves := ms } = (wrAnswer k r s).map fun t => { t with moves := ms } := by
    intro k r
    unfold wrAnswer
    split
    · rfl
    · cases k with
      | nack => rfl
      | ack =>
        simp only
        split
        · split <;> rfl
        · rfl
  have hr : ∀ b r, rdAnswer b r { s with moves := ms } = (rdAnswer b r s).map fun t => { t with moves := ms } := by
    intro b r
    unfold rdAnswer
    split
    · rfl
    · split
      · split <;> rfl
      · rfl
  unfold busStep
  simp only [hw, hr]
  split <;> first | rfl | (split <;> rfl)

/-- In Idle the bus agent has no step (41 R131). -/
@[simp] theorem busStep_idle (a : Answer) {s : State} (h : s.phase = .idle) : busStep a s = none := by
  simp [busStep, h]

/-- An abort is enabled in every state other than Idle (41 R131, R142). -/
theorem busStep_abort {s : State} (h : s.phase ≠ .idle) : busStep .abort s = some (abortPhase s) := by
  unfold busStep
  split <;> simp_all

end Sys2Proof.Machine
end

