-- ==== Sys2Proof/Laws/Decode.lean ====
section
/-! SUPPORT. Words and their bytes, and the access word (30_encoding R71). -/

namespace Sys2Proof

/-- A word is put together again from its bytes. -/
theorem wordOfBytes_bytes (v : Word) :
    wordOfBytes (v.extractLsb' 0 8) (v.extractLsb' 8 8) (v.extractLsb' 16 8) (v.extractLsb' 24 8) = v := by
  have h := v.isLt
  apply BitVec.eq_of_toNat_eq
  simp only [wordOfBytes, BitVec.toNat_append, BitVec.extractLsb'_toNat, Nat.shiftRight_eq_div_pow]
  rw [← Nat.shiftLeft_add_eq_or_of_lt (by omega), ← Nat.shiftLeft_add_eq_or_of_lt (by omega),
    ← Nat.shiftLeft_add_eq_or_of_lt (by omega)]
  simp only [Nat.shiftLeft_eq]
  omega

/-- The bytes of a word put together from bytes. -/
theorem bytesOfWord_wordOfBytes (b0 b1 b2 b3 : Byte) : bytesOfWord (wordOfBytes b0 b1 b2 b3) = [b0, b1, b2, b3] := by
  have h0 := b0.isLt
  have h1 := b1.isLt
  have h2 := b2.isLt
  have h3 := b3.isLt
  simp only [bytesOfWord, wordOfBytes, List.cons.injEq, and_true]
  refine ⟨?_, ?_, ?_, ?_⟩ <;>
  · apply BitVec.eq_of_toNat_eq
    simp only [BitVec.toNat_append, BitVec.extractLsb'_toNat, Nat.shiftRight_eq_div_pow]
    rw [← Nat.shiftLeft_add_eq_or_of_lt (by omega), ← Nat.shiftLeft_add_eq_or_of_lt (by omega),
      ← Nat.shiftLeft_add_eq_or_of_lt (by omega)]
    simp only [Nat.shiftLeft_eq]
    omega

/-- The access word as a number (30_encoding R71). -/
theorem accessWord_toNat (we : Bool) (off : Byte) : (accessWord we off).toNat = we.toNat * 256 + off.toNat := by
  change (BitVec.ofBool we ++ off).toNat = _
  rw [BitVec.toNat_append, ← Nat.shiftLeft_add_eq_or_of_lt off.isLt, BitVec.toNat_ofBool, Nat.shiftLeft_eq]

/-- An access word's low byte is the offset (30_encoding R71). -/
theorem accessWord_low (we : Bool) (off : Byte) : (accessWord we off).setWidth 8 = off := by
  have h := off.isLt
  apply BitVec.eq_of_toNat_eq
  rw [BitVec.toNat_setWidth, accessWord_toNat]
  omega

/-- An access word's top bit is the write enable (30_encoding R71). -/
theorem accessWord_high (we : Bool) (off : Byte) : (accessWord we off).getLsbD 8 = we := by
  have h := off.isLt
  rw [BitVec.getLsbD, accessWord_toNat, Nat.testBit_eq_decide_div_mod_eq]
  cases we <;> simp <;> omega

/-- What a decoded access was: 4 bytes wide, the table's offset and write enable (30_encoding R71, 20_memory R54). -/
theorem decodeAccess_ok {a : Access} {i : Instr} (h : decodeAccess a = .ok i) :
    a.n = 4 ∧ a.off.toNat % 4 = 0 ∧ a.off.toNat ≤ 0xFF ∧ decodeWord (accessWord a.we (a.off.setWidth 8)) a.v = .ok i := by
  unfold decodeAccess at h
  split at h
  · cases h
  · split at h
    · cases h
    · split at h
      · cases h
      · exact ⟨by omega, by omega, by omega, h⟩

/-- A decoded access word is the instruction's own, and a write's data word is its operand (30_encoding R71). -/
theorem decodeWord_ok {aw : BitVec 9} {v : Word} {i : Instr} (h : decodeWord aw v = .ok i) :
    aw = opcode i ∧ (dataWord i = some v ∨ dataWord i = none) := by
  unfold decodeWord at h
  repeat' split at h
  all_goals first | (cases h; done) | (cases h; subst_vars; simp [opcode, dataWord])

end Sys2Proof
end

