-- ==== Sys2Proof/Laws/Operands.lean ====
section
/-! SUPPORT. The small lemmas of the data formats: bytes and words, the SR word's flags, sample pairs. -/

namespace Sys2Proof.Machine

/-- A byte read from its own word (30_encoding R74). -/
@[simp] theorem byteOf_wordOf (b : Byte) : byteOf (wordOf b) = b := by simp [byteOf, wordOf]

/-- A byte's word has the byte's value (30_encoding R74). -/
@[simp] theorem wordOf_toNat (b : Byte) : (wordOf b).toNat = b.toNat := by
  have := b.isLt
  simp [wordOf]
  omega

/-- A bit shifted to its place is its power of two. -/
theorem bitWord_shift_toNat (b : Bool) (k : Nat) (hk : k < 32) : (bitWord b <<< k).toNat = b.toNat * 2 ^ k := by
  cases b
  · simp [bitWord]
  · have h : 2 ^ k < 2 ^ 32 := Nat.pow_lt_pow_right (by omega) hk
    simp only [bitWord, BitVec.toNat_shiftLeft, Nat.shiftLeft_eq]
    rw [Nat.mod_eq_of_lt (by simpa using h)]
    simp

/-- The poll sees a flag of the SR word exactly when the flag is set, whatever was drawn for the other bits
(30_encoding R73, 40_register_access R107). -/
@[simp] theorem flagSeen_srWord (f : Flag) (d : Word) (r : StatusReg) : flagSeen f (srWord d r) = r.flag f := by
  cases f <;> cases h1 : r.txis <;> cases h2 : r.rxne <;> cases h3 : r.tc <;>
    simp [flagSeen, flagBit, StatusReg.flag, srWord, srBits, h1, h2, h3, srMask]

/-- The value of a low and a high byte (43_device_protocol R184). -/
theorem pairOf_toNat (lo hi : Byte) : (pairOf lo hi).toNat = hi.toNat * 256 + lo.toNat := by
  have h1 := hi.isLt
  have h2 := lo.isLt
  unfold pairOf
  rw [BitVec.toNat_or, BitVec.toNat_shiftLeft, BitVec.toNat_setWidth, BitVec.toNat_setWidth, Nat.shiftLeft_eq,
    Nat.mod_eq_of_lt (a := hi.toNat) (by omega), Nat.mod_eq_of_lt (a := lo.toNat) (by omega),
    Nat.mod_eq_of_lt (by omega), Nat.mul_comm, ← Nat.two_pow_add_eq_or_of_lt (by omega)]

end Sys2Proof.Machine
end

