-- ==== Sys2Proof/Laws/Step.lean ====
section
/-! SUPPORT. What the host's statements, the other moves and one step can do, said once. -/

namespace Sys2Proof.Machine

/-! The host's statements. -/

/-- An access runs the instruction it decodes to, or raises F01 (40_register_access R100). -/
theorem perform_next {a : Access} {s t : State} (h : perform a s = .next t) :
    (∃ i, decodeAccess a = .ok i ∧ exec i s = .next t) ∨
    ((∃ e, decodeAccess a = .error e) ∧ s.fault = none ∧ t = { s with fault := some .badAccess }) := by
  unfold perform at h
  split at h
  · next i hd => exact .inl ⟨i, hd, h⟩
  · next e hd =>
    obtain ⟨hf, h⟩ := whileLive_next h
    cases h; exact .inr ⟨⟨e, hd⟩, hf, rfl⟩

@[simp] theorem perform_ok {a : Access} {i : Instr} (s : State) (h : decodeAccess a = .ok i) :
    perform a s = exec i s := by
  simp [perform, h]

/-- The access of a poll reads SR (42_bus_primitives R160). -/
@[simp] theorem decode_readSr : decodeAccess (readAccess offSR 4) = .ok .readSr := by decide

/-- Finishing an access changes the driver only. -/
theorem finishAccess_next {d : Dest} {s t : State} (h : finishAccess d s = .next t) :
    ∃ r, deliver d s.cfg.expectedCfgReadback s.rdata s.drv = .ok r ∧ t = { s with drv := r.advance } := by
  unfold finishAccess at h
  split at h
  · next r hr => cases h; exact ⟨r, hr, rfl⟩
  · cases h

/-- Delivering a word writes at most one element of buf. -/
theorem deliver_buf {dest : Dest} {e : Option Byte} {w : Word} {d r : Driver} (h : deliver dest e w d = .ok r) :
    r.buf = d.buf ∨ ∃ a v, r.buf = d.buf.write a v := by
  cases dest with
  | none => cases h; exact .inl rfl
  | buf i => cases h; exact .inr ⟨_, _, rfl⟩
  | value => cases h; exact .inl rfl
  | probe =>
    cases h
    refine .inl ?_
    unfold checkReadback
    split
    · rfl
    · split <;> rfl
  | burst count =>
    simp only [deliver, storeBurst] at h
    split at h
    · split at h
      · cases h; exact .inr ⟨_, _, rfl⟩
      · cases h
    · cases h; exact .inr ⟨_, _, rfl⟩

/-- A poll leaves buf alone. -/
theorem pollOutcome_buf (f : Flag) (w : Waiter) (b : Option Nat) (sr : Word) (d : Driver) :
    (pollOutcome f w b sr d).buf = d.buf := by
  unfold pollOutcome
  split
  · rfl
  · split <;> rfl

/-- The state a statement starts from: the driver has entered a call if the statement begins one (10_state R31). -/
def entered (op : Op) (s : State) : State := if op.enter then onDriver Driver.startCall s else s

theorem entered_cases (op : Op) (s : State) : entered op s = s ∨ entered op s = onDriver Driver.startCall s := by
  unfold entered
  split
  · exact .inr rfl
  · exact .inl rfl

@[simp] theorem entered_block (op : Op) (s : State) : (entered op s).block = s.block := by
  unfold entered; split <;> rfl

@[simp] theorem entered_fault (op : Op) (s : State) : (entered op s).fault = s.fault := by
  unfold entered; split <;> rfl

@[simp] theorem entered_cfg (op : Op) (s : State) : (entered op s).cfg = s.cfg := by
  unfold entered; split <;> rfl

@[simp] theorem entered_moves (op : Op) (s : State) : (entered op s).moves = s.moves := by
  unfold entered; split <;> rfl

/-- A host step runs the statement at pc, and the host is running. -/
theorem hostStep_next {s t : State} (h : hostStep s = .next t) :
    ∃ op, s.drv.running = true ∧ s.drv.prog[s.drv.pc]? = some op ∧ runAct op.act (entered op s) = .next t := by
  unfold hostStep at h
  split at h
  · cases h
  · next hr =>
    split at h
    · cases h
    · next op hop =>
      refine ⟨op, ?_, hop, h⟩
      have hlt : s.drv.pc < s.drv.prog.length := by
        by_contra hge
        rw [List.getElem?_eq_none (by omega)] at hop
        cases hop
      unfold Driver.running
      split
      · next e he => exact absurd he (hr e)
      · simpa using hlt

/-- A running host's step is its statement. -/
theorem hostStep_running {s : State} {op : Op} (hr : s.drv.running = true) (hop : s.drv.prog[s.drv.pc]? = some op) :
    hostStep s = runAct op.act (entered op s) := by
  unfold hostStep
  split
  · next e he => simp [Driver.running, he] at hr
  · simp [hop, entered]

/-- What one statement can do: it raises no fault and touches the driver alone, or it performs one access and then
touches the driver alone, or it raises a fault. -/
theorem runAct_next {act : Act} {s t : State} (h : runAct act s = .next t) :
    (∃ a u, ((∃ d, act = .access a d) ∨ (a = readAccess offSR 4 ∧ ∃ f w, act = .poll f w)) ∧ perform a s = .next u ∧
      ((u.fault = none ∧ ∃ d, t = { u with drv := d } ∧ (d.buf = u.drv.buf ∨ ∃ x v, d.buf = u.drv.buf.write x v)) ∨
       (u.fault ≠ none ∧ t = u))) ∨
    (act = .argFault ∧ s.fault = none ∧ t = { s with fault := some .argRange }) ∨
    ((act = .decodeSample ∨ (∃ ms, act = .delay ms) ∨ ∃ k, act = .jumpBack k) ∧
      ∃ d, t = { s with drv := d } ∧ d.buf = s.drv.buf) := by
  cases act with
  | access a d =>
    obtain ⟨u, hu, hk⟩ := onNext_next h
    refine .inl ⟨a, u, .inl ⟨d, rfl⟩, hu, ?_⟩
    rcases hk with ⟨hf, hk⟩ | hk
    · obtain ⟨r, hr, rfl⟩ := finishAccess_next hk
      exact .inl ⟨hf, r.advance, rfl, by simpa using deliver_buf hr⟩
    · exact .inr hk
  | poll f w =>
    obtain ⟨u, hu, hk⟩ := onNext_next h
    refine .inl ⟨_, u, .inr ⟨rfl, f, w, rfl⟩, hu, ?_⟩
    rcases hk with ⟨hf, hk⟩ | hk
    · cases hk
      exact .inl ⟨hf, _, rfl, .inl (pollOutcome_buf ..)⟩
    · exact .inr hk
  | argFault =>
    obtain ⟨hf, h⟩ := whileLive_next h
    cases h
    exact .inr (.inl ⟨rfl, hf, rfl⟩)
  | decodeSample =>
    simp only [runAct] at h
    split at h
    · cases h; exact .inr (.inr ⟨.inl rfl, _, rfl, rfl⟩)
    · cases h
  | delay ms => cases h; exact .inr (.inr ⟨.inr (.inl ⟨ms, rfl⟩), _, rfl, rfl⟩)
  | jumpBack k => cases h; exact .inr (.inr ⟨.inr (.inr ⟨k, rfl⟩), _, rfl, rfl⟩)

/-! The other moves. -/

theorem busMove_cases (a : Answer) (s : State) :
    (∃ t, busStep a s = some t ∧ busMove a s = t) ∨ (busStep a s = none ∧ busMove a s = s) := by
  unfold busMove
  cases h : busStep a s with
  | none => exact .inr ⟨rfl, rfl⟩
  | some t => exact .inl ⟨t, rfl, rfl⟩

theorem callMove_cases (p : List Op) (s : State) :
    (s.drv.running = true ∧ callMove p s = s) ∨
    (s.drv.running = false ∧ callMove p s = onDriver (fun d => { d.startCall with prog := p, pc := 0 }) s) := by
  unfold callMove
  cases h : s.drv.running
  · exact .inr ⟨rfl, by simp⟩
  · exact .inl ⟨rfl, by simp⟩

/-! One step. -/

/-- The state a move starts from: the move is taken, the rest is as before. -/
def State.afterTake (s : State) : State := (takeMove s).2

@[simp] theorem afterTake_block (s : State) : s.afterTake.block = s.block := by
  obtain ⟨ms, n, h⟩ := takeMove_state s
  rw [State.afterTake, h]; rfl

@[simp] theorem afterTake_fault (s : State) : s.afterTake.fault = s.fault := by
  obtain ⟨ms, n, h⟩ := takeMove_state s
  rw [State.afterTake, h]

@[simp] theorem afterTake_drv (s : State) : s.afterTake.drv = s.drv := by
  obtain ⟨ms, n, h⟩ := takeMove_state s
  rw [State.afterTake, h]

@[simp] theorem afterTake_cfg (s : State) : s.afterTake.cfg = s.cfg := by
  obtain ⟨ms, n, h⟩ := takeMove_state s
  rw [State.afterTake, h]

/-- A step happens only while FAULT = none, and is the next move of some agent. -/
theorem step_next {s t : State} (h : step s = .next t) :
    s.fault = none ∧ stepMove s.nextMove s.afterTake = .next t := whileLive_next h

/-- A step of a live state is its next move. -/
theorem step_live {s : State} (h : s.fault = none) : step s = stepMove s.nextMove s.afterTake := whileLive_live h

/-- A live step takes the first listed move. -/
theorem step_move {s : State} {m : Move} {ms : List Move} (hf : s.fault = none) (hm : s.moves = m :: ms) :
    step s = stepMove m { s with moves := ms } := by
  rw [step_live hf, State.nextMove, State.afterTake, takeMove_cons hm]

/-- A listed move is the next move. -/
theorem nextMove_cons {s : State} {m : Move} {ms : List Move} (hm : s.moves = m :: ms) : s.nextMove = m := by
  rw [State.nextMove, takeMove_cons hm]

@[simp] theorem crAct_latch_outside (v : Word) (s : State) :
    (crAct (decodeCR v) (latchCr (decodeCR v) s)).fault = s.fault := (crAct_outside _ _).1

/-- What one step can do to the block: nothing, one instruction of the host, one bus step, or a reset. -/
theorem step_block {s t : State} (h : step s = .next t) :
    s.fault = none ∧
    (t.block = s.block ∨
     (∃ i u v, s.hostDoes i ∧ u.block = s.block ∧ u.fault = none ∧ exec i u = .next v ∧ t.block = v.block ∧
       t.fault = v.fault) ∨
     (∃ a u, s.nextMove = .bus a ∧ u.block = s.block ∧ u.fault = none ∧ busStep a u = some t) ∨
     (s.nextMove = .reset ∧ t = resetMove s.afterTake)) := by
  obtain ⟨hf, h⟩ := step_next h
  refine ⟨hf, ?_⟩
  cases hm : s.nextMove with
  | host =>
    rw [hm] at h
    obtain ⟨op, hr, hop, hrun⟩ := hostStep_next h
    simp only [afterTake_drv] at hr hop
    rcases runAct_next hrun with ⟨a, u, hact, hp, hk⟩ | ⟨-, -, rfl⟩ | ⟨-, d, rfl, -⟩
    · have hb : t.block = u.block ∧ t.fault = u.fault := by
        rcases hk with ⟨-, d, rfl, -⟩ | ⟨-, rfl⟩ <;> exact ⟨rfl, rfl⟩
      rcases perform_next hp with ⟨i, hd, hx⟩ | ⟨-, -, rfl⟩
      · refine .inr (.inl ⟨i, _, u, ⟨hm, ?_⟩, ?_, ?_, hx, hb.1, hb.2⟩)
        · unfold State.issues
          obtain ⟨en, act⟩ := op
          rcases hact with ⟨d, hact⟩ | ⟨ha, f, w, hact⟩
          · obtain rfl : act = .access a d := hact
            simp [hr, hop, hd, Except.toOption]
          · obtain rfl : act = .poll f w := hact
            subst ha
            rw [decode_readSr] at hd
            cases hd
            simp [hr, hop]
        · simp
        · simpa using hf
      · exact .inl (by rw [hb.1]; exact (entered_block op s.afterTake).trans (afterTake_block s))
    · exact .inl ((entered_block op s.afterTake).trans (afterTake_block s))
    · exact .inl ((entered_block op s.afterTake).trans (afterTake_block s))
  | bus a =>
    rw [hm] at h
    simp only [stepMove, Host.Outcome.next.injEq] at h
    rcases busMove_cases a s.afterTake with ⟨u, hu, he⟩ | ⟨-, he⟩
    · exact .inr (.inr (.inl ⟨a, _, rfl, afterTake_block s, by simpa using hf, by rw [hu, ← he, h]⟩))
    · exact .inl (by rw [← h, he, afterTake_block])
  | reset =>
    rw [hm] at h
    simp only [stepMove, Host.Outcome.next.injEq] at h
    exact .inr (.inr (.inr ⟨rfl, h.symm⟩))
  | call p =>
    rw [hm] at h
    simp only [stepMove, Host.Outcome.next.injEq] at h
    refine .inl ?_
    rcases callMove_cases p s.afterTake with ⟨-, he⟩ | ⟨-, he⟩
    · rw [← h, he, afterTake_block]
    · rw [← h, he]
      exact afterTake_block s

/-- What one step can do to buf: keep it, forget it at a call or a restart, or write one element. -/
theorem step_buf {s t : State} (h : step s = .next t) :
    ∃ m, (m = s.drv.buf ∨ m = []) ∧ (t.drv.buf = m ∨ ∃ a v, t.drv.buf = m.write a v) := by
  obtain ⟨-, h⟩ := step_next h
  cases hm : s.nextMove with
  | host =>
    rw [hm] at h
    obtain ⟨op, -, -, hrun⟩ := hostStep_next h
    have hb : (entered op s.afterTake).drv.buf = s.drv.buf ∨ (entered op s.afterTake).drv.buf = [] := by
      rcases entered_cases op s.afterTake with he | he <;> rw [he] <;> simp
    rcases runAct_next hrun with ⟨a, u, -, hp, hk⟩ | ⟨-, -, rfl⟩ | ⟨-, d, rfl, hd⟩
    · have hu : u.drv.buf = (entered op s.afterTake).drv.buf := by
        rcases perform_next hp with ⟨i, -, hx⟩ | ⟨-, -, rfl⟩
        · rw [(exec_frame hx).1]
        · rfl
      refine ⟨_, hb, ?_⟩
      rcases hk with ⟨-, d, rfl, hd⟩ | ⟨-, rfl⟩
      · simpa [hu] using hd
      · exact .inl hu
    · exact ⟨_, hb, .inl rfl⟩
    · exact ⟨_, hb, .inl hd⟩
  | bus a =>
    rw [hm] at h
    simp only [stepMove, Host.Outcome.next.injEq] at h
    refine ⟨_, .inl rfl, .inl ?_⟩
    rcases busMove_cases a s.afterTake with ⟨u, hu, he⟩ | ⟨-, he⟩
    · rw [← h, he, (busStep_outside hu).2.2.1, afterTake_drv]
    · rw [← h, he, afterTake_drv]
  | reset =>
    rw [hm] at h
    simp only [stepMove, Host.Outcome.next.injEq] at h
    exact ⟨_, .inr rfl, .inl (by rw [← h]; rfl)⟩
  | call p =>
    rw [hm] at h
    simp only [stepMove, Host.Outcome.next.injEq] at h
    rcases callMove_cases p s.afterTake with ⟨-, he⟩ | ⟨-, he⟩
    · exact ⟨_, .inl rfl, .inl (by rw [← h, he, afterTake_drv])⟩
    · exact ⟨_, .inr rfl, .inl (by rw [← h, he]; rfl)⟩

end Sys2Proof.Machine
end

