-- ==== Sys2Proof/Laws/Run.lean ====
section
/-! SUPPORT. Runs of several steps, the shape of a property of the block that every step keeps, the start points of a
host access and of a poll, and what a step does to a wait. -/

namespace Sys2Proof.Machine

/-! Runs. -/

@[simp] theorem run_zero (s : State) : Host.Core.run core 0 s = .next s := by simp only [Host.Core.run]

theorem run_next {s t : State} (k : Nat) (h : step s = .next t) :
    Host.Core.run core (k + 1) s = Host.Core.run core k t := by
  have h' : core.step s = .next t := h
  simp only [Host.Core.run, h']

theorem run_fault {s : State} {r : Fault} (k : Nat) (h : step s = .fault r) :
    Host.Core.run core (k + 1) s = .fault r := by
  have h' : core.step s = .fault r := h
  simp only [Host.Core.run, h']

/-- A run goes on from where its first steps ended. -/
theorem run_add (j k : Nat) {s t : State} (h : Host.Core.run core j s = .next t) :
    Host.Core.run core (j + k) s = Host.Core.run core k t := by
  induction j generalizing s with
  | zero =>
    rw [run_zero] at h
    cases h
    rw [Nat.zero_add]
  | succ j ih =>
    simp only [Host.Core.run] at h
    cases hs : core.step s with
    | next u => rw [hs] at h; rw [Nat.add_right_comm, run_next _ hs]; exact ih h
    | fault r => rw [hs] at h; cases h
    | refused r => rw [hs] at h; cases h

/-! What a step can do to the block. -/

/-- What an instruction can do to the block: nothing, one accepted CR write, one byte to send, or one byte taken. -/
theorem exec_block {i : Instr} {u v : State} (h : exec i u = .next v) :
    v.block = u.block ∨
    (∃ w, i = .writeCr w ∧ crFault w u = none ∧ v = crAct (decodeCR w) (latchCr (decodeCR w) u)) ∨
    (∃ w, i = .writeTxdr w ∧ u.sr.txis = true ∧
      v.block = { u.block with txdr := byteOf w, sr := { u.sr with txis := false } }) ∨
    (i = .readRxdr ∧ u.sr.rxne = true ∧ v.block = { u.block with sr := { u.sr with rxne := false } }) := by
  cases i with
  | writeCr w =>
    obtain ⟨-, ⟨f, -, rfl⟩ | ⟨hc, rfl⟩⟩ := execWriteCr_next h
    · exact .inl rfl
    · exact .inr (.inl ⟨w, rfl, hc, rfl⟩)
  | readCr => obtain ⟨-, rfl⟩ := execReadCr_next h; exact .inl rfl
  | readSr => obtain ⟨-, rfl⟩ := execReadSr_next h; exact .inl rfl
  | writeSr w => obtain ⟨-, rfl⟩ := execWriteSr_next (v := w) h; exact .inl rfl
  | writeTxdr w =>
    obtain ⟨-, ⟨ht, rfl⟩ | ⟨-, rfl⟩⟩ := execWriteTxdr_next h
    · exact .inr (.inr (.inl ⟨w, rfl, ht, rfl⟩))
    · exact .inl rfl
  | readTxdr => obtain ⟨-, rfl⟩ := execReadTxdr_next h; exact .inl rfl
  | readRxdr =>
    obtain ⟨-, ⟨ht, rfl⟩ | ⟨-, rfl⟩⟩ := execReadRxdr_next h
    · exact .inr (.inr (.inr ⟨rfl, ht, rfl⟩))
    · exact .inl rfl
  | writeRxdr w => obtain ⟨-, rfl⟩ := execWriteRxdr_next (v := w) h; exact .inl rfl

/-- A property of the block that every instruction, every bus step and a reset keep, every step keeps. -/
theorem block_principle (P : Block → Prop)
    (hx : ∀ i u v, P u.block → exec i u = .next v → P v.block)
    (hb : ∀ a u v, P u.block → busStep a u = some v → P v.block)
    (hr : ∀ u, P u.block → P (resetMove u).block)
    {s t : State} (hs : P s.block) (h : step s = .next t) : P t.block := by
  obtain ⟨-, h | ⟨i, u, v, -, hbk, -, hxx, ht, -⟩ | ⟨a, u, -, hbk, -, hxx⟩ | ⟨-, rfl⟩⟩ := step_block h
  · rwa [h]
  · rw [ht]; exact hx i u v (by rwa [hbk]) hxx
  · exact hb a u t (by rwa [hbk]) hxx
  · exact hr _ (by rwa [afterTake_block])

/-- An access leaves the driver, the moves and the configuration alone. -/
theorem perform_frame {a : Access} {s u : State} (h : perform a s = .next u) :
    u.drv = s.drv ∧ u.moves = s.moves ∧ u.cfg = s.cfg := by
  rcases perform_next h with ⟨i, -, hx⟩ | ⟨-, -, rfl⟩
  · exact exec_frame hx
  · exact ⟨rfl, rfl, rfl⟩

/-! HIST. -/

theorem bracket_append (h : List Event) (e : Event) : bracket (h ++ [e]) = bracketStep (bracket h) e := by
  simp [bracket]

/-- Once an event stood where none may stand, the history is not bracketed. -/
theorem bracketStep_none (l : List Event) : l.foldl bracketStep none = none := by
  induction l with
  | nil => rfl
  | cons e l ih => simpa [bracketStep] using ih

theorem rdBytes_append (h g : List Event) : rdBytes (h ++ g) = rdBytes h ++ rdBytes g := by simp [rdBytes]

/-- The access of a TXDR write (30_encoding R71). -/
theorem decode_writeTxdr (v : Word) : decodeAccess (writeAccess offTXDR 4 v) = .ok (.writeTxdr v) := by
  simp [decodeAccess, decodeWord, accessWord, writeAccess, offTXDR]

/-- The access of a CR write. -/
theorem decode_writeCr (v : Word) : decodeAccess (writeAccess offCR 4 v) = .ok (.writeCr v) := by
  simp [decodeAccess, decodeWord, accessWord, writeAccess, offCR]

/-- The access of an RXDR read. -/
theorem decode_readRxdr : decodeAccess (readAccess offRXDR 4) = .ok .readRxdr := by decide

/-! Waits. -/

/-- The driver waits for a flag at a poll of its own or of a primitive. -/
structure Driver.WaitsAt (d : Driver) (f : Flag) (w : Waiter) : Prop where
  running : d.running = true
  poll    : d.prog[d.pc]? = some (pollOp f w)

/-- What one step does to a wait without a budget whose flag is 0, no reset coming (42_bus_primitives R160): the host's
move is one more failed poll, an answer moves the block alone, and a call changes nothing. -/
theorem wait_step {s : State} {f : Flag} {w : Waiter} (hf : s.fault = none) (hb : s.cfg.pollBudget = none)
    (hd : s.drv.WaitsAt f w) (hfl : s.sr.flag f = false) (hm : s.nextMove ≠ .reset) :
    ∃ t, step s = .next t ∧ t.fault = none ∧ t.cfg = s.cfg ∧
      ((s.nextMove = .host ∧ t.block = s.block ∧
          t.drv = { s.drv with polls := s.drv.pollsSoFar + 1, inWait := true }) ∨
       (∃ a, s.nextMove = .bus a ∧ t = busMove a s.afterTake ∧ t.drv = s.drv) ∨
       ((∃ p, s.nextMove = .call p) ∧ t.block = s.block ∧ t.drv = s.drv)) := by
  rw [step_live hf]
  cases hn : s.nextMove with
  | reset => exact absurd hn hm
  | call p =>
    refine ⟨_, rfl, ?_⟩
    rw [callMove, if_pos (by simpa using hd.running)]
    exact ⟨by simpa using hf, afterTake_cfg s, .inr (.inr ⟨⟨p, rfl⟩, afterTake_block s, afterTake_drv s⟩)⟩
  | bus a =>
    refine ⟨_, rfl, ?_⟩
    have hout : (busMove a s.afterTake).fault = none ∧ (busMove a s.afterTake).cfg = s.cfg ∧
        (busMove a s.afterTake).drv = s.drv := by
      rcases busMove_cases a s.afterTake with ⟨t, ht, he⟩ | ⟨-, he⟩
      · have ho := busStep_outside ht
        rw [he]
        refine ⟨?_, ?_, ?_⟩ <;> simp_all
      · rw [he]
        exact ⟨by simpa using hf, afterTake_cfg s, afterTake_drv s⟩
    exact ⟨hout.1, hout.2.1, .inr (.inl ⟨a, rfl, rfl, hout.2.2⟩)⟩
  | host =>
    have hop : s.afterTake.drv.prog[s.afterTake.drv.pc]? = some (pollOp f w) := by simpa using hd.poll
    simp only [stepMove]
    rw [hostStep_running (by simpa using hd.running) hop]
    have hen : entered (pollOp f w) s.afterTake = s.afterTake := rfl
    have he : exec .readSr s.afterTake = .next (returnWord (srWord (Config.freeWord s.afterTake.draws) s.afterTake.sr)
        (countDraw s.afterTake)) := by
      simp only [exec, execReadSr]
      rw [whileLive_live (by simpa using hf)]
    have hsr : s.afterTake.sr = s.sr := congrArg Block.sr (afterTake_block s)
    simp only [pollOp] at hen ⊢
    rw [hen]
    simp only [runAct, perform_ok _ decode_readSr]
    rw [he, onNext_live (by simpa using hf)]
    refine ⟨_, rfl, by simpa using hf, afterTake_cfg s, .inl ⟨trivial, afterTake_block s, ?_⟩⟩
    simp [onDriver, pollOutcome, flagSeen_srWord, hsr, hfl, hb, budgetSpent, returnWord, countDraw]

end Sys2Proof.Machine
end

