-- ==== Sys2Proof/Laws/Fair.lean ====
section
/-! SUPPORT. Runs under the launch premises (70_reset_and_hazards R243): progress from one point of a transaction to the
next. A point is what matters between two steps; the host's or the bus agent's turn leads on from it, and every other
move keeps it. -/

namespace Sys2Proof.Machine

/-! Progress of a fair run. -/

/-- The premises of R243 about a run. -/
structure FairRun (run : Nat → State) : Prop where
  isRun   : IsRun run
  noReset : NoReset run
  live    : BusLive run
  host    : HostFair run

theorem IsRun.next {run : Nat → State} (h : IsRun run) {k : Nat} {t : State} (hs : step (run k) = .next t) :
    run (k + 1) = t := by
  rcases h k with h | ⟨h, -⟩
  · rw [h] at hs; cases hs; rfl
  · exact absurd hs (h t)

/-- Where a run stops it stays. -/
theorem IsRun.stopped {run : Nat → State} (h : IsRun run) {n k : Nat} (hn : ¬ (run n).goesOn) (hk : n ≤ k) :
    run k = run n := by
  induction k, hk using Nat.le_induction with
  | base => rfl
  | succ k hk ih =>
    rcases h k with h | ⟨-, h⟩
    · exact absurd ⟨_, ih ▸ h⟩ hn
    · rw [h, ih]

/-- A run that has stopped is fair to both agents, in whatever phase: none of them has a step (60_exceptions R211). -/
theorem IsRun.stopped_fair {run : Nat → State} (h : IsRun run) {n : Nat} (hn : ¬ (run n).goesOn) :
    HostFair run ∧ ∀ k, ∃ j, k ≤ j ∧ (BusSteps (run j) ∨ ¬ BusEnabled (run j)) := by
  have hs : ∀ k, k ≤ k + n ∧ ¬ (run (k + n)).goesOn := fun k =>
    ⟨by omega, by rw [h.stopped hn (show n ≤ k + n by omega)]; exact hn⟩
  exact ⟨fun k => ⟨_, (hs k).1, .inr fun e => (hs k).2 e.1⟩, fun k => ⟨_, (hs k).1, .inr fun e => (hs k).2 e.1⟩⟩

/-- A state halted by a fault goes nowhere (60_exceptions R211). -/
theorem not_goesOn_of_fault {s : State} {c : FaultCode} (h : s.fault = some c) : ¬ s.goesOn := by
  rintro ⟨t, ht⟩
  rw [(step_next ht).1] at h
  cases h

/-- A property kept until another one is reached, and left at some later point, leads to the other one. -/
theorem IsRun.reach {run : Nat → State} (hrun : IsRun run) {C D : State → Prop} {k j : Nat} (hkj : k ≤ j) (hC : C (run k))
    (hstay : ∀ i, C (run i) → ∃ t, step (run i) = .next t ∧ (C t ∨ D t))
    (hlast : C (run j) → ∃ t, step (run j) = .next t ∧ D t) : ∃ i, k ≤ i ∧ D (run i) := by
  have key : ∀ m, (∃ i, k ≤ i ∧ D (run i)) ∨ C (run (k + m)) := by
    intro m
    induction m with
    | zero => exact .inr hC
    | succ m ih =>
      rcases ih with h | h
      · exact .inl h
      · obtain ⟨t, ht, h⟩ := hstay _ h
        have hn := hrun.next ht
        rcases h with h | h
        · exact .inr (by rw [← Nat.add_assoc, hn]; exact h)
        · exact .inl ⟨k + m + 1, by omega, by rw [hn]; exact h⟩
  rcases key (j - k) with h | h
  · exact h
  · rw [Nat.add_sub_cancel' hkj] at h
    obtain ⟨t, ht, hD⟩ := hlast h
    exact ⟨j + 1, by omega, by rw [hrun.next ht]; exact hD⟩

/-- The host's step does not depend on the moves: it is the step of the same state with a host move first. -/
theorem hostStep_of_step {s t : State} (hf : s.fault = none) (h : step { s with moves := .host :: s.moves } = .next t) :
    hostStep s = .next t := by
  rwa [step_move (by exact hf) rfl] at h

/-- Where the host's move leads on and every other move stays, a fair run goes on. -/
theorem FairRun.byHost {run : Nat → State} (h : FairRun run) {C D : State → Prop} {k : Nat} (hC : C (run k))
    (hm : ∀ s ms, C s → s.fault = none ∧ C { s with moves := ms })
    (hh : ∀ s, C s → s.nextMove = .host → ∃ t, step s = .next t ∧ D t)
    (ho : ∀ s, C s → s.nextMove ≠ .host → s.nextMove ≠ .reset →
      (∀ a, s.nextMove = .bus a → (busStep a s).isSome = true → a.positive = true) →
      ∃ t, step s = .next t ∧ C t) : ∃ i, k ≤ i ∧ D (run i) := by
  have hstay : ∀ i, C (run i) → ∃ t, step (run i) = .next t ∧ (C t ∨ D t) := by
    intro i hi
    by_cases hn : (run i).nextMove = .host
    · obtain ⟨t, h1, h2⟩ := hh _ hi hn
      exact ⟨t, h1, .inr h2⟩
    · have hg : (run i).goesOn := by
        cases hs : (run i).nextMove with
        | host => exact absurd hs hn
        | bus a => exact ⟨_, by rw [step_live (hm _ [] hi).1, hs]; rfl⟩
        | reset => exact ⟨_, by rw [step_live (hm _ [] hi).1, hs]; rfl⟩
        | call q => exact ⟨_, by rw [step_live (hm _ [] hi).1, hs]; rfl⟩
      obtain ⟨t, h1, h2⟩ := ho _ hi hn (fun e => h.noReset i ⟨e, hg⟩) (fun a e => h.live.1 i a ⟨e, hg⟩)
      exact ⟨t, h1, .inl h2⟩
  obtain ⟨j, hkj, hj⟩ := h.host k
  refine h.isRun.reach hkj hC hstay ?_
  intro hc
  rcases hj with ⟨hj, -⟩ | hj
  · exact hh _ hc hj
  · obtain ⟨t, ht, -⟩ := hstay j hc
    obtain ⟨u, hu, -⟩ := hh _ (hm _ (.host :: (run j).moves) hc).2 (nextMove_cons rfl)
    exact absurd ⟨⟨t, ht⟩, u, hostStep_of_step (hm _ [] hc).1 hu⟩ hj

/-- Where the bus agent has a positive step, each such step leads on, and every other move stays, a fair run goes on. -/
theorem FairRun.byBus {run : Nat → State} (h : FairRun run) {C D : State → Prop} {k : Nat} (hC : C (run k))
    (he : ∀ s, C s → s.fault = none ∧ ∃ a, a.positive = true ∧ (busStep a s).isSome = true)
    (hb : ∀ s a, C s → s.nextMove = .bus a → a.positive = true → (busStep a s).isSome = true →
      ∃ t, step s = .next t ∧ D t)
    (ho : ∀ s, C s → s.nextMove ≠ .reset → (∀ a, s.nextMove = .bus a → busStep a s = none) →
      ∃ t, step s = .next t ∧ C t) : ∃ i, k ≤ i ∧ D (run i) := by
  have hstay : ∀ i, C (run i) → ∃ t, step (run i) = .next t ∧ (C t ∨ D t) := by
    intro i hi
    by_cases hm : ∃ a, (run i).nextMove = .bus a ∧ (busStep a (run i)).isSome = true
    · obtain ⟨a, h1, h2⟩ := hm
      have hg : (run i).goesOn := ⟨_, by rw [step_live (he _ hi).1, h1]; rfl⟩
      obtain ⟨t, h1, h2⟩ := hb _ a hi h1 (h.live.1 i a ⟨h1, hg⟩ h2) h2
      exact ⟨t, h1, .inr h2⟩
    · have hr : (run i).nextMove ≠ .reset := fun e =>
        h.noReset i ⟨e, _, by rw [step_live (he _ hi).1, e]; rfl⟩
      obtain ⟨t, h1, h2⟩ := ho _ hi hr (by
        intro a ha
        cases hq : busStep a (run i) with
        | none => rfl
        | some t => exact absurd ⟨a, ha, by simp [hq]⟩ hm)
      exact ⟨t, h1, .inl h2⟩
  obtain ⟨j, hkj, hj⟩ := h.live.2 k
  refine h.isRun.reach hkj hC hstay ?_
  intro hc
  rcases hj with ⟨a, h1, h2⟩ | hj
  · exact hb _ a hc h1.1 (h.live.1 j a h1 h2) h2
  · obtain ⟨t, ht, -⟩ := hstay j hc
    exact absurd ⟨⟨t, ht⟩, (he _ hc).2⟩ hj

/-- Whether an answer is enabled does not depend on the moves. -/
theorem busStep_afterTake (a : Answer) (s : State) : (busStep a s.afterTake).isSome = (busStep a s).isSome := by
  obtain ⟨ms, n, hs⟩ := takeMove_state s
  have e : s.afterTake = { s with moves := ms, draws := n } := hs
  rw [e]
  unfold busStep wrAnswer rdAnswer
  repeat' split
  all_goals simp_all

/-! Points of a transaction. -/

/-- What matters between two steps of a transaction: the statement, the bytes received and those stored, the block. -/
structure Spot where
  pc    : Nat
  got   : Nat
  bs    : List Byte
  phase : Phase
  cr    : ControlReg
  sr    : StatusReg

/-- The machine is at a point of the program `prog`, with no poll budget. -/
structure At (prog : List Op) (x : Spot) (s : State) : Prop where
  fault  : s.fault = none
  budget : s.cfg.pollBudget = none
  prog   : s.drv.prog = prog
  pc     : s.drv.pc = x.pc
  got    : s.drv.got = x.got
  result : s.drv.result = none
  buf    : ∀ k, k < x.got → s.drv.buf.read k = x.bs[k]?
  phase  : s.phase = x.phase
  cr     : s.cr = x.cr
  sr     : s.sr = x.sr
  bytes  : rdBytes s.hist = x.bs
  last   : s.sr.rxne = true → x.bs.getLast? = some s.rxdr

variable {prog : List Op} {x : Spot} {s : State}

theorem At.running (h : At prog x s) {op : Op} (hop : prog[x.pc]? = some op) : s.drv.running = true := by
  have hlt := (List.getElem?_eq_some_iff.1 hop).1
  simp [Driver.running, h.result, h.prog, h.pc, hlt]

theorem At.afterTake (h : At prog x s) : At prog x s.afterTake := by
  obtain ⟨ms, n, hs⟩ := takeMove_state s
  have e : s.afterTake = { s with moves := ms, draws := n } := hs
  rw [e]
  exact ⟨h.fault, h.budget, h.prog, h.pc, h.got, h.result, h.buf, h.phase, h.cr, h.sr, h.bytes, h.last⟩

/-- The moves are no part of a point. -/
theorem At.moves (h : At prog x s) (ms : List Move) : At prog x { s with moves := ms } :=
  ⟨h.fault, h.budget, h.prog, h.pc, h.got, h.result, h.buf, h.phase, h.cr, h.sr, h.bytes, h.last⟩

/-- A call and an answer that is not enabled keep the point. -/
theorem At.idleMove (h : At prog x s) {op : Op} (hop : prog[x.pc]? = some op) (hh : s.nextMove ≠ .host)
    (hr : s.nextMove ≠ .reset) (hb : ∀ a, s.nextMove = .bus a → busStep a s = none) :
    ∃ t, step s = .next t ∧ At prog x t := by
  rw [step_live h.fault]
  have hrun := h.afterTake.running hop
  cases hm : s.nextMove with
  | host => exact absurd hm hh
  | reset => exact absurd hm hr
  | call q => exact ⟨_, rfl, by rw [callMove, if_pos hrun]; exact h.afterTake⟩
  | bus a =>
    have e : busStep a s.afterTake = none := by
      have e := busStep_afterTake a s
      rw [hb a hm] at e
      simpa using e
    exact ⟨_, rfl, by rw [busMove, e]; exact h.afterTake⟩

/-- No positive answer is enabled at this point (41_bus_sequencer R131). -/
def Spot.blocked (x : Spot) : Bool :=
  match x.phase with
  | .idle              => true
  | .completing        => true
  | .addressing _      => false
  | .transferring .W _ => x.sr.txis
  | .transferring .R _ => x.sr.rxne

theorem At.blocked (h : At prog x s) (hb : x.blocked = true) {a : Answer}
    (ha : (busStep a s).isSome = true → a.positive = true) : busStep a s = none := by
  cases hq : busStep a s with
  | none => rfl
  | some t =>
    have hp := ha (by rw [hq]; rfl)
    have h1 := h.phase
    have h2 := h.sr
    unfold Spot.blocked at hb
    unfold busStep at hq
    split at hb <;> rename_i hx <;> rw [hx] at h1 <;> rw [h1] at hq <;> cases a <;> simp_all [Answer.positive]

/-- The host's move runs the statement of the point. -/
theorem At.hostStep (h : At prog x s) (hm : s.nextMove = .host) {op : Op} (hop : prog[x.pc]? = some op) :
    step s = runAct op.act (entered op s.afterTake) := by
  rw [step_live h.fault, hm]
  simp only [stepMove]
  exact hostStep_running (h.afterTake.running hop) (by rw [h.afterTake.prog, h.afterTake.pc]; exact hop)

/-- An access of the point performs its instruction. -/
theorem At.access {a : Access} {d : Dest} {i : Instr} (h : At prog x s) (hm : s.nextMove = .host)
    (hop : prog[x.pc]? = some (accessOp a d)) (hd : decodeAccess a = .ok i) :
    step s = onNext (exec i s.afterTake) (finishAccess d) := by
  rw [h.hostStep hm hop]
  simp only [accessOp, runAct, perform_ok _ hd]
  rfl

/-- A poll of the point reads SR and leaves the rest to `pollOutcome`. -/
theorem At.poll {f : Flag} {w : Waiter} (h : At prog x s) (hm : s.nextMove = .host)
    (hop : prog[x.pc]? = some (pollOp f w)) : ∃ r, step s = .next { s.afterTake with
      rdata := r, draws := s.afterTake.draws + 1
      drv   := if x.sr.flag f then { s.afterTake.drv with polls := s.afterTake.drv.pollsSoFar, inWait := false }.advance
               else { s.afterTake.drv with polls := s.afterTake.drv.pollsSoFar + 1, inWait := true } } := by
  have h' := h.afterTake
  rw [h.hostStep hm hop]
  refine ⟨srWord (Config.freeWord s.afterTake.draws) s.afterTake.sr, ?_⟩
  have he : exec .readSr s.afterTake = .next (returnWord (srWord (Config.freeWord s.afterTake.draws) s.afterTake.sr)
      (countDraw s.afterTake)) := by
    simp only [exec, execReadSr]
    rw [whileLive_live h'.fault]
  have ho : pollOutcome f w s.afterTake.cfg.pollBudget (srWord (Config.freeWord s.afterTake.draws) s.afterTake.sr)
      s.afterTake.drv =
      if x.sr.flag f then { s.afterTake.drv with polls := s.afterTake.drv.pollsSoFar, inWait := false }.advance
      else { s.afterTake.drv with polls := s.afterTake.drv.pollsSoFar + 1, inWait := true } := by
    simp only [pollOutcome, flagSeen_srWord, h'.sr, h'.budget, budgetSpent]
    rfl
  simp only [pollOp, runAct, perform_ok _ decode_readSr]
  have hen : entered ⟨false, .poll f w⟩ s.afterTake = s.afterTake := rfl
  rw [hen, he, onNext_live (by exact h'.fault), ← ho]
  rfl

/-- A poll whose flag is 0 keeps the point (42_bus_primitives R160). -/
theorem At.pollLow {f : Flag} {w : Waiter} (h : At prog x s) (hm : s.nextMove = .host)
    (hop : prog[x.pc]? = some (pollOp f w)) (hfl : x.sr.flag f = false) : ∃ t, step s = .next t ∧ At prog x t := by
  have h' := h.afterTake
  obtain ⟨r, hs⟩ := h.poll hm hop
  rw [hfl] at hs
  exact ⟨_, hs, h'.fault, h'.budget, h'.prog, h'.pc, h'.got, h'.result, h'.buf, h'.phase, h'.cr, h'.sr, h'.bytes, h'.last⟩

/-- A poll whose flag is 1 moves on (42_bus_primitives R160). -/
theorem At.pollHigh {f : Flag} {w : Waiter} (h : At prog x s) (hm : s.nextMove = .host)
    (hop : prog[x.pc]? = some (pollOp f w)) (hfl : x.sr.flag f = true) :
    ∃ t, step s = .next t ∧ At prog { x with pc := x.pc + 1 } t := by
  have h' := h.afterTake
  obtain ⟨r, hs⟩ := h.poll hm hop
  rw [hfl] at hs
  exact ⟨_, hs, h'.fault, h'.budget, h'.prog, congrArg (· + 1) h'.pc, h'.got, h'.result, h'.buf, h'.phase, h'.cr, h'.sr,
    h'.bytes, h'.last⟩

/-! From one point to the next in a fair run. -/

variable {run : Nat → State}

/-- At a point where no positive answer is enabled, the host's step leads on. -/
theorem FairRun.hostTo (hf : FairRun run) {k : Nat} {y : Spot} (hx : At prog x (run k)) {op : Op}
    (hop : prog[x.pc]? = some op) (hb : x.blocked = true)
    (hstep : ∀ s, At prog x s → s.nextMove = .host → ∃ t, step s = .next t ∧ At prog y t) :
    ∃ i, k ≤ i ∧ At prog y (run i) := by
  refine hf.byHost (C := At prog x) hx (fun s ms hs => ⟨hs.fault, hs.moves ms⟩) hstep ?_
  intro s hs hh hr hp
  exact hs.idleMove hop hh hr (fun a ha => hs.blocked hb (hp a ha))

/-- At a poll whose flag is 0, the bus agent's step leads on. -/
theorem FairRun.busTo (hf : FairRun run) {k : Nat} {D : State → Prop} {f : Flag} {w : Waiter} (hx : At prog x (run k))
    (hop : prog[x.pc]? = some (pollOp f w)) (hfl : x.sr.flag f = false)
    (he : ∀ s, At prog x s → ∃ a, a.positive = true ∧ (busStep a s).isSome = true)
    (hstep : ∀ s t a, At prog x s → a.positive = true → busStep a s = some t → D t) : ∃ i, k ≤ i ∧ D (run i) := by
  refine hf.byBus (C := At prog x) hx (fun s hs => ⟨hs.fault, he s hs⟩) ?_ ?_
  · intro s a hs hm ha hen
    rw [step_live hs.fault, hm]
    refine ⟨_, rfl, ?_⟩
    rw [← busStep_afterTake] at hen
    obtain ⟨t, ht⟩ := Option.isSome_iff_exists.1 hen
    rw [busMove, ht]
    exact hstep _ _ _ hs.afterTake ha ht
  · intro s hs hr hb
    by_cases hm : s.nextMove = .host
    · exact hs.pollLow hm hop hfl
    · exact hs.idleMove hop hm hr hb

/-- A poll whose flag is 1 is left. -/
theorem FairRun.pollHigh (hf : FairRun run) {k : Nat} {f : Flag} {w : Waiter} (hx : At prog x (run k))
    (hop : prog[x.pc]? = some (pollOp f w)) (hb : x.blocked = true) (hfl : x.sr.flag f = true) :
    ∃ i, k ≤ i ∧ At prog { x with pc := x.pc + 1 } (run i) :=
  hf.hostTo hx hop hb fun _ hs hm => hs.pollHigh hm hop hfl

/-- The slave ACKs its address (41_bus_sequencer R132, R133). -/
theorem FairRun.address (hf : FairRun run) {k : Nat} {f : Flag} {w : Waiter} {d : Dir} (hx : At prog x (run k))
    (hop : prog[x.pc]? = some (pollOp f w)) (hfl : x.sr.flag f = false) (hp : x.phase = .addressing d) :
    ∃ i, k ≤ i ∧ At prog { x with
      phase := .transferring d x.cr.nbytes
      sr    := if d = .W then { x.sr with txis := true } else x.sr } (run i) := by
  refine hf.busTo hx hop hfl ?_ ?_
  · intro s hs
    refine ⟨.addrResp .ack, rfl, ?_⟩
    have hph := hs.phase.trans hp
    unfold busStep
    rw [hph]
    cases d <;> rfl
  · intro s t a hs ha ht
    have hph := hs.phase.trans hp
    obtain rfl : t = if d = .W then addrAckWrite s else addrAckRead s := by
      unfold busStep at ht
      rw [hph] at ht
      cases d <;> cases a <;> simp_all [Answer.positive]
    cases d
    · refine ⟨hs.fault, hs.budget, hs.prog, hs.pc, hs.got, hs.result, hs.buf, ?_, hs.cr, ?_, ?_, hs.last⟩
      · simp [addrAckWrite, hs.cr]
      · simp [addrAckWrite, hs.sr]
      · simpa [addrAckWrite, rdBytes] using hs.bytes
    · refine ⟨hs.fault, hs.budget, hs.prog, hs.pc, hs.got, hs.result, hs.buf, ?_, hs.cr, ?_, ?_, hs.last⟩
      · simp [addrAckRead, hs.cr]
      · simp [addrAckRead, hs.sr]
      · simpa [addrAckRead, rdBytes] using hs.bytes

/-- The slave ACKs a byte that is not the last (41_bus_sequencer R135). -/
theorem FairRun.byteAcked (hf : FairRun run) {k : Nat} {f : Flag} {w : Waiter} {r : Byte} (hx : At prog x (run k))
    (hop : prog[x.pc]? = some (pollOp f w)) (hfl : x.sr.flag f = false) (hp : x.phase = .transferring .W r)
    (h0 : r ≠ 0#8) (h1 : r ≠ 1#8) (ht : x.sr.txis = false) :
    ∃ i, k ≤ i ∧ At prog { x with phase := .transferring .W (r - 1), sr := { x.sr with txis := true } } (run i) := by
  refine hf.busTo hx hop hfl ?_ ?_
  · intro s hs
    refine ⟨.wrResp .ack, rfl, ?_⟩
    have hph := hs.phase.trans hp
    unfold busStep wrAnswer
    rw [hph]
    simp [hs.sr, ht, h0, h1]
  · intro s t a hs ha hst
    have hph := hs.phase.trans hp
    obtain rfl : t = byteAckedMore r s := by
      unfold busStep wrAnswer at hst
      rw [hph] at hst
      cases a <;> simp_all [Answer.positive, hs.sr]
    refine ⟨hs.fault, hs.budget, hs.prog, hs.pc, hs.got, hs.result, hs.buf, ?_, hs.cr, ?_, ?_, hs.last⟩
    · simp [byteAckedMore]
    · simp [byteAckedMore, hs.sr]
    · simpa [byteAckedMore, rdBytes] using hs.bytes

/-- The slave ACKs the last byte of a write phase that holds the bus (41_bus_sequencer R136). -/
theorem FairRun.lastByteAcked (hf : FairRun run) {k : Nat} {f : Flag} {w : Waiter} (hx : At prog x (run k))
    (hop : prog[x.pc]? = some (pollOp f w)) (hfl : x.sr.flag f = false) (hp : x.phase = .transferring .W 1)
    (ht : x.sr.txis = false) (hae : x.cr.autoend = false) :
    ∃ i, k ≤ i ∧ At prog { x with phase := .completing, sr := { x.sr with tc := true } } (run i) := by
  refine hf.busTo hx hop hfl ?_ ?_
  · intro s hs
    refine ⟨.wrResp .ack, rfl, ?_⟩
    have hph := hs.phase.trans hp
    unfold busStep wrAnswer
    rw [hph]
    simp [hs.sr, ht]
  · intro s t a hs ha hst
    have hph := hs.phase.trans hp
    obtain rfl : t = lastByteAckedHold s := by
      unfold busStep wrAnswer at hst
      rw [hph] at hst
      cases a <;> simp_all [Answer.positive, hs.sr, hs.cr]
    refine ⟨hs.fault, hs.budget, hs.prog, hs.pc, hs.got, hs.result, hs.buf, ?_, hs.cr, ?_, ?_, hs.last⟩
    · simp [lastByteAckedHold]
    · simp [lastByteAckedHold, hs.sr]
    · simpa [lastByteAckedHold, rdBytes] using hs.bytes

/-- The slave drives a byte that is not the last (41_bus_sequencer R139). -/
theorem FairRun.byteReceived (hf : FairRun run) {k : Nat} {w : Waiter} {r : Byte} (hx : At prog x (run k))
    (hop : prog[x.pc]? = some (pollOp .rxne w)) (hp : x.phase = .transferring .R r) (h0 : r ≠ 0#8) (h1 : r ≠ 1#8)
    (ht : x.sr.rxne = false) (hg : x.got = x.bs.length) :
    ∃ b i, k ≤ i ∧ At prog { x with
      phase := .transferring .R (r - 1), sr := { x.sr with rxne := true }, bs := x.bs ++ [b] } (run i) := by
  have key := hf.busTo (D := fun t => ∃ b, At prog { x with
    phase := .transferring .R (r - 1), sr := { x.sr with rxne := true }, bs := x.bs ++ [b] } t) hx hop ht ?_ ?_
  · obtain ⟨i, hi, b, h⟩ := key
    exact ⟨b, i, hi, h⟩
  · intro s hs
    refine ⟨.rdByte 0, rfl, ?_⟩
    have hph := hs.phase.trans hp
    unfold busStep rdAnswer
    rw [hph]
    simp [hs.sr, ht, h0, h1]
  · intro s t a hs ha hst
    have hph := hs.phase.trans hp
    obtain ⟨b, rfl, rfl⟩ : ∃ b, a = .rdByte b ∧ t = byteReceivedMore b r s := by
      unfold busStep rdAnswer at hst
      rw [hph] at hst
      cases a <;> simp_all [Answer.positive, hs.sr]
    refine ⟨b, hs.fault, hs.budget, hs.prog, hs.pc, hs.got, hs.result, ?_, ?_, hs.cr, ?_, ?_, ?_⟩
    · intro k hk
      have hlt : k < x.bs.length := by rw [← hg]; exact hk
      rw [List.getElem?_append_left hlt]
      exact hs.buf k hk
    · simp [byteReceivedMore]
    · simp [byteReceivedMore, receive, hs.sr]
    · simp only [byteReceivedMore, receive, setPhase_hist, emit_hist, setRxne_hist, rdBytes_append, hs.bytes]
      rfl
    · intro _
      simp [byteReceivedMore, receive]

/-- The slave drives the last byte of a read phase with auto-stop (41_bus_sequencer R141). -/
theorem FairRun.lastByteReceived (hf : FairRun run) {k : Nat} {w : Waiter} (hx : At prog x (run k))
    (hop : prog[x.pc]? = some (pollOp .rxne w)) (hp : x.phase = .transferring .R 1) (ht : x.sr.rxne = false)
    (hae : x.cr.autoend = true) (hg : x.got = x.bs.length) :
    ∃ b i, k ≤ i ∧ At prog { x with phase := .idle, sr := { x.sr with rxne := true }, bs := x.bs ++ [b] } (run i) := by
  have key := hf.busTo (D := fun t => ∃ b, At prog { x with
    phase := .idle, sr := { x.sr with rxne := true }, bs := x.bs ++ [b] } t) hx hop ht ?_ ?_
  · obtain ⟨i, hi, b, h⟩ := key
    exact ⟨b, i, hi, h⟩
  · intro s hs
    refine ⟨.rdByte 0, rfl, ?_⟩
    have hph := hs.phase.trans hp
    unfold busStep rdAnswer
    rw [hph]
    simp [hs.sr, ht]
  · intro s t a hs ha hst
    have hph := hs.phase.trans hp
    obtain ⟨b, rfl, rfl⟩ : ∃ b, a = .rdByte b ∧ t = lastByteReceivedStop b s := by
      unfold busStep rdAnswer at hst
      rw [hph] at hst
      cases a <;> simp_all [Answer.positive, hs.sr, hs.cr]
    refine ⟨b, hs.fault, hs.budget, hs.prog, hs.pc, hs.got, hs.result, ?_, ?_, hs.cr, ?_, ?_, ?_⟩
    · intro k hk
      have hlt : k < x.bs.length := by rw [← hg]; exact hk
      rw [List.getElem?_append_left hlt]
      exact hs.buf k hk
    · simp [lastByteReceivedStop]
    · simp [lastByteReceivedStop, receive, hs.sr]
    · simp only [lastByteReceivedStop, receive, setPhase_hist, emit_hist, setRxne_hist, rdBytes_append, hs.bytes]
      simp [rdBytes]
    · intro _
      simp [lastByteReceivedStop, receive]

/-- The host writes a data byte (40_register_access R109). -/
theorem FairRun.sendData (hf : FairRun run) {k : Nat} {b r : Byte} (hx : At prog x (run k))
    (hop : prog[x.pc]? = some (accessOp (writeAccess offTXDR 4 (wordOf b)) .none))
    (hp : x.phase = .transferring .W r) (ht : x.sr.txis = true) :
    ∃ i, k ≤ i ∧ At prog { x with pc := x.pc + 1, sr := { x.sr with txis := false } } (run i) := by
  refine hf.hostTo hx hop (by simp [Spot.blocked, hp, ht]) ?_
  intro s hs hm
  have h' := hs.afterTake
  rw [hs.access hm hop (decode_writeTxdr _)]
  have hx : s.afterTake.sr.txis = true := by rw [h'.sr]; exact ht
  have he : exec (.writeTxdr (wordOf b)) s.afterTake =
      .next (setTxis false { s.afterTake with txdr := byteOf (wordOf b) }) := by
    simp only [exec, execWriteTxdr]
    rw [whileLive_live h'.fault, if_pos hx]
  refine ⟨_, by rw [he, onNext_live (by exact h'.fault)]; rfl, ?_⟩
  exact ⟨h'.fault, h'.budget, h'.prog, congrArg (· + 1) h'.pc, h'.got, h'.result, h'.buf, h'.phase, h'.cr,
    by simp [h'.sr], h'.bytes, h'.last⟩

/-- The host's RESTART of a read phase (40_register_access R103). -/
theorem FairRun.restart (hf : FairRun run) {k : Nat} {v : Word} {c : CrFields} (hx : At prog x (run k))
    (hop : prog[x.pc]? = some (accessOp (writeAccess offCR 4 v) .none)) (hp : x.phase = .completing)
    (ht : x.sr = ⟨false, false, true⟩) (h1 : decodeCR v = c) (h2 : crMbz v = 0)
    (h3 : c.start = true) (h4 : c.stop = false) (h5 : c.nbytes ≠ 0) (h6 : c.rdWrn = true) :
    ∃ i, k ≤ i ∧ At prog { x with
      pc := x.pc + 1, phase := .addressing .R, cr := ⟨c.sadd, true, c.nbytes, c.autoend⟩,
      sr := ⟨false, false, false⟩ } (run i) := by
  refine hf.hostTo hx hop (by simp [Spot.blocked, hp]) ?_
  intro s hs hm
  have h' := hs.afterTake
  rw [hs.access hm hop (decode_writeCr _)]
  have hph := h'.phase.trans hp
  have hsr := h'.sr.trans ht
  have hcf : crFault v s.afterTake = none := by
    refine crFault_none_of h2 (by rw [hph]; rfl) ?_ ?_ ?_
    · rw [h1, h4]; simp
    · rw [h1, h4]; simp
    · intro _
      rw [h1, hsr]
      exact ⟨h5, rfl⟩
  have he : exec (.writeCr v) s.afterTake = .next (restartCondition c (latchCr c s.afterTake)) := by
    simp only [exec]
    rw [execWriteCr_accepted h'.fault hcf, h1]
    unfold crAct
    simp [hph, h3]
  refine ⟨_, by rw [he, onNext_live (by exact h'.fault)]; rfl, ?_⟩
  refine ⟨h'.fault, h'.budget, h'.prog, congrArg (· + 1) h'.pc, h'.got, h'.result, h'.buf, ?_, ?_, ?_, ?_, ?_⟩
  · simp [restartCondition, h6, dirOf]
  · simp [restartCondition, latchCr, h6]
  · simp [restartCondition, hsr]
  · simpa [restartCondition, rdBytes, latchCr] using h'.bytes
  · simp [restartCondition, hsr]

/-- The host takes a received byte (40_register_access R111); what it does with the byte decides where that leads. -/
theorem FairRun.takeByte (hf : FairRun run) {k : Nat} {d : Dest} {D : State → Prop} (hx : At prog x (run k))
    (hop : prog[x.pc]? = some (accessOp (readAccess offRXDR 4) d)) (hp : x.blocked = true) (hr : x.sr.rxne = true)
    (hD : ∀ u, At prog { x with sr := { x.sr with rxne := false } } u → x.bs.getLast? = some (byteOf u.rdata) →
      ∃ t, finishAccess d u = .next t ∧ D t) : ∃ i, k ≤ i ∧ D (run i) := by
  refine hf.byHost (C := At prog x) hx (fun s ms hs => ⟨hs.fault, hs.moves ms⟩) ?_ ?_
  · intro s hs hm
    have h' := hs.afterTake
    have hrx : s.afterTake.sr.rxne = true := by rw [h'.sr]; exact hr
    rw [hs.access hm hop decode_readRxdr]
    have he : exec .readRxdr s.afterTake =
        .next (setRxne false (returnWord (wordOf s.afterTake.rxdr) s.afterTake)) := by
      simp only [exec, execReadRxdr]
      rw [whileLive_live h'.fault, if_pos hrx]
    rw [he, onNext_live (by exact h'.fault)]
    refine hD _ ⟨h'.fault, h'.budget, h'.prog, h'.pc, h'.got, h'.result, h'.buf, h'.phase, h'.cr, by simp [h'.sr],
      h'.bytes, by simp⟩ ?_
    show _ = some (byteOf (wordOf s.afterTake.rxdr))
    rw [byteOf_wordOf]
    exact h'.last hrx
  · intro s hs hh hr hp'
    exact hs.idleMove hop hh hr (fun a ha => hs.blocked hp (hp' a ha))

end Sys2Proof.Machine
end

