-- ==== Sys2Proof/Laws/PerInstr.lean ====
section
/-! SUPPORT. Facts about every instruction as syntax, one lemma per constructor. -/

namespace Sys2Proof.Laws.AccessRoundTrip

/-- The host access that asks for an instruction decodes to it (30_encoding R71, 40_register_access R100). -/
def Statement (i : Instr) : Prop := decodeAccess (encodeAccess i) = .ok i

theorem writeCr (v : Word) : Statement (.writeCr v) := by
  simp [Statement, decodeAccess, encodeAccess, opcode, dataWord, accessWord, decodeWord]

theorem readCr : Statement .readCr := by
  simp [Statement, decodeAccess, encodeAccess, opcode, dataWord, accessWord, decodeWord]

theorem readSr : Statement .readSr := by
  simp [Statement, decodeAccess, encodeAccess, opcode, dataWord, accessWord, decodeWord]

theorem writeSr (v : Word) : Statement (.writeSr v) := by
  simp [Statement, decodeAccess, encodeAccess, opcode, dataWord, accessWord, decodeWord]

theorem writeTxdr (v : Word) : Statement (.writeTxdr v) := by
  simp [Statement, decodeAccess, encodeAccess, opcode, dataWord, accessWord, decodeWord]

theorem readTxdr : Statement .readTxdr := by
  simp [Statement, decodeAccess, encodeAccess, opcode, dataWord, accessWord, decodeWord]

theorem readRxdr : Statement .readRxdr := by
  simp [Statement, decodeAccess, encodeAccess, opcode, dataWord, accessWord, decodeWord]

theorem writeRxdr (v : Word) : Statement (.writeRxdr v) := by
  simp [Statement, decodeAccess, encodeAccess, opcode, dataWord, accessWord, decodeWord]

end Sys2Proof.Laws.AccessRoundTrip
end

