-- ==== Sys2Proof/Tests/Slice0.lean ====
section
/-! SUPPORT. The model's own tests: well-formedness, words written out from the spec's encodings, one-step vectors of
95_test_vectors (each named in its comment), and for each obligation with hypotheses a witness that meets them. -/

namespace Sys2Proof.Tests

open Sys2Proof Sys2Proof.Machine

/-! ## Fixtures -/

/-- The default configuration at a concrete base address, so that states can be compared by evaluation. -/
def cfg0 : Config := { Config.default with baseHigh := 0x10001500 }

/-- The default start state of 95_test_vectors section 1. -/
def base : State := { State.reset with cfg := cfg0 }

/-- The start state with a phase, a control register and flags. -/
def blk (p : Phase) (c : ControlReg) (r : StatusReg) : State := { base with phase := p, cr := c, sr := r }

/-- A control register with NBYTES and AUTOEND, SADD 0x03C and a direction. -/
def ctl (rd : Bool) (n : Byte) (ae : Bool) : ControlReg := ⟨0x03C, rd, n, ae⟩

/-- No flag set. -/
def low : StatusReg := ⟨false, false, false⟩

/-- `s` with these moves to come. -/
def coming (ms : List Move) (s : State) : State := { s with moves := ms }

/-- `s` with the host at the first of these statements, and the host moving next. -/
def hosting (ops : List Op) (s : State) : State :=
  { onDriver (fun d => { d with prog := ops, pc := 0 }) s with moves := [.host] }

/-- The next state, if there is one. -/
def after (o : StepOutcome) : Option State :=
  match o with
  | .next s    => some s
  | .fault _   => none
  | .refused _ => none

/-- The fault a next state carries. -/
def faultOf (o : StepOutcome) : Option FaultCode := (after o).bind (·.fault)

/-- The stop of an outcome that is a stop. -/
def stopOf (o : StepOutcome) : Option Fault :=
  match o with
  | .next _    => none
  | .fault r   => some r
  | .refused _ => none

/-- The instruction of a decoding, if there is one. -/
def instrOf (r : Except DecodeError (Instr × List Byte)) : Option Instr :=
  match r with
  | .ok (i, _) => some i
  | .error _   => none

/-- The error of a decoding, if there is one. -/
def errorOf (r : Except DecodeError Instr) : Option DecodeError :=
  match r with
  | .ok _    => none
  | .error e => some e

/-! ## Well-formedness: each check refuses an ill-formed term -/

theorem test_wf_access : Access.wf ⟨false, 0x18, 4, 0⟩ = true ∧ Access.wf ⟨true, 0x28, 4, 0xFFFFFFFF⟩ = true := by decide
theorem test_wf_access_width : Access.wf ⟨false, 0x18, 1, 0⟩ = false := by decide
theorem test_wf_access_offset : Access.wf ⟨false, 0x2C, 4, 0⟩ = false ∧ Access.wf ⟨false, 0x19, 4, 0⟩ = false := by decide
theorem test_wf_instr : Instr.wf (.writeCr 0xFFFFFFFF) = true ∧ Instr.wf .readRxdr = true := by decide
theorem test_wf_config : Config.wf { cfg0 with pollBudget := some 1 } = true ∧ Config.wf cfg0 = true := by decide
theorem test_wf_config_budget : Config.wf { cfg0 with pollBudget := some 0 } = false := by decide
theorem test_wf_start_args :
    Stmt.wf (.startWrite 0x3FF 255) = true ∧ Stmt.wf (.startRead 0 1 true) = true := by decide
theorem test_wf_start_address : Stmt.wf (.startWrite 0x400 1) = false ∧ Stmt.wf (.beginRead 0x400 1 true) = false := by
  decide
theorem test_wf_start_count : Stmt.wf (.startRead 0x03C 0 true) = false ∧ Stmt.wf (.beginWrite 0x03C 256) = false := by
  decide
theorem test_wf_burst : Stmt.wf (.readBurst 0x68 0) = false ∧ Stmt.wf (.readBurst 0x68 256) = false ∧
    Stmt.wf (.readBurst 0x68 255) = true := by decide
theorem test_wf_body : Stmt.wf (.repeatN 2 [.readSR, .readBurst 0x68 0]) = false ∧
    Stmt.wf (.forever [.startWrite 0x400 1]) = false := by decide
theorem test_wf_jump : progWf [⟨false, .delay 0⟩, ⟨false, .jumpBack 2⟩] = false ∧
    progWf [⟨false, .delay 0⟩, ⟨false, .jumpBack 1⟩] = true := by decide

/-! ## Decoding: container words written out from 30_encoding R71 (we : off), data words least significant byte first -/

theorem test_decode_writeCr :      -- aw = 1_0000_0100, V-E1
    instrOf (decode [0b00000100, 0b00000001, 0x3C, 0x20, 0x01, 0x00]) = some (.writeCr 0x0001203C) := by decide
theorem test_decode_readCr :       -- aw = 0_0000_0100
    instrOf (decode [0b00000100, 0b00000000]) = some .readCr := by decide
theorem test_decode_readSr :       -- aw = 0_0001_1000, V-E2
    instrOf (decode [0b00011000, 0b00000000]) = some .readSr := by decide
theorem test_decode_writeSr :      -- aw = 1_0001_1000
    instrOf (decode [0b00011000, 0b00000001, 0x01, 0x00, 0x00, 0x80]) = some (.writeSr 0x80000001) := by decide
theorem test_decode_writeTxdr :    -- aw = 1_0010_1000
    instrOf (decode [0b00101000, 0b00000001, 0x68, 0x01, 0x00, 0x00]) = some (.writeTxdr 0x00000168) := by decide
theorem test_decode_readTxdr :     -- aw = 0_0010_1000
    instrOf (decode [0b00101000, 0b00000000]) = some .readTxdr := by decide
theorem test_decode_readRxdr :     -- aw = 0_0010_0100
    instrOf (decode [0b00100100, 0b00000000]) = some .readRxdr := by decide
theorem test_decode_writeRxdr :    -- aw = 1_0010_0100
    instrOf (decode [0b00100100, 0b00000001, 0xFF, 0x00, 0x00, 0x00]) = some (.writeRxdr 0x000000FF) := by decide

theorem test_decode_table_words :  -- the same words as numbers, bit 0 least significant, operand words of zeros
    decodeTableWord 16 0x0104 = some (.writeCr 0) ∧ decodeTableWord 16 0x0004 = some .readCr ∧
    decodeTableWord 16 0x0018 = some .readSr ∧ decodeTableWord 16 0x0118 = some (.writeSr 0) ∧
    decodeTableWord 16 0x0128 = some (.writeTxdr 0) ∧ decodeTableWord 16 0x0028 = some .readTxdr ∧
    decodeTableWord 16 0x0024 = some .readRxdr ∧ decodeTableWord 16 0x0124 = some (.writeRxdr 0) := by decide

theorem test_decode_rejects :      -- V-E3, V-E4, V-E5, an offset beyond the access word
    errorOf (decodeAccess ⟨false, 0x2C, 4, 0⟩) = some .unmapped ∧
    errorOf (decodeAccess ⟨false, 0x18, 1, 0⟩) = some .badWidth ∧
    errorOf (decodeAccess ⟨false, 0x19, 4, 0⟩) = some .misaligned ∧
    errorOf (decodeAccess ⟨true, 0x104, 4, 0⟩) = some .offTooLarge := by decide
theorem test_decode_container_rejects : instrOf (decode [0x18, 0x02]) = none ∧ instrOf (decode [0x18]) = none ∧
    instrOf (decode [0x04, 0x01, 0x3C, 0x20, 0x01]) = none ∧ instrOf (decode []) = none := by decide

theorem test_encode : encode (.writeCr 0x0206243C) = [0x04, 0x01, 0x3C, 0x24, 0x06, 0x02] ∧ encode .readRxdr = [0x24, 0x00] := by
  decide

theorem test_encodeCR :            -- V-E6, V-E7, V-E8, V-E9
    encodeCR ⟨0x03C, false, true, false, 1, false⟩ = 0x0001203C ∧ encodeCR ⟨0x03C, true, true, false, 6, true⟩ = 0x0206243C ∧
    encodeCR ⟨0x03C, true, true, false, 255, true⟩ = 0x02FF243C ∧
    encodeCR ⟨0x3FF, true, true, true, 0xFF, true⟩ = 0x02FF67FF := by decide
theorem test_decodeCR :            -- V-E10, V-E11, V-E12
    decodeCR 0x0206243C = ⟨0x03C, true, true, false, 6, true⟩ ∧ crMbz 0x0206243C = 0 ∧
    decodeCR 0xFFFFFFFF = ⟨0x3FF, true, true, true, 0xFF, true⟩ ∧ crMbz 0xFFFFFFFF = 0xFD009800 ∧
    decodeCR 0x00004000 = ⟨0, false, false, true, 0, false⟩ := by decide

/-! ## One access (95_test_vectors 3.2) -/

theorem test_writeCr_effects :     -- V-A1, V-A12, V-A13 and V-A14, V-A16
    (after (exec (.writeCr 0x0001203C) base)).map (fun t => (t.cr, t.hist, t.phase, t.fault)) =
      some (⟨0x03C, false, 1, false⟩, [.start 0x03C .W], .addressing .W, none) ∧
    (after (exec (.writeCr 0x0201243C) (blk .completing (ctl false 1 false) ⟨false, false, true⟩))).map
      (fun t => (t.sr.tc, t.hist, t.phase, t.cr.autoend)) = some (false, [.restart 0x03C .R], .addressing .R, true) ∧
    (after (exec (.writeCr 0x00004000) (blk .completing (ctl true 1 false) ⟨false, true, true⟩))).map
      (fun t => (t.sr, t.hist, t.phase, t.cr)) = some (⟨false, true, false⟩, [.stop], .idle, ⟨0, false, 0, false⟩) ∧
    (after (exec (.writeCr 0x0000003C) base)).map (fun t => (t.cr.sadd, t.phase, t.hist)) = some (0x03C, .idle, []) := by
  decide
theorem test_writeCr_faults :      -- V-A2 to V-A11, V-A15
    faultOf (exec (.writeCr 0x0001603C) base) = some .startAndStop ∧
    faultOf (exec (.writeCr 0x0000203C) base) = some .nbytesZero ∧
    faultOf (exec (.writeCr 0x0001283C) base) = some .crReserved ∧
    faultOf (exec (.writeCr 0xFF01203C) base) = some .crReserved ∧
    faultOf (exec (.writeCr 0x0000003C) (blk (.transferring .W 1) (ctl false 1 false) ⟨true, false, false⟩)) = some .crBusy ∧
    faultOf (exec (.writeCr 0x0001683C) (blk (.transferring .W 1) (ctl false 1 false) low)) = some .crReserved ∧
    faultOf (exec (.writeCr 0x0001603C) (blk (.transferring .R 2) (ctl true 2 true) low)) = some .crBusy ∧
    faultOf (exec (.writeCr 0x00004000) base) = some .stopNotHeld ∧
    faultOf (exec (.writeCr 0x0001203C) (blk .idle (ctl true 1 true) ⟨false, true, false⟩)) = some .rxPending ∧
    faultOf (exec (.writeCr 0x0000603C) (blk .completing (ctl false 1 false) ⟨false, false, true⟩)) = some .startAndStop ∧
    faultOf (exec (.writeCr 0x0201243C) (blk .completing (ctl true 1 false) ⟨false, true, true⟩)) = some .rxPending := by
  decide
theorem test_readCr :              -- V-A17, V-A18
    (after (exec .readCr (blk (.addressing .R) (ctl true 1 true) low))).map (·.rdata) = some 0x0201043C ∧
    (after (exec .readCr base)).map (·.rdata) = some 0 := by decide
theorem test_readSr :              -- V-A20, whatever is drawn for the other bits
    ∃ t, exec .readSr (blk .completing (ctl true 1 false) ⟨false, true, true⟩) = .next t ∧
      t.rdata.getLsbD 1 = false ∧ t.rdata.getLsbD 2 = true ∧ t.rdata.getLsbD 6 = true ∧ t.sr = ⟨false, true, true⟩ :=
  ⟨_, rfl, flagSeen_srWord .txis _ _, flagSeen_srWord .rxne _ _, flagSeen_srWord .tc _ _, rfl⟩
theorem test_readOnly :            -- V-A21, V-A29
    faultOf (exec (.writeSr 0) base) = some .roWrite ∧ faultOf (exec (.writeRxdr 0) base) = some .roWrite := by decide
theorem test_writeTxdr :           -- V-A22
    (after (exec (.writeTxdr 0x00000168) (blk (.transferring .W 2) (ctl false 2 false) ⟨true, false, false⟩))).map
      (fun t => (t.txdr, t.sr.txis, t.fault)) = some (0x68, false, none) := by decide
theorem test_writeTxdr_not_ready : -- V-A23, V-A24
    faultOf (exec (.writeTxdr 0) (blk (.transferring .W 2) (ctl false 2 false) low)) = some .txNotReady ∧
    faultOf (exec (.writeTxdr 0x4F) (blk (.addressing .W) (ctl false 1 false) low)) = some .txNotReady := by decide
theorem test_readTxdr :            -- V-A25
    (after (exec .readTxdr { base with txdr := 0x68 })).map (·.rdata) = some 0x00000068 := by decide
theorem test_readRxdr :            -- V-A26
    (after (exec .readRxdr { blk .idle (ctl true 1 true) ⟨false, true, false⟩ with rxdr := 0xFF })).map
      (fun t => (t.rdata, t.sr.rxne)) = some (0x000000FF, false) := by decide
theorem test_readRxdr_empty :      -- V-A28
    faultOf (exec .readRxdr base) = some .rxEmpty := by decide

/-! ## One bus step (95_test_vectors 3.3) -/

theorem test_bus_address :         -- V-B1, V-B2, V-B3
    (busStep (.addrResp .ack) (blk (.addressing .W) (ctl false 2 false) low)).map (fun t => (t.phase, t.sr.txis, t.hist)) =
      some (.transferring .W 2, true, [.addrAck]) ∧
    (busStep (.addrResp .ack) (blk (.addressing .R) (ctl true 6 true) low)).map (fun t => (t.phase, t.sr)) =
      some (.transferring .R 6, low) ∧
    (busStep (.addrResp .nack) (blk (.addressing .R) (ctl true 6 true) low)).map (fun t => (t.phase, t.sr, t.hist)) =
      some (.idle, low, [.addrNack, .stop]) := by decide
theorem test_bus_written :         -- V-B4, V-B5, V-B6, V-B7
    (busStep (.wrResp .ack) { blk (.transferring .W 2) (ctl false 2 false) low with txdr := 0x60 }).map
      (fun t => (t.phase, t.sr.txis, t.hist)) = some (.transferring .W 1, true, [.wr 0x60 .ack]) ∧
    (busStep (.wrResp .ack) { blk (.transferring .W 1) (ctl false 1 false) low with txdr := 0x4F }).map
      (fun t => (t.phase, t.sr, t.hist)) = some (.completing, ⟨false, false, true⟩, [.wr 0x4F .ack]) ∧
    (busStep (.wrResp .ack) (blk (.transferring .W 1) (ctl false 1 true) low)).map
      (fun t => (t.phase, t.sr.tc, t.hist)) = some (.idle, false, [.wr 0 .ack, .stop]) ∧
    (busStep (.wrResp .nack) { blk (.transferring .W 2) (ctl false 2 false) low with txdr := 0x60 }).map
      (fun t => (t.phase, t.sr.txis, t.hist)) = some (.idle, false, [.wr 0x60 .nack, .stop]) := by decide
theorem test_bus_received :        -- V-B8, V-B9, V-B10
    (busStep (.rdByte 0xAB) (blk (.transferring .R 2) (ctl true 2 true) low)).map
      (fun t => (t.rxdr, t.sr.rxne, t.phase, t.hist)) = some (0xAB, true, .transferring .R 1, [.rd 0xAB .ack]) ∧
    (busStep (.rdByte 0x10) (blk (.transferring .R 1) (ctl true 1 false) low)).map
      (fun t => (t.rxdr, t.sr, t.phase, t.hist)) = some (0x10, ⟨false, true, true⟩, .completing, [.rd 0x10 .nack]) ∧
    (busStep (.rdByte 0x48) (blk (.transferring .R 1) (ctl true 1 true) low)).map
      (fun t => (t.rxdr, t.sr.rxne, t.phase, t.hist)) = some (0x48, true, .idle, [.rd 0x48 .nack, .stop]) := by decide
theorem test_bus_not_enabled :     -- V-B11, V-B12, V-B13
    (busStep (.rdByte 0) (blk (.transferring .R 3) (ctl true 3 true) ⟨false, true, false⟩)).isSome = false ∧
    (busStep (.wrResp .ack) (blk (.transferring .W 1) (ctl false 1 false) ⟨true, false, false⟩)).isSome = false ∧
    (busStep .abort base).isSome = false := by decide
theorem test_bus_abort :           -- V-B14, V-B15
    (busStep .abort (blk .completing (ctl false 1 false) ⟨false, false, true⟩)).map (fun t => (t.phase, t.sr, t.hist)) =
      some (.idle, low, [.abort]) ∧
    (busStep .abort { blk (.transferring .R 4) (ctl true 6 true) ⟨false, true, false⟩ with rxdr := 0x03 }).map
      (fun t => (t.phase, t.sr.rxne, t.rxdr)) = some (.idle, true, 0x03) := by decide
theorem test_wire :                -- V-B17, V-B18
    wireAddr7 .shifted 0x03C = 0x1E ∧ addressByte .shifted 0x03C .R = 0x3D ∧ addressByte .literal 0x03C .W = 0x78 := by decide

/-! ## One statement, samples, reset (95_test_vectors 3.4 to 3.6) -/

theorem test_start_read :          -- V-C7
    startReadOps 0x03C 255 false = [⟨false, .access ⟨true, 0x04, 4, 0x00FF243C⟩ .none⟩] := by decide
theorem test_start_args :          -- V-C5, V-C6, V-D7
    startWriteOps 0x03C 0 = [⟨false, .argFault⟩] ∧ startWriteOps 0x400 1 = [⟨false, .argFault⟩] ∧
    readBurstOps cfg0 0x68 256 = [⟨true, .argFault⟩] := by decide
theorem test_argument_fault :      -- V-D6: F11 and no access
    (after (step (hosting (readBurstOps cfg0 0x68 0) base))).map (fun t => (t.fault, t.hist, t.phase)) =
      some (some .argRange, [], .idle) := by decide
theorem test_bad_access :          -- V-E3 as a statement at a host address
    faultOf (step (hosting (expand cfg0 [.memRead (hostAddr cfg0 0x2C) 4]) base)) = some .badAccess := by decide
theorem test_probe_diagnostic :    -- V-D3: E2 is recorded, the value is returned
    (checkReadback (some 0x00) 0x5A Driver.reset).diags = [⟨0x5A, 0x00⟩] ∧
    (checkReadback none 0x5A Driver.reset).diags = [] := by decide
theorem test_decode_sample :       -- V-D13, V-D14, V-D15
    s16 (decodeSample 0xFF 0xFF 0 0 0 0).x = -1 ∧ s16 (decodeSample 0x00 0x80 0xFF 0x7F 0x01 0x00).x = -32768 ∧
    s16 (decodeSample 0x00 0x80 0xFF 0x7F 0x01 0x00).z = 32767 ∧
    s16 (decodeSample 0x34 0x12 0x78 0x56 0xBC 0x9A).y = -25924 := by decide
theorem test_encode_sample :       -- V-D16, V-D17 (two's-complement patterns)
    encodeSample ⟨0xFFFF, 0x0002, 0xFFFE⟩ = [0xFF, 0xFF, 0xFE, 0xFF, 0x02, 0x00] ∧
    encodeSample ⟨0x8000, 0x7FFF, 0x0000⟩ = [0x00, 0x80, 0x00, 0x00, 0xFF, 0x7F] := by decide
theorem test_reset_move :          -- V-R1
    (after (step (coming [.reset] { blk (.transferring .R 3) (ctl true 6 true) ⟨false, true, false⟩ with txdr := 7 }))).map
      (fun t => (t.hist, t.phase, t.cr, t.sr, t.txdr)) = some ([.reset], .idle, ControlReg.reset, low, 0x00) := by decide
theorem test_halted :              -- V-F1
    stopOf (step (coming [.reset] { base with fault := some .rxEmpty })) = some (.halted .rxEmpty) := by decide
theorem test_repeat_and_forever :  -- 30_encoding R79
    expand cfg0 [.repeatN 2 [.readSR], .forever [.readSR, .delayMs 5]] =
      [accessOp (readAccess 0x18 4) .none, accessOp (readAccess 0x18 4) .none, accessOp (readAccess 0x18 4) .none,
       ⟨false, .delay 5⟩, ⟨false, .jumpBack 2⟩] := by decide
theorem test_memory_canonical : Memory.write (Memory.write [] 5 1) 3 2 = [(3, 2), (5, 1)] ∧
    Memory.write [(3, 2), (5, 1)] 5 9 = [(3, 2), (5, 9)] ∧ Memory.wf [(5, 1), (3, 2)] = false := by decide

/-! ## Witnesses: for each obligation with hypotheses, a concrete state and operands that meet them, clause by clause -/

/-- A state with a word waiting to be sent. -/
def txReady : State := blk (.transferring .W 2) (ctl false 2 false) ⟨true, false, false⟩

/-- A state with a received byte waiting. -/
def rxReady : State := { blk .idle (ctl true 1 true) ⟨false, true, false⟩ with rxdr := 0xFF, hist := [.rd 0xFF .nack] }

/-- A held bus after a write phase. -/
def held : State := { blk .completing (ctl false 1 false) ⟨false, false, true⟩ with hist := [.start 0x03C .W] }

theorem witness_AccessDecodeSelectsOrRaisesF01 : base.fault = none ∧ 
    (1 ≠ 4 ∨ ¬ ((0x18 : Word) = 0x04 ∨ (0x18 : Word) = 0x18 ∨ (0x18 : Word) = 0x24 ∨ (0x18 : Word) = 0x28)) ∧
    ¬ ((0x2C : Word) = 0x04 ∨ (0x2C : Word) = 0x18 ∨ (0x2C : Word) = 0x24 ∨ (0x2C : Word) = 0x28) ∧
    ¬ ((0x104 : Word) = 0x04 ∨ (0x104 : Word) = 0x18 ∨ (0x104 : Word) = 0x24 ∨ (0x104 : Word) = 0x28) := by decide

theorem witness_DecodeUndoesEncode : Instr.wf (.writeCr 0xFFFFFFFF) = true ∧ Instr.wf .readSr = true := by decide

theorem witness_EncodeUndoesDecode : decode [0x24, 0x00, 0xAA] = .ok (.readRxdr, [0xAA]) ∧
    decode [0x28, 0x01, 1, 2, 3, 4] = .ok (.writeTxdr 0x04030201, []) := ⟨rfl, rfl⟩

theorem witness_WriteCr_reserved : base.fault = none ∧ (0x00000800 : Word) &&& 0xFD009800#32 ≠ 0 ∧
    (0x80000000 : Word) &&& 0xFD009800#32 ≠ 0 := by decide

theorem witness_WriteCr_busy : (0x0000003C : Word) &&& 0xFD009800#32 = 0 ∧
    (blk (.addressing .R) (ctl true 1 true) low).fault = none ∧ txReady.fault = none ∧
    (blk (.addressing .R) (ctl true 1 true) low).phase = .addressing .R ∧ txReady.phase = .transferring .W 2 := by decide

theorem witness_WriteCr_checks : base.fault = none ∧ base.phase = .idle ∧ held.phase = .completing ∧
    (0x0001603C : Word) &&& 0xFD009800#32 = 0 ∧ (0x0001603C : Word).getLsbD 13 = true ∧
    (0x0001603C : Word).getLsbD 14 = true ∧
    (0x00004000 : Word) &&& 0xFD009800#32 = 0 ∧ (0x00004000 : Word).getLsbD 13 = false ∧
    (0x00004000 : Word).getLsbD 14 = true ∧
    (0x0000203C : Word) &&& 0xFD009800#32 = 0 ∧ (0x0000203C : Word).getLsbD 13 = true ∧
    (0x0000203C : Word).getLsbD 14 = false ∧ (0x0000203C : Word).extractLsb' 16 8 = 0#8 := by decide

theorem witness_WriteCr_pending : rxReady.fault = none ∧ rxReady.phase = .idle ∧ rxReady.sr.rxne = true ∧
    (0x0001203C : Word) &&& 0xFD009800#32 = 0 ∧ (0x0001203C : Word).getLsbD 13 = true ∧
    (0x0001203C : Word).getLsbD 14 = false ∧ (0x0001203C : Word).extractLsb' 16 8 ≠ 0#8 := by decide

theorem witness_StartInIdle : base.fault = none ∧ base.phase = .idle ∧ base.sr.rxne = false ∧
    (0x00FF203C : Word) &&& 0xFD009800#32 = 0 ∧ (0x00FF203C : Word).getLsbD 13 = true ∧
    (0x00FF203C : Word).getLsbD 14 = false ∧ (0x00FF203C : Word).extractLsb' 16 8 ≠ 0#8 := by decide

theorem witness_StartInCompleting : held.fault = none ∧ held.phase = .completing ∧ held.sr.rxne = false ∧
    (0x0201243C : Word) &&& 0xFD009800#32 = 0 ∧ (0x0201243C : Word).getLsbD 13 = true ∧
    (0x0201243C : Word).getLsbD 14 = false ∧ (0x0201243C : Word).extractLsb' 16 8 ≠ 0#8 := by decide

theorem witness_StopInCompleting : held.fault = none ∧ held.phase = .completing ∧
    (0x00004000 : Word) &&& 0xFD009800#32 = 0 ∧ (0x00004000 : Word).getLsbD 13 = false ∧
    (0x00004000 : Word).getLsbD 14 = true := by decide

theorem witness_CrWriteWithoutTrigger : base.fault = none ∧ base.phase = .idle ∧ held.fault = none ∧
    held.phase = .completing ∧ (0x02FF07FF : Word) &&& 0xFD009800#32 = 0 ∧ (0x02FF07FF : Word).getLsbD 13 = false ∧
    (0x02FF07FF : Word).getLsbD 14 = false := by decide

/-- ReadCrReturnsLatchedFields, ReadSrShowsFlagsAndClearsNone, ReadOnlyRegistersRefuseWrites,
ReadTxdrReturnsByteZeroExtended. -/
theorem witness_live : base.fault = none ∧ held.fault = none ∧ txReady.fault = none := by decide

theorem witness_WriteTxdr : txReady.fault = none ∧ txReady.sr.txis = true ∧ base.fault = none ∧ base.sr.txis = false := by
  decide

theorem witness_ReadRxdr : rxReady.fault = none ∧ rxReady.sr.rxne = true ∧ base.fault = none ∧ base.sr.rxne = false := by
  decide

/-- InstructionFrames: each instruction answers a next state. -/
theorem witness_InstructionFrames :
    (∃ t, exec (.writeCr 0x0001203C) base = .next t) ∧ (∃ t, exec .readCr base = .next t) ∧
    (∃ t, exec .readSr base = .next t) ∧ (∃ t, exec (.writeSr 0) base = .next t) ∧
    (∃ t, exec (.writeTxdr 7) txReady = .next t) ∧ (∃ t, exec .readTxdr base = .next t) ∧
    (∃ t, exec .readRxdr rxReady = .next t) ∧ (∃ t, exec (.writeRxdr 0) base = .next t) :=
  ⟨⟨_, rfl⟩, ⟨_, rfl⟩, ⟨_, rfl⟩, ⟨_, rfl⟩, ⟨_, rfl⟩, ⟨_, rfl⟩, ⟨_, rfl⟩, ⟨_, rfl⟩⟩

theorem witness_FaultIsFinal : ({ base with fault := some .crBusy } : State).fault = some .crBusy := by decide

theorem witness_FaultedAccess :
    (∃ t, exec .readRxdr base = .next t ∧ t.fault ≠ none) ∧
    ∃ t, step (hosting [accessOp (readAccess offRXDR 4) .none] base) = .next t ∧ t.fault ≠ none :=
  ⟨⟨_, rfl, by decide⟩, _, rfl, by decide⟩

/-- A step of each agent: NoStepRaisesReentrancy, StepKeepsBufferCanonical, HistoryOnlyGrows, StepKeepsConfiguration. -/
theorem witness_step :
    (∃ t, step (hosting [accessOp (writeAccess offCR 4 0x0001203C) .none] base) = .next t) ∧
    (∃ t, step (coming [.bus .abort] held) = .next t) ∧ (∃ t, step (coming [.reset] base) = .next t) ∧
    (∃ t, step (coming [.call [pollOp .txis .bare]] base) = .next t) ∧ base.drv.buf.wf = true :=
  ⟨⟨_, rfl⟩, ⟨_, rfl⟩, ⟨_, rfl⟩, ⟨_, rfl⟩, rfl⟩

theorem witness_AddressAnswers :
    (coming [.bus (.addrResp .ack)] (blk (.addressing .W) (ctl false 1 false) low)).fault = none ∧
    (coming [.bus (.addrResp .ack)] (blk (.addressing .W) (ctl false 1 false) low)).moves = .bus (.addrResp .ack) :: [] ∧
    (coming [.bus (.addrResp .ack)] (blk (.addressing .R) (ctl true 1 true) low)).phase = .addressing .R ∧
    (coming [.bus (.addrResp .nack)] (blk (.addressing .R) (ctl true 1 true) low)).moves =
      .bus (.addrResp .nack) :: [] := by decide

/-- The counter at its boundaries: 255, 2 and 1, with AUTOEND 0 and 1. -/
theorem witness_WrittenByteAnswers :
    (coming [.bus (.wrResp .ack)] (blk (.transferring .W 2) (ctl false 2 false) low)).fault = none ∧
    (coming [.bus (.wrResp .ack)] (blk (.transferring .W 2) (ctl false 2 false) low)).sr.txis = false ∧
    (coming [.bus (.wrResp .ack)] (blk (.transferring .W 2) (ctl false 2 false) low)).moves =
      .bus (.wrResp .ack) :: [] ∧ (2 : Byte) ≤ 2 ∧ (2 : Byte) ≤ 255 ∧ (1 : Byte) ≤ 1 ∧
    (blk (.transferring .W 1) (ctl false 1 false) low).cr.autoend = false ∧
    (blk (.transferring .W 1) (ctl false 1 true) low).cr.autoend = true := by decide

theorem witness_ReceivedByteSteps :
    (coming [.bus (.rdByte 5)] (blk (.transferring .R 255) (ctl true 255 true) low)).fault = none ∧
    (coming [.bus (.rdByte 5)] (blk (.transferring .R 255) (ctl true 255 true) low)).sr.rxne = false ∧
    (coming [.bus (.rdByte 5)] (blk (.transferring .R 1) (ctl true 1 true) low)).phase = .transferring .R 1 ∧
    (coming [.bus (.rdByte 5)] (blk (.transferring .R 1) (ctl true 1 true) low)).moves = .bus (.rdByte 5) :: [] ∧
    (blk (.transferring .R 1) (ctl true 1 true) low).cr.autoend = true ∧
    (blk (.transferring .R 1) (ctl true 1 false) low).cr.autoend = false := by decide

theorem witness_AbortEndsPhase : (coming [.bus .abort] held).fault = none ∧ (coming [.bus .abort] held).phase ≠ .idle ∧
    (coming [.bus .abort] held).moves = .bus .abort :: [] := by decide

theorem witness_EnabledAnswersAreTheTable : base.block.inv = true ∧ held.block.inv = true ∧ txReady.block.inv = true ∧
    (blk (.addressing .R) (ctl true 1 true) low).block.inv = true ∧
    (blk (.transferring .R 255) (ctl true 255 true) low).block.inv = true := by decide

theorem witness_DisabledAnswer : (coming [.bus (.rdByte 1)] base).fault = none ∧
    (coming [.bus (.rdByte 1)] base).moves = .bus (.rdByte 1) :: [] ∧
    busStep (.rdByte 1) (coming [.bus (.rdByte 1)] base) = none := ⟨rfl, rfl, rfl⟩

/-- StepKeepsBlockInvariant, StepKeepsHistoryBracketed, StepKeepsReceivedByteIntact, from a state outside Idle. -/
theorem witness_invariants : held.block.inv = true ∧ held.block.bracketed = true ∧ held.block.byteIntact = true ∧
    rxReady.block.byteIntact = true ∧ rxReady.sr.rxne = true ∧ ∃ t, step (coming [.bus .abort] held) = .next t :=
  ⟨rfl, rfl, rfl, rfl, rfl, _, rfl⟩

theorem witness_NextEndAfterStart :
    bracket [.start 0x03C .W, .addrAck, .stop, .start 0x03C .R] ≠ none ∧
    ([.start 0x03C .W, .addrAck, .stop, .start 0x03C .R] : List Event) =
      [] ++ .start 0x03C .W :: [.addrAck, .stop, .start 0x03C .R] := by decide

/-- FlagsChangeOnlyByTheirRules: a step that sets and one that clears each flag. -/
theorem witness_FlagsChange :
    (after (step (coming [.bus (.addrResp .ack)] (blk (.addressing .W) (ctl false 1 false) low)))).map (·.sr.txis) =
      some true ∧
    (after (step (hosting [accessOp (writeAccess offTXDR 4 7) .none] txReady))).map (·.sr.txis) = some false ∧
    (after (step (coming [.bus (.rdByte 5)] (blk (.transferring .R 2) (ctl true 2 true) low)))).map (·.sr.rxne) =
      some true ∧
    (after (step (hosting [accessOp (readAccess offRXDR 4) .none] rxReady))).map (·.sr.rxne) = some false ∧
    (after (step (coming [.bus (.wrResp .ack)] (blk (.transferring .W 1) (ctl false 1 false) low)))).map (·.sr.tc) =
      some true ∧
    (after (step (hosting [accessOp (writeAccess offCR 4 0x4000) .none] held))).map (·.sr.tc) = some false := by decide

theorem witness_UnreadByteSurvives : rxReady.sr.rxne = true ∧ (coming [.bus .abort] rxReady).nextMove ≠ .reset ∧
    (coming [.bus .abort] rxReady).nextMove ≠ .host ∧ ∃ t, step (coming [.bus .abort] rxReady) = .next t :=
  ⟨rfl, by decide, by decide, _, rfl⟩

theorem witness_HostCannotLeaveBusyPhase : txReady.phase.busy = true ∧
    ∃ t, step (coming [.bus .abort] txReady) = .next t ∧ t.phase ≠ txReady.phase := ⟨rfl, _, rfl, by decide⟩

theorem witness_StepRunsDecodedInstruction :
    (hosting [⟨true, .access (readAccess offTXDR 4) .value⟩] base).fault = none ∧
    (hosting [⟨true, .access (readAccess offTXDR 4) .value⟩] base).moves = .host :: [] ∧
    (hosting [⟨true, .access (readAccess offTXDR 4) .value⟩] base).drv.running = true ∧
    (hosting [⟨true, .access (readAccess offTXDR 4) .value⟩] base).drv.prog[0]? =
      some ⟨true, .access (readAccess offTXDR 4) .value⟩ ∧
    decodeAccess (readAccess offTXDR 4) = .ok .readTxdr ∧ Instr.readTxdr.wf = true :=
  ⟨rfl, rfl, rfl, rfl, rfl, rfl⟩

theorem witness_PlacedWordRunsNext : State.reset.fault = none ∧ decodeTableWord 16 0x0018 = some .readSr ∧
    decodeTableWord 48 0x0001203C0104 = some (.writeCr 0x0001203C) := by decide

/-- The polling host of PollStep, its flag 0 and 1. -/
def polling (b : Option Nat) (n : Nat) (r : StatusReg) : State :=
  { hosting [pollOp .tc .awaitTransferComplete] (blk .idle (ctl false 1 false) r) with
    moves := List.replicate n .host ++ [.reset]
    cfg   := { cfg0 with pollBudget := b } }

theorem witness_PollStep : (polling (some 1) 1 low).fault = none ∧ (polling (some 1) 1 low).moves = .host :: [.reset] ∧
    (polling (some 1) 1 low).drv.running = true ∧
    (polling (some 1) 1 low).drv.prog[0]? = some ⟨false, .poll .tc .awaitTransferComplete⟩ ∧
    (polling (some 1) 1 low).sr.flag .tc = false ∧ (polling none 1 ⟨false, false, true⟩).sr.flag .tc = true ∧
    (∀ b, (polling (some 3) 1 low).cfg.pollBudget = some b → 0 + 1 < b) :=
  ⟨rfl, rfl, rfl, rfl, rfl, rfl, fun b hb => by cases hb; decide⟩

theorem witness_TimeoutErrorIsTyped : 1 ≤ 1 ∧ (0 : Nat) = 0 := by decide

/-- PollTimesOutAfterExactlyBudget at budgets 1 and 3. -/
theorem witness_PollTimesOut : (polling (some 1) 1 low).fault = none ∧ 1 ≤ 1 ∧
    (polling (some 1) 1 low).cfg.pollBudget = some 1 ∧
    (polling (some 3) 3 low).moves = List.replicate 3 .host ++ [.reset] ∧ (polling (some 3) 3 low).drv.running = true ∧
    (polling (some 3) 3 low).drv.inWait = false ∧
    (polling (some 3) 3 low).drv.prog[0]? = some ⟨false, .poll .tc .awaitTransferComplete⟩ ∧
    (polling (some 3) 3 low).sr.flag .tc = false := ⟨rfl, by decide, rfl, rfl, rfl, rfl, rfl, rfl⟩

/-- The run of a state: its steps, staying where it stops. -/
def follow (s : State) : Nat → State
  | 0     => s
  | k + 1 => (after (step (follow s k))).getD (follow s k)

theorem follow_next {s t : State} {k : Nat} (h : step (follow s k) = .next t) : follow s (k + 1) = t := by
  rw [follow, h]; rfl

theorem follow_stop {s : State} {k : Nat} (h : ∀ t, step (follow s k) ≠ .next t) : follow s (k + 1) = follow s k := by
  rw [follow]
  cases hs : step (follow s k) with
  | next t => exact absurd hs (h t)
  | fault r => rfl
  | refused r => rfl

theorem follow_isRun (s : State) : IsRun (follow s) := by
  intro k
  by_cases h : ∃ t, step (follow s k) = .next t
  · obtain ⟨t, h⟩ := h
    exact .inl (by rw [follow_next h]; exact h)
  · exact .inr ⟨fun t e => h ⟨t, e⟩, follow_stop fun t e => h ⟨t, e⟩⟩

/-- A host waiting for TC while two bytes are still to be sent, an ACK and an answer that is not enabled between its
polls; and the last wait of a write phase with AUTOEND = 1. -/
def waiting (n : Byte) (ae : Bool) : State :=
  coming [.host, .bus (.wrResp .ack), .bus (.rdByte 1), .host]
    (hosting [pollOp .tc .awaitTransferComplete] (blk (.transferring .W n) (ctl false n ae) low))

theorem witness_PollWithoutBudget : ∀ x ∈ ([(2, false), (1, true)] : List (Byte × Bool)),
    IsRun (follow (waiting x.1 x.2)) ∧ (waiting x.1 x.2).fault = none ∧ (waiting x.1 x.2).cfg.pollBudget = none ∧
    (waiting x.1 x.2).drv.running = true ∧
    (waiting x.1 x.2).drv.prog[0]? = some ⟨false, .poll .tc .awaitTransferComplete⟩ ∧
    (∀ k, k < 4 → (follow (waiting x.1 x.2) k).nextMove ≠ .reset) ∧ (waiting x.1 x.2).sr.flag .tc = false ∧
    (waiting x.1 x.2).drv.inWait = false := by
  intro x hx
  refine ⟨follow_isRun _, rfl, rfl, rfl, rfl, fun k hk => ?_, rfl, rfl⟩
  simp only [List.mem_cons, List.not_mem_nil, or_false] at hx
  rcases hx with rfl | rfl <;>
    (match k, hk with
     | 0, _ | 1, _ | 2, _ | 3, _ => intro h; cases h)

/-- The flag stays 0 between the polls: an ACKed byte that is not the last, and an answer that is not enabled. -/
theorem witness_PollWithoutBudget_flag : ∀ k, k ≤ 3 → (follow (waiting 2 false) k).sr.flag .tc = false := by
  intro k hk
  match k, hk with
  | 0, _ | 1, _ | 2, _ | 3, _ => rfl

/-- The cases of a flag the phase can never set. -/
theorem witness_PollWithoutBudget_cases : (waiting 1 true).cr.autoend = true ∧ (polling none 4 low).phase = .idle ∧
    (held.phase = .completing ∧ held.sr.flag .txis = false) ∧
    (blk (.addressing .R) (ctl true 1 true) low).sr.flag .txis = false ∧
    (blk (.transferring .R 255) (ctl true 255 true) low).phase = .transferring .R 255 ∧
    (blk (.addressing .W) (ctl false 1 true) low).phase = .addressing .W ∧
    (blk (.transferring .W 255) (ctl false 255 false) low).sr.flag .rxne = false := ⟨rfl, rfl, ⟨rfl, rfl⟩, rfl, rfl, rfl, rfl⟩

theorem witness_StartPrimitives : 0x3FF ≤ 0x3FF ∧ 1 ≤ 1 ∧ 255 ≤ 255 ∧ (0x3FF < 0x400) ∧ (0 < 1) ∧ (255 < 256) ∧
    (hosting [⟨false, .argFault⟩] base).fault = none ∧ (hosting [⟨false, .argFault⟩] base).drv.running = true ∧
    (hosting [⟨false, .argFault⟩] base).moves = .host :: [] ∧
    (hosting [⟨false, .argFault⟩] base).drv.prog[0]? = some ⟨false, .argFault⟩ := by decide

theorem witness_TransactionExpansions : cfg0.slaveAddr = 0x03C ∧ 1 ≤ 1 ∧ 1 ≤ 255 ∧ (0 < 1) ∧ (255 < 256) := by decide

/-- A host about to take the byte waiting in RXDR, which goes to `d`, with a buffer and a count. -/
def taking (en : Bool) (d : Dest) (m : Memory) (got : Nat) : State :=
  { onDriver (fun r => { r with buf := m, got := got })
      (hosting [⟨en, .access (readAccess offRXDR 4) d⟩] (blk .idle (ctl true 1 true) ⟨false, true, false⟩)) with
    rxdr := 0xAB }

/-- The premises of HostDeliversTheWordRead, with and without the mark of a call. -/
theorem witness_HostDelivers : ∀ en ∈ [false, true], ∀ d ∈ ([.none, .buf 0, .buf 9, .value, .probe, .burst 1] : List Dest),
    (taking en d [] 0).fault = none ∧ (taking en d [] 0).moves = .host :: [] ∧ (taking en d [] 0).drv.running = true ∧
    (taking en d [] 0).drv.prog[0]? = some ⟨en, .access (readAccess offRXDR 4) d⟩ ∧
    decodeAccess (readAccess offRXDR 4) = .ok .readRxdr ∧
    (after (exec .readRxdr { taking en d [] 0 with moves := [] })).map (·.fault) = some none := by decide

/-- Its clauses on a burst: more to come, the last byte over a written buffer, and over one with a gap; and a fault. -/
theorem witness_HostDelivers_burst :
    (0 + 1 ≠ 2) ∧ (∀ j, j < 1 → (taking false (.burst 2) [(0, 1)] 1).drv.buf.read j ≠ none) ∧
    (taking false (.burst 3) [(0, 1)] 2).drv.buf.read 1 = none ∧ 1 < 2 ∧
    (∀ l, l < 1 → (taking false (.burst 3) [(0, 1)] 2).drv.buf.read l ≠ none) ∧
    faultOf (exec .readRxdr { taking false .value [] 0 with sr := low }) = some .rxEmpty := by decide

/-- 30_encoding R79 `read RXDR -> buf[i]`, and R80's buf[got]. -/
theorem test_store :
    (after (step (taking false (.buf 9) [(3, 7), (9, 1)] 0))).map (fun t => (t.drv.buf, t.drv.pc)) =
      some ([(3, 7), (9, 0xAB)], 1) ∧
    (after (step (taking false (.burst 2) [(0, 1)] 1))).map (fun t => (t.drv.buf, t.drv.got, t.drv.result)) =
      some ([(0, 1), (1, 0xAB)], 2, some (.bytes [1, 0xAB])) := by decide

theorem witness_StatementExpansions :
    (hosting [⟨false, .delay 0⟩] base).fault = none ∧ (hosting [⟨false, .delay 0⟩] base).moves = .host :: [] ∧
    (hosting [⟨false, .delay 0⟩] base).drv.running = true ∧
    (hosting [⟨false, .delay 0⟩] base).drv.prog[0]? = some ⟨false, .delay 0⟩ ∧
    (onDriver (fun d => { d with pc := 2 }) (hosting (expand cfg0 [.readSR, .forever [.delayMs 1]]) base)).drv.running =
      true ∧
    expand cfg0 [.readSR, .forever [.delayMs 1]] =
      [accessOp (readAccess offSR 4) .none] ++ Stmt.expand cfg0 (.forever [.delayMs 1]) ++ [] ∧
    2 = [accessOp (readAccess offSR 4) .none].length + (expand cfg0 [.delayMs 1]).length :=
  ⟨rfl, rfl, rfl, rfl, rfl, rfl, rfl⟩

theorem witness_EndedHostStops :
    (hosting [] base).fault = none ∧ (hosting [] base).moves = .host :: [] ∧
    (hosting [] base).drv.result = none ∧ (hosting [] base).drv.prog.length ≤ (hosting [] base).drv.pc ∧
    (onDriver (Driver.return (.error (.malformedBurst 2 6))) (hosting [] base)).drv.result =
      some (.error (.malformedBurst 2 6)) := by decide

theorem witness_CallsOnlyBetweenCalls :
    (coming [.call [pollOp .txis .bare]] base).fault = none ∧
    (coming [.call [pollOp .txis .bare]] base).moves = .call [pollOp .txis .bare] :: [] ∧
    (coming [.call [pollOp .txis .bare]] base).drv.running = false ∧
    (coming [.call []] (hosting [pollOp .txis .bare] base)).drv.running = true := by decide

/-- The moves of a read_register whose slave answers at once with `v`. -/
def readMoves (v : Byte) : List Move :=
  [.host, .bus (.addrResp .ack), .host, .host, .bus (.wrResp .ack), .host, .host, .bus (.addrResp .ack),
   .bus (.rdByte v), .host, .host]

/-- The moves of a write_register whose slave answers at once, its probe byte `v`. -/
def writeMoves (v : Byte) : List Move :=
  [.host, .bus (.addrResp .ack), .host, .host, .bus (.wrResp .ack), .host, .host, .bus (.wrResp .ack), .host, .host,
   .bus (.addrResp .ack), .bus (.rdByte v), .host, .host]

/-- The moves of a read_burst whose slave answers at once with `bs`. -/
def burstMoves (bs : List Byte) : List Move :=
  ([.host, .bus (.addrResp .ack), .host, .host, .bus (.wrResp .ack), .host, .host, .bus (.addrResp .ack)] : List Move) ++
    (bs.map fun b => ([.bus (.rdByte b), .host, .host] : List Move)).flatten

/-- The start state about to run `ops` with these moves, and one more after them. -/
def starting (ops : List Op) (ms : List Move) : State := coming (ms ++ [.host]) (hosting ops base)

/-- It is a clean start of them. -/
theorem starting_clean (ops : List Op) (ms : List Move) : (starting ops ms).clean = true ∧
    (starting ops ms).cfg.slaveAddr = 0x03C ∧ (starting ops ms).atStartOf ops ∧ (starting ops ms).moves = ms ++ [.host] :=
  ⟨rfl, rfl, ⟨rfl, rfl, rfl, rfl⟩, rfl⟩

/-- ReadRegisterReturnsSlaveByte, WriteRegisterReturnsProbeByte and, at the lengths 1 and 255,
ReadBurstReturnsBytesInOrder: each with its program and its moves. -/
theorem witness_transactions : ∀ x ∈ ([(readRegisterOps cfg0 0x4F, readMoves 0x48),
      (writeRegisterOps cfg0 0x60 0x00, writeMoves 0x5A), (readBurstOps cfg0 0x68 1, burstMoves [0x01]),
      (readBurstOps cfg0 0x68 255, burstMoves (List.replicate 255 0x01))] : List (List Op × List Move)),
    (starting x.1 x.2).clean = true ∧ (starting x.1 x.2).cfg.slaveAddr = 0x03C ∧ (starting x.1 x.2).atStartOf x.1 ∧
    (starting x.1 x.2).moves = x.2 ++ [.host] := fun x _ => starting_clean x.1 x.2

theorem witness_burst_lengths : 1 ≤ ([0x01] : List Byte).length ∧ ([0x01] : List Byte).length ≤ 255 ∧
    (List.replicate 255 (0x01 : Byte)).length = 255 := ⟨by decide, by decide, List.length_replicate⟩

/-- WriteRegisterReturnsProbeByte's last clauses: an expected byte, met and missed. -/
theorem witness_expected_readback : ({ cfg0 with expectedCfgReadback := some 0x00 } : Config).expectedCfgReadback =
    some 0x00 ∧ (0x00 : Byte) = 0x00 ∧ (0x5A : Byte) ≠ 0x00 ∧ cfg0.expectedCfgReadback = none := by decide

/-- A host about to decode a buffer, six bytes written, and one with index 5 unwritten. -/
def sampling (m : Memory) : State := onDriver (fun d => { d with buf := m }) (hosting [⟨false, .decodeSample⟩] base)

theorem witness_DecodeSample :
    (sampling [(0, 1), (1, 0), (2, 3), (3, 0), (4, 2), (5, 0)]).fault = none ∧
    (sampling [(0, 1), (1, 0), (2, 3), (3, 0), (4, 2), (5, 0)]).moves = .host :: [] ∧
    (sampling [(0, 1), (1, 0), (2, 3), (3, 0), (4, 2), (5, 0)]).drv.running = true ∧
    (sampling [(0, 1), (1, 0), (2, 3), (3, 0), (4, 2), (5, 0)]).drv.prog[0]? = some ⟨false, .decodeSample⟩ ∧
    (sampling [(0, 1), (1, 0), (2, 3), (3, 0), (4, 2), (5, 0)]).drv.buf.read 5 = some 0 ∧
    (sampling [(0, 1), (1, 0), (2, 3), (3, 0), (4, 2)]).drv.buf.read 5 = none ∧
    (∀ j, j < 5 → (sampling [(0, 1), (1, 0), (2, 3), (3, 0), (4, 2)]).drv.buf.read j ≠ none) ∧
    (sampling []).drv.buf.read 0 = none := by decide

theorem witness_HardwareReset : (coming [.reset] held).fault = none ∧ (coming [.reset] held).moves = .reset :: [] := by
  decide

/-! ### Runs that meet every premise of TransactionsEndUnderLiveBus: the slave answers at once, and the host asks once
more at its program's end, where it has no statement left -/

/-- Neither a reset nor an answer that a live bus agent does not give. -/
def Move.live : Move → Bool
  | .host   => true
  | .bus a  => a.positive
  | .reset  => false
  | .call _ => true

/-- A run of live moves that stops meets the premises. -/
theorem premises_of_halt {run : Nat → State} {n : Nat} (hr : IsRun run)
    (hm : ∀ k, k < n → Move.live (run k).nextMove = true) (hs : ¬ (run n).goesOn) :
    NoReset run ∧ BusLive run ∧ HostFair run := by
  have hlive : ∀ k m, (run k).takes m → Move.live m = true := by
    rintro k m ⟨rfl, hg⟩
    exact hm k (by by_contra h; rw [hr.stopped hs (show n ≤ k by omega)] at hg; exact hs hg)
  refine ⟨fun k h => ?_, ⟨fun k a h _ => hlive k _ h, (hr.stopped_fair hs).2⟩, (hr.stopped_fair hs).1⟩
  cases hlive k _ h

/-- The driver at statement `pc` of a program. -/
def driverAt (ops : List Op) (pc : Nat) : Driver := { Driver.reset with prog := ops, pc := pc }

/-- A state of such a run: its block, the word read last, the draws so far, the moves to come, the driver. -/
def spot (p : Phase) (c : ControlReg) (r : StatusReg) (tx rx : Byte) (h : List Event) (w : Word) (n : Nat)
    (ms : List Move) (d : Driver) : State :=
  { base with phase := p, cr := c, sr := r, txdr := tx, rxdr := rx, hist := h, rdata := w, draws := n, moves := ms, drv := d }

/-- The word of the n-th SR read. -/
def seen (n : Nat) (r : StatusReg) : Word := srWord (Config.freeWord n) r

/-- A poll whose flag is up. -/
theorem spot_poll {p : Phase} {c : ControlReg} {r : StatusReg} {tx rx : Byte} {h : List Event} {w : Word} {n pc : Nat}
    {ms : List Move} {ops : List Op} {f : Machine.Flag} {v : Waiter} (hop : ops[pc]? = some (pollOp f v))
    (hfl : r.flag f = true) : step (spot p c r tx rx h w n (.host :: ms) (driverAt ops pc)) =
      .next (spot p c r tx rx h (seen n r) (n + 1) ms (driverAt ops (pc + 1))) := by
  have hr : (driverAt ops pc).running = true := decide_eq_true (List.getElem?_eq_some_iff.1 hop).1
  rw [step_move (m := .host) (ms := ms) rfl rfl]
  simp only [stepMove]
  rw [hostStep_running (op := pollOp f v) (by exact hr) (by exact hop)]
  simp only [pollOp, runAct, perform_ok _ decode_readSr, entered, exec, execReadSr]
  simp [spot, driverAt, base, State.reset, finishPoll, onNext, whileLive, returnWord, countDraw, onDriver, pollOutcome,
    Driver.pollsSoFar, Driver.reset, Driver.advance, hfl, seen]

/-- The flags while a byte may be written. -/
def mayWrite : StatusReg := ⟨true, false, false⟩
/-- The flags once the last byte is sent. -/
def sent : StatusReg := ⟨false, false, true⟩
/-- The flags while a byte may be read. -/
def mayRead : StatusReg := ⟨false, true, false⟩

/-- HIST after these written bytes. -/
def histW (ws : List Byte) : List Event := .start 0x03C .W :: .addrAck :: ws.map fun b => Event.wr b .ack
/-- The first events of a read phase of one byte. -/
def histR (k : Nat) : List Event := [Event.restart 0x03C .R, .addrAck, .rd 0x48 .nack, .stop].take k

/-- The state `k` of a run whose program writes one byte, restarts and reads one: read_register, and read_burst of 1. -/
def shortRun (ops : List Op) (reg : Byte) (d : Driver) : Nat → State
  | 0  => spot .idle ControlReg.reset low 0 0 [] 0 0 (readMoves 0x48 ++ [.host]) (driverAt ops 0)
  | 1  => spot (.addressing .W) (ctl false 1 false) low 0 0 [.start 0x03C .W] 0 0
            ((readMoves 0x48).drop 1 ++ [.host]) (driverAt ops 1)
  | 2  => spot (.transferring .W 1) (ctl false 1 false) mayWrite 0 0 (histW []) 0 0
            ((readMoves 0x48).drop 2 ++ [.host]) (driverAt ops 1)
  | 3  => spot (.transferring .W 1) (ctl false 1 false) mayWrite 0 0 (histW []) (seen 0 mayWrite) 1
            ((readMoves 0x48).drop 3 ++ [.host]) (driverAt ops 2)
  | 4  => spot (.transferring .W 1) (ctl false 1 false) low reg 0 (histW []) (seen 0 mayWrite) 1
            ((readMoves 0x48).drop 4 ++ [.host]) (driverAt ops 3)
  | 5  => spot .completing (ctl false 1 false) sent reg 0 (histW [reg]) (seen 0 mayWrite) 1
            ((readMoves 0x48).drop 5 ++ [.host]) (driverAt ops 3)
  | 6  => spot .completing (ctl false 1 false) sent reg 0 (histW [reg]) (seen 1 sent) 2
            ((readMoves 0x48).drop 6 ++ [.host]) (driverAt ops 4)
  | 7  => spot (.addressing .R) (ctl true 1 true) low reg 0 (histW [reg] ++ histR 1) (seen 1 sent) 2
            ((readMoves 0x48).drop 7 ++ [.host]) (driverAt ops 5)
  | 8  => spot (.transferring .R 1) (ctl true 1 true) low reg 0 (histW [reg] ++ histR 2) (seen 1 sent) 2
            ((readMoves 0x48).drop 8 ++ [.host]) (driverAt ops 5)
  | 9  => spot .idle (ctl true 1 true) mayRead reg 0x48 (histW [reg] ++ histR 4) (seen 1 sent) 2
            ((readMoves 0x48).drop 9 ++ [.host]) (driverAt ops 5)
  | 10 => spot .idle (ctl true 1 true) mayRead reg 0x48 (histW [reg] ++ histR 4) (seen 2 mayRead) 3
            ((readMoves 0x48).drop 10 ++ [.host]) (driverAt ops 6)
  | _  => spot .idle (ctl true 1 true) low reg 0x48 (histW [reg] ++ histR 4) 0x48 3 [.host] d

/-- Program P1 of 95_test_vectors section 4. -/
def readRun : Nat → State :=
  shortRun (readRegisterOps cfg0 0x4F) 0x4F { driverAt (readRegisterOps cfg0 0x4F) 7 with result := some (.byte 0x48) }

/-- read_burst of one byte. -/
def burstRun : Nat → State :=
  shortRun (readBurstOps cfg0 0x68 1) 0x68
    { driverAt (readBurstOps cfg0 0x68 1) 7 with buf := [(0, 0x48)], got := 1, result := some (.bytes [0x48]) }

/-- The program of `writeRun`. -/
def writeOps : List Op := writeRegisterOps cfg0 0x60 0x00

/-- write_register of 0x00 to 0x60, its probe byte 0x48. -/
def writeRun : Nat → State
  | 0  => spot .idle ControlReg.reset low 0 0 [] 0 0 (writeMoves 0x48 ++ [.host]) (driverAt writeOps 0)
  | 1  => spot (.addressing .W) (ctl false 2 false) low 0 0 [.start 0x03C .W] 0 0
            ((writeMoves 0x48).drop 1 ++ [.host]) (driverAt writeOps 1)
  | 2  => spot (.transferring .W 2) (ctl false 2 false) mayWrite 0 0 (histW []) 0 0
            ((writeMoves 0x48).drop 2 ++ [.host]) (driverAt writeOps 1)
  | 3  => spot (.transferring .W 2) (ctl false 2 false) mayWrite 0 0 (histW []) (seen 0 mayWrite) 1
            ((writeMoves 0x48).drop 3 ++ [.host]) (driverAt writeOps 2)
  | 4  => spot (.transferring .W 2) (ctl false 2 false) low 0x60 0 (histW []) (seen 0 mayWrite) 1
            ((writeMoves 0x48).drop 4 ++ [.host]) (driverAt writeOps 3)
  | 5  => spot (.transferring .W 1) (ctl false 2 false) mayWrite 0x60 0 (histW [0x60]) (seen 0 mayWrite) 1
            ((writeMoves 0x48).drop 5 ++ [.host]) (driverAt writeOps 3)
  | 6  => spot (.transferring .W 1) (ctl false 2 false) mayWrite 0x60 0 (histW [0x60]) (seen 1 mayWrite) 2
            ((writeMoves 0x48).drop 6 ++ [.host]) (driverAt writeOps 4)
  | 7  => spot (.transferring .W 1) (ctl false 2 false) low 0x00 0 (histW [0x60]) (seen 1 mayWrite) 2
            ((writeMoves 0x48).drop 7 ++ [.host]) (driverAt writeOps 5)
  | 8  => spot .completing (ctl false 2 false) sent 0x00 0 (histW [0x60, 0x00]) (seen 1 mayWrite) 2
            ((writeMoves 0x48).drop 8 ++ [.host]) (driverAt writeOps 5)
  | 9  => spot .completing (ctl false 2 false) sent 0x00 0 (histW [0x60, 0x00]) (seen 2 sent) 3
            ((writeMoves 0x48).drop 9 ++ [.host]) (driverAt writeOps 6)
  | 10 => spot (.addressing .R) (ctl true 1 true) low 0x00 0 (histW [0x60, 0x00] ++ histR 1) (seen 2 sent) 3
            ((writeMoves 0x48).drop 10 ++ [.host]) (driverAt writeOps 7)
  | 11 => spot (.transferring .R 1) (ctl true 1 true) low 0x00 0 (histW [0x60, 0x00] ++ histR 2) (seen 2 sent) 3
            ((writeMoves 0x48).drop 11 ++ [.host]) (driverAt writeOps 7)
  | 12 => spot .idle (ctl true 1 true) mayRead 0x00 0x48 (histW [0x60, 0x00] ++ histR 4) (seen 2 sent) 3
            ((writeMoves 0x48).drop 12 ++ [.host]) (driverAt writeOps 7)
  | 13 => spot .idle (ctl true 1 true) mayRead 0x00 0x48 (histW [0x60, 0x00] ++ histR 4) (seen 3 mayRead) 4
            ((writeMoves 0x48).drop 13 ++ [.host]) (driverAt writeOps 8)
  | _  => spot .idle (ctl true 1 true) low 0x00 0x48 (histW [0x60, 0x00] ++ histR 4) 0x48 4 [.host]
            { driverAt writeOps 9 with result := some (.byte 0x48) }

theorem readRun_isRun : IsRun readRun := by
  intro k
  match k with
  | 0 | 1 | 3 | 4 | 6 | 7 | 8 | 10 => exact .inl rfl
  | 2 => exact .inl (spot_poll (f := .txis) (v := .sendByte) rfl rfl)
  | 5 => exact .inl (spot_poll (f := .tc) (v := .awaitTransferComplete) rfl rfl)
  | 9 => exact .inl (spot_poll (f := .rxne) (v := .recvByte) rfl rfl)
  | n + 11 => exact .inr ⟨fun t h => (by cases h), rfl⟩

theorem burstRun_isRun : IsRun burstRun := by
  intro k
  match k with
  | 0 | 1 | 3 | 4 | 6 | 7 | 8 | 10 => exact .inl rfl
  | 2 => exact .inl (spot_poll (f := .txis) (v := .sendByte) rfl rfl)
  | 5 => exact .inl (spot_poll (f := .tc) (v := .awaitTransferComplete) rfl rfl)
  | 9 => exact .inl (spot_poll (f := .rxne) (v := .burst 1) rfl rfl)
  | n + 11 => exact .inr ⟨fun t h => (by cases h), rfl⟩

theorem writeRun_isRun : IsRun writeRun := by
  intro k
  match k with
  | 0 | 1 | 3 | 4 | 6 | 7 | 9 | 10 | 11 | 13 => exact .inl rfl
  | 2 => exact .inl (spot_poll (f := .txis) (v := .sendByte) rfl rfl)
  | 5 => exact .inl (spot_poll (f := .txis) (v := .sendByte) rfl rfl)
  | 8 => exact .inl (spot_poll (f := .tc) (v := .awaitTransferComplete) rfl rfl)
  | 12 => exact .inl (spot_poll (f := .rxne) (v := .recvByte) rfl rfl)
  | n + 14 => exact .inr ⟨fun t h => (by cases h), rfl⟩

/-- For read_register. -/
theorem witness_TransactionsEnd_read : IsRun readRun ∧ (readRun 0).clean = true ∧
    (readRun 0).atStartOf (readRegisterOps (readRun 0).cfg 0x4F) ∧ Budget none (readRun 0) ∧ NoReset readRun ∧
    BusLive readRun ∧ HostFair readRun :=
  ⟨readRun_isRun, rfl, ⟨rfl, rfl, rfl, rfl⟩, rfl, premises_of_halt (n := 11) readRun_isRun (by decide) (by rintro ⟨t, h⟩; cases h)⟩

/-- For write_register. -/
theorem witness_TransactionsEnd_write : IsRun writeRun ∧ (writeRun 0).clean = true ∧
    (writeRun 0).atStartOf (writeRegisterOps (writeRun 0).cfg 0x60 0x00) ∧ Budget none (writeRun 0) ∧ NoReset writeRun ∧
    BusLive writeRun ∧ HostFair writeRun :=
  ⟨writeRun_isRun, rfl, ⟨rfl, rfl, rfl, rfl⟩, rfl, premises_of_halt (n := 14) writeRun_isRun (by decide) (by rintro ⟨t, h⟩; cases h)⟩

/-- For read_burst, at the count 1; 255 is a count too. -/
theorem witness_TransactionsEnd_burst : IsRun burstRun ∧ (burstRun 0).clean = true ∧ 1 ≤ 1 ∧ 255 ≤ 255 ∧
    (burstRun 0).atStartOf (readBurstOps (burstRun 0).cfg 0x68 1) ∧ Budget none (burstRun 0) ∧ NoReset burstRun ∧
    BusLive burstRun ∧ HostFair burstRun :=
  ⟨burstRun_isRun, rfl, by decide, by decide, ⟨rfl, rfl, rfl, rfl⟩, rfl,
   premises_of_halt (n := 11) burstRun_isRun (by decide) (by rintro ⟨t, h⟩; cases h)⟩

/-! ### A run halted by a fault, mid-phase, with a positive answer that would be enabled: 95_test_vectors P7, host-first -/

/-- P7's program, both its moves the host's; the slave's ACK comes too late. -/
def p7 : State := coming [.host, .host, .bus (.addrResp .ack)] (hosting (expand cfg0 [.writeCR 0x0001203C, .writeTXDR 0x4F]) base)

theorem test_p7 : (follow p7 2).fault = some .txNotReady ∧ (follow p7 2).phase = .addressing .W ∧
    (follow p7 2).hist = [.start 0x03C .W] := ⟨rfl, rfl, rfl⟩

/-- TransactionsEndUnderLiveBus's premises about the agents do not shut out a run that a fault halts mid-phase. -/
theorem test_halted_run_is_fair : IsRun (follow p7) ∧ (follow p7 2).fault = some .txNotReady ∧
    (busStep (.addrResp .ack) (follow p7 2)).isSome = true ∧ NoReset (follow p7) ∧ BusLive (follow p7) ∧
    HostFair (follow p7) :=
  ⟨follow_isRun _, rfl, rfl, premises_of_halt (n := 2) (follow_isRun _) (by decide) (by rintro ⟨t, h⟩; cases h)⟩

end Sys2Proof.Tests
end

section
/-! PROOF. The parameters stay fixed over every step (00_scope R8): each agent's move keeps the configuration. -/

namespace Sys2Proof.Machine

/-- A statement of the host keeps the configuration: its access does, and the rest touches the driver or FAULT alone. -/
theorem runAct_cfg {act : Act} {s t : State} (h : runAct act s = .next t) : t.cfg = s.cfg := by
  rcases runAct_next h with ⟨a, u, -, hp, hk⟩ | ⟨-, -, rfl⟩ | ⟨-, d, rfl, -⟩
  · obtain ⟨-, -, hcfg⟩ := perform_frame hp
    rcases hk with ⟨-, d, rfl, -⟩ | ⟨-, rfl⟩ <;> exact hcfg
  · rfl
  · rfl

theorem hostStep_cfg {s t : State} (h : hostStep s = .next t) : t.cfg = s.cfg := by
  obtain ⟨op, -, -, hrun⟩ := hostStep_next h
  exact (runAct_cfg hrun).trans (entered_cfg op s)

@[simp] theorem busMove_cfg (a : Answer) (s : State) : (busMove a s).cfg = s.cfg := by
  rcases busMove_cases a s with ⟨t, ht, he⟩ | ⟨-, he⟩
  · obtain ⟨-, -, -, -, -, hcfg⟩ := busStep_outside ht
    rw [he, hcfg]
  · rw [he]

@[simp] theorem resetMove_cfg (s : State) : (resetMove s).cfg = s.cfg := rfl

@[simp] theorem callMove_cfg (p : List Op) (s : State) : (callMove p s).cfg = s.cfg := by
  rcases callMove_cases p s with ⟨-, he⟩ | ⟨-, he⟩ <;> rw [he]
  exact onDriver_cfg _ s

/-- No agent's move changes the configuration. -/
theorem stepMove_cfg {m : Move} {s t : State} (h : stepMove m s = .next t) : t.cfg = s.cfg := by
  cases m with
  | host => exact hostStep_cfg h
  | bus a => cases h; exact busMove_cfg a s
  | reset => cases h; exact resetMove_cfg s
  | call p => cases h; exact callMove_cfg p s

/-- Settles O36: a step takes a move, which keeps the configuration, and runs it for its agent (00_scope R8). -/
theorem stepKeepsConfiguration : Obligations.StepKeepsConfiguration := by
  intro s t h
  obtain ⟨-, hmove⟩ := step_next h
  exact (stepMove_cfg hmove).trans (afterTake_cfg s)

end Sys2Proof.Machine
end

section
/-! PROOF. Every step keeps what the phases say of the block (10_state R22, R24, R27): the invariant phase by phase,
then each agent's move. -/

namespace Sys2Proof.Machine

/-! What `Block.inv` says in each phase. -/

theorem inv_of_idle {s : State} (hp : s.phase = .idle) :
    s.block.inv = true ↔ s.sr.txis = false ∧ s.sr.tc = false := by
  simp [Block.inv, State.block, hp]

theorem inv_of_addressing {s : State} {d : Dir} (hp : s.phase = .addressing d) :
    s.block.inv = true ↔ s.sr.txis = false ∧ s.sr.rxne = false ∧ s.sr.tc = false ∧ s.cr.nbytes ≠ 0 ∧
      d = dirOf s.cr.rdWrn := by
  simp [Block.inv, State.block, hp, and_assoc]

theorem inv_of_writing {s : State} {r : Byte} (hp : s.phase = .transferring .W r) :
    s.block.inv = true ↔ s.sr.rxne = false ∧ s.sr.tc = false ∧ r ≠ 0 ∧ r ≤ s.cr.nbytes ∧ s.cr.rdWrn = false := by
  simp [Block.inv, State.block, hp, and_assoc]

theorem inv_of_reading {s : State} {r : Byte} (hp : s.phase = .transferring .R r) :
    s.block.inv = true ↔ s.sr.txis = false ∧ s.sr.tc = false ∧ r ≠ 0 ∧ r ≤ s.cr.nbytes ∧ s.cr.rdWrn = true := by
  simp [Block.inv, State.block, hp, and_assoc]

theorem inv_of_completing {s : State} (hp : s.phase = .completing) :
    s.block.inv = true ↔ s.sr.txis = false ∧ s.sr.tc = true := by
  simp [Block.inv, State.block, hp]

/-- One byte moved with more to come leaves a count from 1 to NBYTES (10_state R27). -/
theorem remaining_pred_bounds {r n : Byte} (h0 : r ≠ 0) (h1 : r ≠ 1) (hn : r ≤ n) : r - 1 ≠ 0 ∧ r - 1 ≤ n := by
  constructor <;> bv_omega

/-! The moves. -/

/-- The byte count and the direction enter with a START that passed its checks (F06, F07); a CR write without a
trigger leaves PHASE in Idle or Completing, where nothing is said of CR. -/
theorem crAct_keeps_inv {w : Word} {s : State} (hi : s.block.inv = true) (hc : crFault w s = none) :
    (crAct (decodeCR w) (latchCr (decodeCR w) s)).block.inv = true := by
  have hphase := crFault_none_phase hc
  rcases crAct_cases (decodeCR w) (latchCr (decodeCR w) s) hphase with
    ⟨hs, hp, he⟩ | ⟨hs, hp, he⟩ | ⟨-, -, hp, he⟩ | ⟨-, he⟩ <;> rw [he]
  · obtain ⟨htxis, htc⟩ := (inv_of_idle (s := s) hp).1 hi
    obtain ⟨hn, hrxne, -⟩ := crFault_none_start hc hs
    exact (inv_of_addressing rfl).2 ⟨htxis, hrxne, htc, hn, rfl⟩
  · obtain ⟨htxis, -⟩ := (inv_of_completing (s := s) hp).1 hi
    obtain ⟨hn, hrxne, -⟩ := crFault_none_start hc hs
    exact (inv_of_addressing rfl).2 ⟨htxis, hrxne, rfl, hn, rfl⟩
  · obtain ⟨htxis, -⟩ := (inv_of_completing (s := s) hp).1 hi
    exact (inv_of_idle rfl).2 ⟨htxis, rfl⟩
  · rcases hphase with hp | hp
    · exact (inv_of_idle (s := latchCr _ s) hp).2 ((inv_of_idle hp).1 hi)
    · exact (inv_of_completing (s := latchCr _ s) hp).2 ((inv_of_completing hp).1 hi)

/-- No phase asks for TXIS or for RXNE, so a block keeps its invariant when one of them falls. -/
theorem inv_of_fewer_flags {b b' : Block} (hi : b.inv = true) (hphase : b'.phase = b.phase) (hcr : b'.cr = b.cr)
    (htc : b'.sr.tc = b.sr.tc) (htxis : b'.sr.txis = true → b.sr.txis = true)
    (hrxne : b'.sr.rxne = true → b.sr.rxne = true) : b'.inv = true := by
  rcases hp : b.phase with - | d | ⟨- | -, r⟩ | - <;> simp_all [Block.inv, ← Bool.not_eq_true]

theorem exec_keeps_inv {i : Instr} {u v : State} (hi : u.block.inv = true) (h : exec i u = .next v) :
    v.block.inv = true := by
  rcases exec_block h with hv | ⟨w, -, hc, rfl⟩ | ⟨w, -, -, hv⟩ | ⟨-, -, hv⟩
  · rwa [hv]
  · exact crAct_keeps_inv hi hc
  · rw [hv]; exact inv_of_fewer_flags hi rfl rfl rfl (fun h => nomatch h) id
  · rw [hv]; exact inv_of_fewer_flags hi rfl rfl rfl id (fun h => nomatch h)

/-- Each of R132 to R142 leaves the flags and the counter as the phase it enters asks; that a written byte is answered
only with TXIS = 0 and a read byte only with RXNE = 0 is the table's condition (41_bus_sequencer R131). -/
theorem busStep_keeps_inv {a : Answer} {s t : State} (hi : s.block.inv = true) (h : busStep a s = some t) :
    t.block.inv = true := by
  rcases busStep_cases h with ⟨hp, -, rfl⟩ | ⟨hp, -, rfl⟩ | ⟨⟨d, hp⟩, -, rfl⟩ | ⟨r, hp, htxis, -, h1, -, rfl⟩ |
    ⟨hp, htxis, -, -, rfl⟩ | ⟨hp, htxis, -, -, rfl⟩ | ⟨r, hp, htxis, -, -, rfl⟩ | ⟨r, b, hp, -, -, h1, -, rfl⟩ |
    ⟨b, hp, -, -, -, rfl⟩ | ⟨b, hp, -, -, -, rfl⟩ | ⟨-, -, rfl⟩
  · obtain ⟨-, hrxne, htc, hn, hd⟩ := (inv_of_addressing hp).1 hi
    have hw : s.cr.rdWrn = false := by simpa [dirOf] using hd
    exact (inv_of_writing rfl).2 ⟨hrxne, htc, hn, BitVec.le_refl _, hw⟩
  · obtain ⟨htxis, -, htc, hn, hd⟩ := (inv_of_addressing hp).1 hi
    have hr : s.cr.rdWrn = true := by simpa [dirOf] using hd
    exact (inv_of_reading rfl).2 ⟨htxis, htc, hn, BitVec.le_refl _, hr⟩
  · obtain ⟨-, -, htc, -⟩ := (inv_of_addressing hp).1 hi
    exact (inv_of_idle rfl).2 ⟨rfl, htc⟩
  · obtain ⟨hrxne, htc, h0, hn, hw⟩ := (inv_of_writing hp).1 hi
    obtain ⟨h0', hn'⟩ := remaining_pred_bounds h0 h1 hn
    exact (inv_of_writing rfl).2 ⟨hrxne, htc, h0', hn', hw⟩
  · exact (inv_of_completing rfl).2 ⟨htxis, rfl⟩
  · obtain ⟨-, htc, -⟩ := (inv_of_writing hp).1 hi
    exact (inv_of_idle rfl).2 ⟨htxis, htc⟩
  · obtain ⟨-, htc, -⟩ := (inv_of_writing hp).1 hi
    exact (inv_of_idle rfl).2 ⟨htxis, htc⟩
  · obtain ⟨htxis, htc, h0, hn, hr⟩ := (inv_of_reading hp).1 hi
    obtain ⟨h0', hn'⟩ := remaining_pred_bounds h0 h1 hn
    exact (inv_of_reading rfl).2 ⟨htxis, htc, h0', hn', hr⟩
  · obtain ⟨htxis, -⟩ := (inv_of_reading hp).1 hi
    exact (inv_of_completing rfl).2 ⟨htxis, rfl⟩
  · obtain ⟨htxis, htc, -⟩ := (inv_of_reading hp).1 hi
    exact (inv_of_idle rfl).2 ⟨htxis, htc⟩
  · exact (inv_of_idle rfl).2 ⟨rfl, rfl⟩

/-- Settles O29: what a step can do to the block is an instruction, a bus step or a reset, and each keeps the
invariant (10_state R22, R24, R27). -/
theorem stepKeepsBlockInvariant : Obligations.StepKeepsBlockInvariant := by
  intro s t hi h
  exact block_principle (fun b => b.inv = true) (fun _ _ _ => exec_keeps_inv) (fun _ _ _ => busStep_keeps_inv)
    (fun _ _ => rfl) hi h

end Sys2Proof.Machine
end

section
/-! PROOF. The driver's buffer keeps its canonical form (10_state R31). -/

namespace Sys2Proof.Machine

/-- Settles O33: a step keeps buf, forgets it, or writes one element, and a write keeps the form (10_state R31). -/
theorem stepKeepsBufferCanonical : Obligations.StepKeepsBufferCanonical := by
  intro s t hs h
  obtain ⟨m, hm, ht⟩ := step_buf h
  have hwf : m.wf = true := by
    rcases hm with rfl | rfl
    · exact hs
    · exact Memory.wf_nil
  rcases ht with ht | ⟨a, v, ht⟩ <;> rw [ht]
  · exact hwf
  · exact Memory.wf_write a v hwf

end Sys2Proof.Machine
end

section
/-! PROOF. HIST only grows (10_state R28): each agent's move keeps HIST or appends events to it. -/

namespace Sys2Proof.Machine

/-- An accepted CR write appends its Start, Restart or Stop, or nothing (40_register_access R102 to R105). -/
theorem crAct_hist {c : CrFields} {s : State} (hp : s.phase = .idle ∨ s.phase = .completing) :
    s.hist <+: (crAct c s).hist := by
  rcases crAct_cases c s hp with ⟨-, -, he⟩ | ⟨-, -, he⟩ | ⟨-, -, -, he⟩ | ⟨-, he⟩ <;> rw [he]
  · exact ⟨_, rfl⟩
  · exact ⟨_, rfl⟩
  · exact ⟨_, rfl⟩

theorem exec_hist {i : Instr} {u v : State} (h : exec i u = .next v) : u.block.hist <+: v.block.hist := by
  rcases exec_block h with hv | ⟨w, -, hc, rfl⟩ | ⟨w, -, -, hv⟩ | ⟨-, -, hv⟩
  · rw [hv]
  · exact crAct_hist (s := latchCr _ u) (crFault_none_phase hc)
  · rw [hv]
  · rw [hv]

/-- Each of R132 to R142 appends one event or two. -/
theorem busStep_hist {a : Answer} {s t : State} (h : busStep a s = some t) : s.hist <+: t.hist := by
  rcases busStep_cases h with ⟨-, -, rfl⟩ | ⟨-, -, rfl⟩ | ⟨-, -, rfl⟩ | ⟨r, -, -, -, -, -, rfl⟩ | ⟨-, -, -, -, rfl⟩ |
    ⟨-, -, -, -, rfl⟩ | ⟨r, -, -, -, -, rfl⟩ | ⟨r, b, -, -, -, -, -, rfl⟩ | ⟨b, -, -, -, -, rfl⟩ |
    ⟨b, -, -, -, -, rfl⟩ | ⟨-, -, rfl⟩ <;>
  simp [addrAckWrite, addrAckRead, addrNack, byteAckedMore, lastByteAckedHold, lastByteAckedStop, byteNacked,
    byteReceivedMore, lastByteReceivedHold, lastByteReceivedStop, abortPhase, receive]

/-- Settles O35: an instruction, a bus step and a reset each keep HIST at the front of the new one (10_state R28). -/
theorem historyOnlyGrows : Obligations.HistoryOnlyGrows := by
  intro s t h
  obtain ⟨es, hes⟩ : s.block.hist <+: t.block.hist :=
    block_principle (fun b => s.hist <+: b.hist) (fun _ _ _ hu hx => hu.trans (exec_hist hx))
      (fun _ _ _ hu hx => hu.trans (busStep_hist hx)) (fun _ hu => hu.trans ⟨_, rfl⟩)
      ⟨[], List.append_nil _⟩ h
  exact ⟨es, hes.symm⟩

end Sys2Proof.Machine
end

section
/-! PROOF. Each flag rises and falls only by the steps of its rules (10_state R24): every way a step can change SR, said
once, then each flag's two changes read off it. -/

namespace Sys2Proof.Machine

/-- SR after one step from `s`, with the step that makes it so (10_state R24's table). -/
inductive SrChange (s : State) : StatusReg → Prop
  | kept : SrChange s s.sr
  | writeAcked (h : (s.phase = .addressing .W ∧ s.nextMove = .bus (.addrResp .ack)) ∨
      ∃ r, s.phase = .transferring .W r ∧ 2 ≤ r ∧ s.nextMove = .bus (.wrResp .ack)) :
      SrChange s { s.sr with txis := true }
  | txdrWritten (h : ∃ v, s.hostDoes (.writeTxdr v)) : SrChange s { s.sr with txis := false }
  | addressNacked (h : s.nextMove = .bus (.addrResp .nack)) : SrChange s { s.sr with txis := false }
  | byteReceived (h : ∃ r b, s.phase = .transferring .R r ∧ s.nextMove = .bus (.rdByte b)) :
      SrChange s { s.sr with rxne := true }
  | rxdrRead (h : s.hostDoes .readRxdr) : SrChange s { s.sr with rxne := false }
  | lastByteAcked (ha : s.cr.autoend = false) (hp : s.phase = .transferring .W 1)
      (hm : s.nextMove = .bus (.wrResp .ack)) : SrChange s { s.sr with tc := true }
  | lastByteReceived (b : Byte) (ha : s.cr.autoend = false) (hp : s.phase = .transferring .R 1)
      (hm : s.nextMove = .bus (.rdByte b)) : SrChange s { s.sr with rxne := true, tc := true }
  | completingLeft (h : ∃ v, s.hostDoes (.writeCr v) ∧ s.phase = .completing ∧
      (v.getLsbD 13 = true ∨ v.getLsbD 14 = true)) : SrChange s { s.sr with tc := false }
  | aborted (h : s.nextMove = .bus .abort) : SrChange s { s.sr with txis := false, tc := false }
  | wasReset (h : s.nextMove = .reset) : SrChange s StatusReg.reset

/-! From the moves to the table. -/

/-- States with one block agree in PHASE, CR and SR. -/
theorem fields_eq_of_block_eq {s u : State} (h : u.block = s.block) : u.phase = s.phase ∧ u.cr = s.cr ∧ u.sr = s.sr :=
  ⟨congrArg Block.phase h, congrArg Block.cr h, congrArg Block.sr h⟩

theorem srChange_of_exec {s u v : State} {i : Instr} (hd : s.hostDoes i) (hu : u.block = s.block)
    (h : exec i u = .next v) : SrChange s v.sr := by
  obtain ⟨hphase, -, hsr⟩ := fields_eq_of_block_eq hu
  rcases exec_block h with hv | ⟨w, rfl, hc, rfl⟩ | ⟨w, rfl, -, hv⟩ | ⟨rfl, -, hv⟩
  · rw [show v.sr = s.sr from congrArg Block.sr (hv.trans hu)]
    exact .kept
  · have hkept : SrChange s u.sr := hsr ▸ .kept
    have hleft (hp : u.phase = .completing) (htr : w.getLsbD 13 = true ∨ w.getLsbD 14 = true) :
        SrChange s { u.sr with tc := false } :=
      hsr ▸ .completingLeft ⟨w, hd, hphase ▸ hp, htr⟩
    rcases crAct_cases (decodeCR w) (latchCr (decodeCR w) u) (crFault_none_phase hc) with
      ⟨-, -, he⟩ | ⟨hstart, hp, he⟩ | ⟨-, hstop, hp, he⟩ | ⟨-, he⟩ <;> rw [he]
    · exact hkept
    · exact hleft hp (.inl hstart)
    · exact hleft hp (.inr hstop)
    · exact hkept
  · rw [show v.sr = { s.sr with txis := false } from hsr ▸ congrArg Block.sr hv]
    exact .txdrWritten ⟨w, hd⟩
  · rw [show v.sr = { s.sr with rxne := false } from hsr ▸ congrArg Block.sr hv]
    exact .rxdrRead hd

theorem srChange_of_busStep {s u t : State} {a : Answer} (hm : s.nextMove = .bus a) (hu : u.block = s.block)
    (h : busStep a u = some t) : SrChange s t.sr := by
  obtain ⟨hphase, hcr, hsr⟩ := fields_eq_of_block_eq hu
  rcases busStep_cases h with ⟨hp, rfl, rfl⟩ | ⟨-, -, rfl⟩ | ⟨-, rfl, rfl⟩ | ⟨r, hp, -, h0, h1, rfl, rfl⟩ |
    ⟨hp, -, ha, rfl, rfl⟩ | ⟨-, -, -, -, rfl⟩ | ⟨r, -, -, -, -, rfl⟩ | ⟨r, b, hp, -, -, -, rfl, rfl⟩ |
    ⟨b, hp, -, ha, rfl, rfl⟩ | ⟨b, hp, -, -, rfl, rfl⟩ | ⟨-, rfl, rfl⟩
  all_goals simp only [addrAckWrite, addrAckRead, addrNack, byteAckedMore, lastByteAckedHold, lastByteAckedStop,
    byteNacked, byteReceivedMore, lastByteReceivedHold, lastByteReceivedStop, abortPhase, receive, setTxis_sr,
    setRxne_sr, setTc_sr, setPhase_sr, emit_sr, hsr]
  · exact .writeAcked (.inl ⟨hphase ▸ hp, hm⟩)
  · exact .kept
  · exact .addressNacked hm
  · have h2 : 2 ≤ r := by bv_omega
    exact .writeAcked (.inr ⟨r, hphase ▸ hp, h2, hm⟩)
  · exact .lastByteAcked (hcr ▸ ha) (hphase ▸ hp) hm
  · exact .kept
  · exact .kept
  · exact .byteReceived ⟨r, b, hphase ▸ hp, hm⟩
  · exact .lastByteReceived b (hcr ▸ ha) (hphase ▸ hp) hm
  · exact .byteReceived ⟨1, b, hphase ▸ hp, hm⟩
  · exact .aborted hm

theorem step_srChange {s t : State} (h : step s = .next t) : SrChange s t.sr := by
  obtain ⟨-, hb | ⟨i, u, v, hd, hu, -, hx, hv, -⟩ | ⟨a, u, hm, hu, -, hx⟩ | ⟨hm, rfl⟩⟩ := step_block h
  · rw [show t.sr = s.sr from congrArg Block.sr hb]
    exact .kept
  · rw [show t.sr = v.sr from congrArg Block.sr hv]
    exact srChange_of_exec hd hu hx
  · exact srChange_of_busStep hm hu hx
  · exact .wasReset hm

/-! Each flag's changes. -/

theorem SrChange.txis_rises {s : State} {new : StatusReg} (h : SrChange s new) (h0 : s.sr.txis = false)
    (h1 : new.txis = true) :
    (s.phase = .addressing .W ∧ s.nextMove = .bus (.addrResp .ack)) ∨
    (∃ r, s.phase = .transferring .W r ∧ 2 ≤ r ∧ s.nextMove = .bus (.wrResp .ack)) := by
  cases h with
  | writeAcked h => exact h
  | _ => simp_all [StatusReg.reset]

theorem SrChange.txis_falls {s : State} {new : StatusReg} (h : SrChange s new) (h1 : s.sr.txis = true)
    (h0 : new.txis = false) :
    (∃ v, s.hostDoes (.writeTxdr v)) ∨ s.nextMove = .bus (.addrResp .nack) ∨ s.nextMove = .bus .abort ∨
    s.nextMove = .reset := by
  cases h with
  | txdrWritten h => exact .inl h
  | addressNacked h => exact .inr (.inl h)
  | aborted h => exact .inr (.inr (.inl h))
  | wasReset h => exact .inr (.inr (.inr h))
  | _ => simp_all

theorem SrChange.rxne_rises {s : State} {new : StatusReg} (h : SrChange s new) (h0 : s.sr.rxne = false)
    (h1 : new.rxne = true) : ∃ r b, s.phase = .transferring .R r ∧ s.nextMove = .bus (.rdByte b) := by
  cases h with
  | byteReceived h => exact h
  | lastByteReceived b _ hp hm => exact ⟨1, b, hp, hm⟩
  | _ => simp_all [StatusReg.reset]

theorem SrChange.rxne_falls {s : State} {new : StatusReg} (h : SrChange s new) (h1 : s.sr.rxne = true)
    (h0 : new.rxne = false) : s.hostDoes .readRxdr ∨ s.nextMove = .reset := by
  cases h with
  | rxdrRead h => exact .inl h
  | wasReset h => exact .inr h
  | _ => simp_all

theorem SrChange.tc_rises {s : State} {new : StatusReg} (h : SrChange s new) (h0 : s.sr.tc = false)
    (h1 : new.tc = true) :
    s.cr.autoend = false ∧
    ((s.phase = .transferring .W 1 ∧ s.nextMove = .bus (.wrResp .ack)) ∨
     (s.phase = .transferring .R 1 ∧ ∃ b, s.nextMove = .bus (.rdByte b))) := by
  cases h with
  | lastByteAcked ha hp hm => exact ⟨ha, .inl ⟨hp, hm⟩⟩
  | lastByteReceived b ha hp hm => exact ⟨ha, .inr ⟨hp, b, hm⟩⟩
  | _ => simp_all [StatusReg.reset]

theorem SrChange.tc_falls {s : State} {new : StatusReg} (h : SrChange s new) (h1 : s.sr.tc = true)
    (h0 : new.tc = false) :
    (∃ v, s.hostDoes (.writeCr v) ∧ s.phase = .completing ∧ (v.getLsbD 13 = true ∨ v.getLsbD 14 = true)) ∨
    s.nextMove = .bus .abort ∨ s.nextMove = .reset := by
  cases h with
  | completingLeft h => exact .inl h
  | aborted h => exact .inr (.inl h)
  | wasReset h => exact .inr (.inr h)
  | _ => simp_all

/-- Settles O37: a step changes SR only as `SrChange` lists, and there each rise and fall has its rules (10_state R24). -/
theorem flagsChangeOnlyByTheirRules : Obligations.FlagsChangeOnlyByTheirRules := by
  intro s t h
  have hc := step_srChange h
  exact ⟨hc.txis_rises, hc.txis_falls, hc.rxne_rises, hc.rxne_falls, hc.tc_rises, hc.tc_falls⟩

end Sys2Proof.Machine
end

section
/-! PROOF. FAULT is final (10_state R29, 60_exceptions R211). -/

namespace Sys2Proof.Machine

theorem step_halted {s : State} {c : FaultCode} (h : s.fault = some c) : step s = .fault (.halted c) :=
  whileLive_halted h

theorem exec_halted (i : Instr) {s : State} {c : FaultCode} (h : s.fault = some c) :
    exec i s = .fault (.halted c) := by
  cases i <;> exact whileLive_halted h

/-- Settles O19: the step, every instruction and so every longer run stop once FAULT is set (60_exceptions R211). -/
theorem faultIsFinal : Obligations.FaultIsFinal :=
  ⟨rfl, fun _ _ hf => ⟨step_halted hf, fun i => exec_halted i hf, fun k => run_fault k (step_halted hf)⟩⟩

end Sys2Proof.Machine
end

section
/-! PROOF. decode_sample reads the first six elements of buf (43_device_protocol R184, 10_state R31). -/

namespace Sys2Proof.Machine

/-- A live running host whose move is next runs its statement at pc. -/
theorem step_statement {s : State} {ms : List Move} {op : Op} (hf : s.fault = none) (hm : s.moves = .host :: ms)
    (hr : s.drv.running = true) (hop : s.drv.prog[s.drv.pc]? = some op) :
    step s = runAct op.act (entered op { s with moves := ms }) := by
  rw [step_move hf hm]
  exact hostStep_running hr hop

theorem sampleOf_written {m : Memory} {b0 b1 b2 b3 b4 b5 : Byte} (h0 : m.read 0 = some b0) (h1 : m.read 1 = some b1)
    (h2 : m.read 2 = some b2) (h3 : m.read 3 = some b3) (h4 : m.read 4 = some b4) (h5 : m.read 5 = some b5) :
    sampleOf m = .ok (decodeSample b0 b1 b2 b3 b4 b5) := by
  simp [sampleOf, Memory.readRange, h0, h1, h2, h3, h4, h5]

theorem sampleOf_gap {m : Memory} {k : Nat} (hk : k < 6) (h : m.read k = none) (hl : ∀ j, j < k → m.read j ≠ none) :
    sampleOf m = .error k := by
  simp [sampleOf, Memory.readRange_gap hk h hl]

/-- Settles O56: the statement is `sampleOf` of buf, whose value is the result and whose gap is the stop
(43_device_protocol R184, 10_state R31). -/
theorem decodeSampleReadsWrittenBuffer : Obligations.DecodeSampleReadsWrittenBuffer := by
  intro s ms hf hm hr hop
  rw [step_statement hf hm hr hop]
  constructor
  · intro b0 b1 b2 b3 b4 b5 h0 h1 h2 h3 h4 h5
    simp only [runAct, entered, Bool.false_eq_true, if_false, sampleOf_written h0 h1 h2 h3 h4 h5]
    rfl
  · intro k hk h hl
    simp only [runAct, entered, Bool.false_eq_true, if_false, sampleOf_gap hk h hl]

end Sys2Proof.Machine
end

section
/-! PROOF. The decoder and the encoder undo one another over the byte container (30_encoding R70, R71, R78; log 1). -/

namespace Sys2Proof

/-! The container: a write carries its data word, a read does not. -/

theorem decode_write (off : Byte) (v : Word) (rest : List Byte) :
    decode (off :: 1 :: (bytesOfWord v ++ rest)) = (decodeAccess ⟨true, off.setWidth 32, 4, v⟩).map (·, rest) := by
  conv_rhs => rw [← wordOfBytes_bytes v]
  rfl

theorem decode_read (off : Byte) (rest : List Byte) :
    decode (off :: 0 :: rest) = (decodeAccess ⟨false, off.setWidth 32, 4, 0⟩).map (·, rest) := rfl

/-- The container's second byte, bits 7:1 zero, is its bit 0. -/
theorem ctl_eq {ctl : Byte} (h : ctl >>> 1 = 0) : ctl = if ctl.getLsbD 0 then 1 else 0 := by
  have hhalf : ctl.toNat / 2 = 0 := by simpa [Nat.shiftRight_eq_div_pow] using congrArg BitVec.toNat h
  have hbit : ctl.getLsbD 0 = decide (ctl.toNat % 2 = 1) := by
    rw [BitVec.getLsbD, Nat.testBit_eq_decide_div_mod_eq, pow_zero, Nat.div_one]
  apply BitVec.eq_of_toNat_eq
  obtain h0 | h1 : ctl.toNat = 0 ∨ ctl.toNat = 1 := by omega
  · simp only [hbit, h0]; rfl
  · simp only [hbit, h1]; rfl

/-- `decode` hands on the rest of the bytes, and the error or the instruction is the access's. -/
theorem map_rest_ok {o : Except DecodeError Instr} {r rest : List Byte} {i : Instr}
    (h : o.map (·, r) = .ok (i, rest)) : o = .ok i ∧ r = rest := by
  cases o with
  | error e => cases h
  | ok j => cases h; exact ⟨rfl, rfl⟩

/-- Whatever decodes is laid out as a write or as a read, and its access decodes to the instruction. -/
theorem decode_ok {bs rest : List Byte} {i : Instr} (h : decode bs = .ok (i, rest)) :
    (∃ off v, bs = off :: 1 :: (bytesOfWord v ++ rest) ∧ decodeAccess ⟨true, off.setWidth 32, 4, v⟩ = .ok i) ∨
    (∃ off, bs = off :: 0 :: rest ∧ decodeAccess ⟨false, off.setWidth 32, 4, 0⟩ = .ok i) := by
  unfold decode at h
  split at h
  case h_2 => cases h
  case h_1 off ctl r =>
    split at h
    · cases h
    next hctl =>
    have hc := ctl_eq (not_not.1 hctl)
    split at h
    · next hw =>
      split at h
      · next b0 b1 b2 b3 r' =>
        obtain ⟨hi, rfl⟩ := map_rest_ok h
        rw [hc, hw, if_pos rfl]
        exact .inl ⟨off, _, by rw [bytesOfWord_wordOfBytes]; rfl, hi⟩
      · cases h
    · next hr =>
      obtain ⟨hi, rfl⟩ := map_rest_ok h
      rw [hc, if_neg hr]
      exact .inr ⟨off, rfl, hi⟩

/-! The access of an instruction, and its container. -/

/-- An instruction's access word has its write enable set exactly when it carries a data word (30_encoding R70, R71). -/
theorem opcode_writes (i : Instr) : (opcode i).getLsbD 8 = (dataWord i).isSome := by
  cases i <;> simp [opcode, dataWord]

theorem decodeAccess_encodeAccess (i : Instr) : decodeAccess (encodeAccess i) = .ok i := by
  cases i <;> simp [encodeAccess, opcode, dataWord, decodeAccess, accessWord, decodeWord]

theorem encodeAccess_write {i : Instr} {v : Word} (h : dataWord i = some v) :
    encodeAccess i = ⟨true, ((opcode i).setWidth 8).setWidth 32, 4, v⟩ := by
  simp only [encodeAccess, opcode_writes, h, Option.isSome, Option.getD]

theorem encodeAccess_read {i : Instr} (h : dataWord i = none) :
    encodeAccess i = ⟨false, ((opcode i).setWidth 8).setWidth 32, 4, 0⟩ := by
  simp only [encodeAccess, opcode_writes, h, Option.isSome, Option.getD]

theorem encode_write {i : Instr} {v : Word} (h : dataWord i = some v) :
    encode i = (opcode i).setWidth 8 :: 1 :: bytesOfWord v := by
  simp only [encode, opcode_writes, h]; rfl

theorem encode_read {i : Instr} (h : dataWord i = none) : encode i = [(opcode i).setWidth 8, 0] := by
  simp only [encode, opcode_writes, h]; rfl

/-- Settles O3: an instruction's container is a write's or a read's, whose access decodes to the instruction
(30_encoding R70, R71). -/
theorem decodeUndoesEncode : Obligations.DecodeUndoesEncode := by
  intro i rest _
  have hi := decodeAccess_encodeAccess i
  cases hd : dataWord i with
  | some v =>
    rw [encodeAccess_write hd] at hi
    simp only [encode_write hd, List.cons_append, decode_write, hi, Except.map]
  | none =>
    rw [encodeAccess_read hd] at hi
    simp only [encode_read hd, List.cons_append, List.nil_append, decode_read, hi, Except.map]

/-- A decoded access gives back its offset, from the low byte of the instruction's access word, and its data word if it
is a write (30_encoding R70, R71). -/
theorem decodeAccess_byte_ok {we : Bool} {off : Byte} {v : Word} {i : Instr}
    (h : decodeAccess ⟨we, off.setWidth 32, 4, v⟩ = .ok i) :
    (opcode i).setWidth 8 = off ∧ dataWord i = if we then some v else none := by
  obtain ⟨-, -, -, hw⟩ := decodeAccess_ok h
  obtain ⟨hop, hv⟩ := decodeWord_ok hw
  have hsome : (dataWord i).isSome = we := by rw [← opcode_writes, ← hop, accessWord_high]
  constructor
  · rw [← hop, accessWord_low, BitVec.setWidth_setWidth_of_le _ (by omega), BitVec.setWidth_eq]
  · rw [← hsome]
    rcases hv with hv | hv <;> simp [hv]

/-- Settles O4: whatever decodes is a write's or a read's container, and so the encoding of its instruction
(30_encoding R71, R78). -/
theorem encodeUndoesDecode : Obligations.EncodeUndoesDecode := by
  intro bs rest i h
  rcases decode_ok h with ⟨off, v, rfl, hi⟩ | ⟨off, rfl, hi⟩ <;>
    obtain ⟨hoff, hd⟩ := decodeAccess_byte_ok hi
  · rw [encode_write hd, hoff]; rfl
  · rw [encode_read hd, hoff]; rfl

/-- Settles O1: R71's table, word by word. -/
theorem tableWordsDecode : Obligations.TableWordsDecode := fun _ =>
  ⟨rfl, rfl, rfl, rfl, rfl, rfl, rfl, rfl⟩

end Sys2Proof
end

section
/-! PROOF. encodeCR and decodeCR (30_encoding R72, R75, R76). -/

namespace Sys2Proof.Machine

/-- Fields that share no bit add up: the upper one ends where the lower one's width does. -/
theorem add_eq_or_of_dvd {a b : Nat} (k : Nat) (ha : 2 ^ k ∣ a) (hb : b < 2 ^ k) : a + b = a ||| b := by
  obtain ⟨q, rfl⟩ := ha
  exact Nat.two_pow_add_eq_or_of_lt hb q

/-- The fields of a CR word share no bit, so the word is their sum (30_encoding R75). -/
theorem encodeCR_toNat (c : CrFields) : (encodeCR c).toNat =
    c.autoend.toNat * 2 ^ 25 + c.nbytes.toNat * 2 ^ 16 + c.stop.toNat * 2 ^ 14 + c.start.toNat * 2 ^ 13 +
      c.rdWrn.toNat * 2 ^ 10 + c.sadd.toNat := by
  have hstop := c.stop.toNat_lt
  have hstart := c.start.toNat_lt
  have hrdWrn := c.rdWrn.toNat_lt
  have hnbytes := c.nbytes.isLt
  have hsadd := c.sadd.isLt
  have hn : (c.nbytes.setWidth 32 <<< 16).toNat = c.nbytes.toNat * 2 ^ 16 := by
    rw [BitVec.toNat_shiftLeft, BitVec.toNat_setWidth, Nat.shiftLeft_eq]
    omega
  have hs : (c.sadd.setWidth 32).toNat = c.sadd.toNat := BitVec.toNat_setWidth_of_le (by omega)
  rw [add_eq_or_of_dvd 10 (by omega) (by omega), add_eq_or_of_dvd 13 (by omega) (by omega),
    add_eq_or_of_dvd 14 (by omega) (by omega), add_eq_or_of_dvd 16 (by omega) (by omega),
    add_eq_or_of_dvd 25 (by omega) (by omega), encodeCR]
  simp only [BitVec.toNat_or, hn, hs, bitWord_shift_toNat _ _ (by omega : 25 < 32),
    bitWord_shift_toNat _ _ (by omega : 14 < 32), bitWord_shift_toNat _ _ (by omega : 13 < 32),
    bitWord_shift_toNat _ _ (by omega : 10 < 32)]

/-- Settles O5: the sum of the fields, and the worked values (30_encoding R75). -/
theorem encodeCrPlacesFields : Obligations.EncodeCrPlacesFields :=
  ⟨encodeCR_toNat, by decide, by decide, by decide, by decide⟩

/-! decodeCR's fields as numbers and bits (30_encoding R76). -/

theorem decodeCR_sadd_toNat (v : Word) : (decodeCR v).sadd.toNat = v.toNat % 2 ^ 10 := by
  rw [decodeCR, BitVec.extractLsb'_toNat, Nat.shiftRight_zero]

theorem decodeCR_nbytes_toNat (v : Word) : (decodeCR v).nbytes.toNat = v.toNat / 2 ^ 16 % 2 ^ 8 := by
  rw [decodeCR, BitVec.extractLsb'_toNat, Nat.shiftRight_eq_div_pow]

theorem crFields_ext {a b : CrFields} (hsadd : a.sadd = b.sadd) (hrdWrn : a.rdWrn = b.rdWrn)
    (hstart : a.start = b.start) (hstop : a.stop = b.stop) (hnbytes : a.nbytes = b.nbytes)
    (hautoend : a.autoend = b.autoend) : a = b := by
  cases a
  cases b
  simp_all only

/-- SADD and NBYTES are read off the sum, the fields below each being too small to reach it; the single bits are read
off their places (30_encoding R76). -/
theorem decodeCR_encodeCR (c : CrFields) : decodeCR (encodeCR c) = c := by
  have hsum := encodeCR_toNat c
  have hsaddLt := c.sadd.isLt
  have hnbytesLt := c.nbytes.isLt
  have hsadd : (decodeCR (encodeCR c)).sadd = c.sadd :=
    BitVec.eq_of_toNat_eq (by rw [decodeCR_sadd_toNat, hsum]; omega)
  have hnbytes : (decodeCR (encodeCR c)).nbytes = c.nbytes := by
    have hstop := c.stop.toNat_lt
    have hstart := c.start.toNat_lt
    have hrdWrn := c.rdWrn.toNat_lt
    exact BitVec.eq_of_toNat_eq (by rw [decodeCR_nbytes_toNat, hsum]; omega)
  refine crFields_ext hsadd ?rdWrn ?start ?stop hnbytes ?autoend <;> simp [decodeCR, encodeCR, bitWord]

/-- The must-be-zero bits: 31:27, 26, 24, 15, 12, 11 (30_encoding R72). -/
theorem mbzMask_bits : ∀ i < 32, mbzMask.getLsbD i = true → i ∈ [11, 12, 15, 24, 26, 27, 28, 29, 30, 31] := by
  decide

theorem crMbz_encodeCR (c : CrFields) : crMbz (encodeCR c) = 0 := by
  apply BitVec.eq_of_getLsbD_eq
  intro i hi
  rw [crMbz, BitVec.getLsbD_and]
  by_cases hm : mbzMask.getLsbD i = true
  · have hz : (encodeCR c).getLsbD i = false := by
      have := mbzMask_bits i hi hm
      fin_cases this <;> simp [encodeCR, bitWord]
    simp [hz]
  · simp [hm]

/-- Settles O6: decodeCR's fields are the stated bits by definition, and its inverse is encodeCR (30_encoding R76). -/
theorem decodeCrUndoesEncodeCr : Obligations.DecodeCrUndoesEncodeCr :=
  ⟨fun v => ⟨decodeCR_sadd_toNat v, rfl, rfl, rfl, decodeCR_nbytes_toNat v, rfl, rfl⟩,
    fun c => ⟨decodeCR_encodeCR c, crMbz_encodeCR c⟩⟩

end Sys2Proof.Machine
end

section
/-! PROOF. A host step that issues an access: the decoded instruction, then the delivery of the word read
(30_encoding R79; 42_bus_primitives R165; 43_device_protocol R181 to R183, R185). -/

namespace Sys2Proof.Machine

/-! The step. -/

theorem entered_mk (en : Bool) (act : Act) (s : State) :
    entered ⟨en, act⟩ s = { s with drv := if en then s.drv.startCall else s.drv } := by
  cases en <;> rfl

/-- A host step whose statement is a decodable access runs the instruction, then finishes the access. -/
theorem step_access {s : State} {ms : List Move} {en : Bool} {a : Access} {dest : Dest} {i : Instr}
    (hf : s.fault = none) (hm : s.moves = .host :: ms) (hr : s.drv.running = true)
    (hop : s.drv.prog[s.drv.pc]? = some ⟨en, .access a dest⟩) (hdec : decodeAccess a = .ok i) :
    step s = onNext (exec i { s with moves := ms, drv := if en then s.drv.startCall else s.drv })
      (finishAccess dest) := by
  rw [step_statement hf hm hr hop, entered_mk]
  simp only [runAct, perform_ok _ hdec]

/-- Settles O40: the step of an access, which needs no premise on its operand. -/
theorem stepRunsDecodedInstruction : Obligations.StepRunsDecodedInstruction :=
  fun _ _ _ _ _ _ hf hm hr hop hdec _ => step_access hf hm hr hop hdec

/-! Where the host has no step. -/

theorem hostStep_error {s : State} {e : DriverError} (h : s.drv.result = some (.error e)) :
    hostStep s = .fault (.endedWithError e) := by
  simp [hostStep, h]

theorem hostStep_ended {s : State} (hres : ∀ e, s.drv.result ≠ some (.error e)) (hpc : s.drv.prog.length ≤ s.drv.pc) :
    hostStep s = .fault .programEnded := by
  unfold hostStep
  split
  · next e he => exact absurd he (hres e)
  · rw [List.getElem?_eq_none hpc]

/-- Settles O48: the host's move finds the fatal error, or no statement at pc (30_encoding R79, 60_exceptions R216). -/
theorem endedHostStops : Obligations.EndedHostStops := by
  intro s ms hf hm
  rw [step_move hf hm]
  exact ⟨fun _ he => hostStep_error he, fun hres hpc => hostStep_ended hres hpc⟩

/-! The delivery. -/

theorem finishAccess_ok {dest : Dest} {s : State} {r : Driver}
    (h : deliver dest s.cfg.expectedCfgReadback s.rdata s.drv = .ok r) :
    finishAccess dest s = .next { s with drv := r.advance } := by
  rw [finishAccess, h]

theorem finishAccess_error {dest : Dest} {s : State} {j : Nat}
    (h : deliver dest s.cfg.expectedCfgReadback s.rdata s.drv = .error j) :
    finishAccess dest s = .fault (.unwrittenElement j) := by
  rw [finishAccess, h]

theorem storeBurst_more {n : Nat} {b : Byte} {d : Driver} (h : d.got + 1 ≠ n) :
    storeBurst n b d = .ok { d with buf := d.buf.write d.got b, got := d.got + 1 } :=
  if_neg h

theorem storeBurst_last {b : Byte} {d : Driver} {bs : List Byte}
    (h : (d.buf.write d.got b).readRange (d.got + 1) = .ok bs) :
    storeBurst (d.got + 1) b d =
      .ok { d with buf := d.buf.write d.got b, got := d.got + 1, result := some (.bytes bs) } := by
  simp only [storeBurst, if_true, h, Driver.return]

theorem storeBurst_gap {b : Byte} {d : Driver} {j : Nat}
    (h : (d.buf.write d.got b).readRange (d.got + 1) = .error j) : storeBurst (d.got + 1) b d = .error j := by
  simp only [storeBurst, if_true, h]

/-- A burst's buffer after its last byte: written throughout if it was written below that byte. -/
theorem write_written {m : Memory} {g : Nat} (b : Byte) (h : ∀ j, j < g → m.read j ≠ none) :
    ∀ j, j < g + 1 → (m.write g b).read j ≠ none := by
  intro j hj
  obtain hlt | rfl : j < g ∨ j = g := by omega
  · rw [Memory.read_write_other m b (by omega)]
    exact h j hlt
  · simp [Memory.read_write_same]

/-- The first gap below a burst's last byte is the first gap of the buffer after it. -/
theorem write_gap {m : Memory} {g j : Nat} (b : Byte) (hj : j < g) (h : m.read j = none)
    (hl : ∀ l, l < j → m.read l ≠ none) : (m.write g b).readRange (g + 1) = .error j := by
  refine Memory.readRange_gap (by omega) ?_ fun l hlt => ?_
  · rwa [Memory.read_write_other m b (by omega)]
  · rw [Memory.read_write_other m b (by omega)]
    exact hl l hlt

/-- The readback check records the byte exactly when one is expected and it differs (43_device_protocol R185). -/
theorem checkReadback_eq (expected : Option Byte) (b : Byte) (d : Driver) :
    checkReadback expected b d =
      { d with diags := d.diags ++ expected.elim [] fun e => if b = e then [] else [⟨b, e⟩] } := by
  unfold checkReadback
  split
  · simp
  · split <;> simp [*]

/-- Settles O59: the access answers `u`; a fault ends the step there, else the word goes to its destination
(30_encoding R79; 42 R165; 43 R181 to R183, R185; 60_exceptions R211). -/
theorem hostDeliversTheWordRead : Obligations.HostDeliversTheWordRead := by
  intro s u d ms en a dest i hf hm hr hop hdec hd hx
  have hstep : step s = onNext (.next u) (finishAccess dest) := by
    rw [step_access hf hm hr hop hdec, ← hd, hx]
  obtain ⟨hdrv, -, hcfg⟩ := exec_frame hx
  refine ⟨fun hu => ?_, fun hu => ?_⟩
  · obtain ⟨c, hc⟩ := Option.ne_none_iff_exists'.1 hu
    rw [hstep, onNext_fault hc]
  rw [onNext_live hu] at hstep
  have hok {r : Driver} (h : deliver dest s.cfg.expectedCfgReadback u.rdata d = .ok r) :
      step s = .next { u with drv := r.advance } := by
    rw [hstep, finishAccess_ok (r := r)]
    rwa [hcfg, hdrv]
  have hgap {j : Nat} (h : deliver dest s.cfg.expectedCfgReadback u.rdata d = .error j) :
      step s = .fault (.unwrittenElement j) := by
    rw [hstep, finishAccess_error (j := j)]
    rwa [hcfg, hdrv]
  refine ⟨byteOf u.rdata, BitVec.toNat_setWidth _ _, ?none, ?buf, ?burst, ?value, ?probe⟩
  case none => rintro rfl; exact hok rfl
  case buf =>
    rintro k rfl
    exact ⟨_, Memory.read_write_same .., fun _ hj => Memory.read_write_other _ _ hj, hok rfl⟩
  case burst =>
    rintro n rfl
    refine ⟨_, Memory.read_write_same .., fun _ hj => Memory.read_write_other _ _ hj, ?_, ?_, ?_⟩
    · exact fun hn => hok (storeBurst_more hn)
    · rintro rfl hw
      obtain ⟨bs, hbs, hlen, hread⟩ := Memory.readRange_written (write_written (byteOf u.rdata) hw)
      exact ⟨bs, hlen, hread, hok (storeBurst_last hbs)⟩
    · rintro j rfl hj hnone hlow
      exact hgap (storeBurst_gap (write_gap _ hj hnone hlow))
  case value => rintro rfl; exact hok rfl
  case probe =>
    rintro rfl
    rw [hok rfl, checkReadback_eq]
    cases s.cfg.expectedCfgReadback <;> rfl

end Sys2Proof.Machine
end

section
/-! PROOF. An instruction word of the opcode table, placed at pc (logs 1, 8), is what the host runs next. -/

namespace Sys2Proof

/-! The access of a table word (30_encoding R71, log 1). -/

/-- A word's bytes say which word it is. -/
theorem bytesOfWord_append_inj {u v : Word} {rest : List Byte} (h : bytesOfWord u = bytesOfWord v ++ rest) : u = v := by
  simp only [bytesOfWord, List.cons_append, List.nil_append, List.cons.injEq] at h
  obtain ⟨h0, h1, h2, h3, -⟩ := h
  rw [← wordOfBytes_bytes u, h0, h1, h2, h3, wordOfBytes_bytes]

/-- Bits 15:8 of a table word are its write enable and seven zeros. -/
theorem tableWord_ctl {x : BitVec 48} {we : Bool} (h : x.extractLsb' 8 8 = if we then 1 else 0) :
    x.getLsbD 8 = we ∧ x.extractLsb' 9 7 = 0 := by
  have hbit : x.getLsbD 8 = (x.extractLsb' 8 8).getLsbD 0 := by simp
  have hhigh : x.extractLsb' 9 7 = (x.extractLsb' 8 8).extractLsb' 1 7 := by
    ext k hk
    simp [← Nat.add_assoc, show 1 + k < 8 by omega]
  rw [hbit, hhigh, h]
  cases we <;> decide

theorem accessOfTableWord_eq {nbits w : Nat} {we : Bool}
    (h : (BitVec.ofNat 48 (w % 2 ^ nbits)).extractLsb' 8 8 = if we then 1 else 0) :
    accessOfTableWord nbits w =
      ⟨we, ((BitVec.ofNat 48 (w % 2 ^ nbits)).extractLsb' 0 8).setWidth 32, 4,
        (BitVec.ofNat 48 (w % 2 ^ nbits)).extractLsb' 16 32⟩ := by
  obtain ⟨hwe, hzero⟩ := tableWord_ctl h
  simp only [accessOfTableWord, hwe, hzero, if_true]

/-- A read's access word decodes to the read, whatever the data word (30_encoding R70). -/
theorem decodeWord_opcode_read {i : Instr} (h : dataWord i = none) (v : Word) : decodeWord (opcode i) v = .ok i := by
  cases i <;> simp [dataWord] at h <;> rfl

theorem decodeAccess_eq {a : Access} (hn : a.n = 4) (hal : a.off.toNat % 4 = 0) (hle : a.off.toNat ≤ 0xFF) :
    decodeAccess a = decodeWord (accessWord a.we (a.off.setWidth 8)) a.v := by
  rw [decodeAccess, if_neg (by simpa using hn), if_neg (by simpa using hal), if_neg (by omega)]

/-- A read access decodes to the same instruction with any data word (30_encoding R70). -/
theorem decodeAccess_read_any {off : Byte} {i : Instr} (h : decodeAccess ⟨false, off.setWidth 32, 4, 0⟩ = .ok i)
    (v : Word) : decodeAccess ⟨false, off.setWidth 32, 4, v⟩ = .ok i := by
  obtain ⟨hn, hal, hle, hw⟩ := decodeAccess_ok h
  obtain ⟨-, hdata⟩ := decodeAccess_byte_ok h
  obtain ⟨hop, -⟩ := decodeWord_ok hw
  calc decodeAccess ⟨false, off.setWidth 32, 4, v⟩
      = decodeWord (accessWord false ((off.setWidth 32).setWidth 8)) v := decodeAccess_eq hn hal hle
    _ = decodeWord (opcode i) v := by rw [← hop]
    _ = .ok i := decodeWord_opcode_read hdata v

/-- What a table word decodes to is what its access decodes to (log 1). -/
theorem decodeAccess_of_tableWord {nbits w : Nat} {i : Instr} (h : decodeTableWord nbits w = some i) :
    decodeAccess (accessOfTableWord nbits w) = .ok i := by
  unfold decodeTableWord at h
  split at h
  case h_2 => cases h
  case h_1 j rest hdec =>
    cases h
    rcases decode_ok hdec with ⟨off, v, hbs, hi⟩ | ⟨off, hbs, hi⟩ <;>
      simp only [bytesOfTableWord, List.cons.injEq] at hbs <;>
      obtain ⟨hoff, hctl, hdata⟩ := hbs
    · rw [accessOfTableWord_eq (we := true) hctl, hoff, bytesOfWord_append_inj hdata]
      exact hi
    · rw [accessOfTableWord_eq (we := false) hctl, hoff]
      exact decodeAccess_read_any hi _

end Sys2Proof

namespace Sys2Proof.Machine

/-! The placing (log 8). -/

@[simp] theorem Driver.cleared_prog (d : Driver) : d.cleared.prog = d.prog := by unfold Driver.cleared; split <;> rfl
@[simp] theorem Driver.cleared_pc (d : Driver) : d.cleared.pc = d.pc := by unfold Driver.cleared; split <;> rfl
@[simp] theorem Driver.cleared_polls (d : Driver) : d.cleared.polls = d.polls := by unfold Driver.cleared; split <;> rfl
@[simp] theorem Driver.cleared_inWait (d : Driver) : d.cleared.inWait = d.inWait := by
  unfold Driver.cleared; split <;> rfl
@[simp] theorem Driver.cleared_buf (d : Driver) : d.cleared.buf = d.buf := by unfold Driver.cleared; split <;> rfl
@[simp] theorem Driver.cleared_got (d : Driver) : d.cleared.got = d.got := by unfold Driver.cleared; split <;> rfl
@[simp] theorem Driver.cleared_diags (d : Driver) : d.cleared.diags = d.diags := by unfold Driver.cleared; split <;> rfl

theorem Driver.cleared_of_no_error {d : Driver} (h : ∀ e, d.result ≠ some (.error e)) : d.cleared = d := by
  unfold Driver.cleared
  split
  · next e he => exact absurd he (h e)
  · rfl

theorem Driver.cleared_no_error (d : Driver) (e : DriverError) : d.cleared.result ≠ some (.error e) := by
  unfold Driver.cleared
  split
  · simp
  · next hne => exact hne e

/-- The placed statement stands at pc, after the statements before it and the filling of a gap. -/
theorem getElem?_setStatement (prog : List Op) (pc : Nat) (op : Op) : (setStatement prog pc op)[pc]? = some op := by
  have hlen : (prog.take pc ++ List.replicate (pc - prog.length) (⟨false, .delay 0⟩ : Op)).length = pc := by
    simp; omega
  rw [setStatement, List.getElem?_append_right hlen.le, hlen, Nat.sub_self]
  rfl

/-- A driver without a fatal error that has a statement at pc is running. -/
theorem Driver.running_of_statement {d : Driver} {op : Op} (hres : ∀ e, d.result ≠ some (.error e))
    (hop : d.prog[d.pc]? = some op) : d.running = true := by
  obtain ⟨hlt, -⟩ := List.getElem?_eq_some_iff.1 hop
  unfold Driver.running
  split
  · next e he => exact absurd he (hres e)
  · exact decide_eq_true hlt

/-- The driver about to issue a placed access: its program holds the access at pc, and no fatal error is pending. -/
def Driver.placing (a : Access) (d : Driver) : Driver :=
  { d.cleared with prog := setStatement d.prog d.pc (accessOp a .none) }

theorem Driver.placing_statement (a : Access) (d : Driver) :
    (d.placing a).prog[(d.placing a).pc]? = some (accessOp a .none) := by
  simp only [Driver.placing, Driver.cleared_pc]
  exact getElem?_setStatement ..

theorem Driver.placing_running (a : Access) (d : Driver) : (d.placing a).running = true :=
  Driver.running_of_statement d.cleared_no_error (d.placing_statement a)

/-- A placed access is what the next step performs. -/
theorem step_withNextAccess {s : State} {a : Access} {i : Instr} (hf : s.fault = none) (hdec : decodeAccess a = .ok i) :
    step (withNextAccess s a) = onNext (exec i { s with drv := s.drv.placing a }) (finishAccess .none) :=
  step_access (s := withNextAccess s a) (ms := s.moves) (en := false) hf rfl (s.drv.placing_running a)
    (s.drv.placing_statement a) hdec

/-- Settles O41: the placed word's access decodes to the word's instruction, and the next step performs it
(30_encoding R71, 40_register_access R100; logs 1, 8). -/
theorem placedWordRunsNext : Obligations.PlacedWordRunsNext := by
  intro s nbits w i hf hw
  refine ⟨s.drv.placing (accessOfTableWord nbits w), step_withNextAccess hf (decodeAccess_of_tableWord hw),
    s.drv.placing_statement _, s.drv.cleared_pc, s.drv.cleared_polls, s.drv.cleared_inWait, s.drv.cleared_buf,
    s.drv.cleared_got, s.drv.cleared_diags, fun hres => ?_⟩
  rw [Driver.placing, Driver.cleared_of_no_error hres]

end Sys2Proof.Machine
end

section
/-! PROOF. What the transactions and the other statements of a driver program stand for (30_encoding R79, R80). -/

namespace Sys2Proof.Machine

/-! The transactions (30_encoding R80). -/

/-- The mark of a call changes no act. -/
@[simp] theorem map_act_entering (ops : List Op) : (entering ops).map Op.act = ops.map Op.act := by
  cases ops <;> rfl

theorem countOk_iff {n : Nat} : countOk n = true ↔ 1 ≤ n ∧ n ≤ 255 := by
  rw [countOk, Bool.and_eq_true, decide_eq_true_iff, decide_eq_true_iff]
  rfl

theorem startArgsOk_iff {a n : Nat} : startArgsOk a n = true ↔ a ≤ 0x3FF ∧ 1 ≤ n ∧ n ≤ 255 := by
  simp [startArgsOk, and_assoc]

/-- The acts of a start_read whose arguments fit (42_bus_primitives R162). -/
theorem map_act_startReadOps {a n : Nat} (ae : Bool) (h : startArgsOk a n = true) : (startReadOps a n ae).map Op.act =
    [.access ⟨true, 0x04, 4, encodeCR ⟨BitVec.ofNat 10 a, true, true, false, BitVec.ofNat 8 n, ae⟩⟩ .none] := by
  rw [startReadOps, if_pos h]
  rfl

/-- The CR word of read_burst's read of `n` bytes at 0x03C (30_encoding R80). -/
theorem burstStart_toNat {n : Nat} (h : n ≤ 255) :
    (encodeCR ⟨0x03C, true, true, false, BitVec.ofNat 8 n, true⟩).toNat = 0x0200243C + n * 2 ^ 16 := by
  have hn : (BitVec.ofNat 8 n).toNat = n := by rw [BitVec.toNat_ofNat]; omega
  have ha : (0x03C : BitVec 10).toNat = 0x03C := rfl
  rw [encodeCR_toNat, hn, ha]
  simp only [Bool.toNat_true, Bool.toNat_false]
  omega

/-- Settles O47: the transactions' statements with SLAVE_ADDR = 0x03C; the CR words of one and two bytes are R75's
worked values, the burst's is its count at bits 23:16 (30_encoding R80). -/
theorem transactionExpansions : Obligations.TransactionExpansions := by
  intro c hc
  refine ⟨fun reg => ?_, fun reg v => ?_, fun reg n h1 h255 => ?_, fun reg n hn => ?_⟩
  · rw [readRegisterOps, map_act_entering, hc]
    rfl
  · rw [writeRegisterOps, map_act_entering, hc]
    rfl
  · refine ⟨_, burstStart_toNat h255, ?_⟩
    rw [readBurstOps, map_act_entering, if_pos (countOk_iff.2 ⟨h1, h255⟩), hc, List.map_append, List.map_append,
      map_act_startReadOps true (startArgsOk_iff.2 ⟨by decide, h1, h255⟩), List.map_flatten, List.map_replicate]
    rfl
  · rw [readBurstOps, map_act_entering, if_neg (by rw [countOk_iff]; omega)]
    rfl

/-! The mark of a call (log 9). -/

/-- Statements none of which carries the mark of a call. -/
def Unmarked (ops : List Op) : Prop := ∀ x ∈ ops, x.enter = false

/-- A program whose first statement and no other carries the mark of a call. -/
def MarkedOnce (prog : List Op) : Prop := ∃ op ops, prog = op :: ops ∧ op.enter = true ∧ Unmarked ops

@[simp] theorem unmarked_append {l r : List Op} : Unmarked (l ++ r) ↔ Unmarked l ∧ Unmarked r :=
  List.forall_mem_append

@[simp] theorem unmarked_flatten_replicate {l : List Op} (n : Nat) (h : Unmarked l) :
    Unmarked (List.replicate n l).flatten := by
  intro x hx
  obtain ⟨l', hl', hx⟩ := List.mem_flatten.1 hx
  rw [List.eq_of_mem_replicate hl'] at hx
  exact h x hx

theorem markedOnce_entering {ops : List Op} (hne : ops ≠ []) (h : Unmarked ops) : MarkedOnce (entering ops) := by
  cases ops with
  | nil => exact absurd rfl hne
  | cons op ops => exact ⟨_, ops, rfl, rfl, fun x hx => h x (List.mem_cons_of_mem _ hx)⟩

/-! No primitive's statement carries the mark. -/

@[simp] theorem unmarked_startWriteOps (a n : Nat) : Unmarked (startWriteOps a n) := by
  unfold startWriteOps
  split <;> simp [Unmarked, accessOp]

@[simp] theorem unmarked_startReadOps (a n : Nat) (ae : Bool) : Unmarked (startReadOps a n ae) := by
  unfold startReadOps
  split <;> simp [Unmarked, accessOp]

@[simp] theorem unmarked_sendByteOps (b : Byte) : Unmarked (sendByteOps b) := by
  simp [Unmarked, sendByteOps, pollOp, accessOp]

@[simp] theorem unmarked_awaitTransferCompleteOps : Unmarked awaitTransferCompleteOps := by
  simp [Unmarked, awaitTransferCompleteOps, pollOp]

@[simp] theorem unmarked_recvByteOps (w : Waiter) (d : Dest) : Unmarked (recvByteOps w d) := by
  simp [Unmarked, recvByteOps, pollOp, accessOp]

/-! The transactions' marks. -/

theorem readRegisterOps_markedOnce (c : Config) (reg : Byte) : MarkedOnce (readRegisterOps c reg) :=
  markedOnce_entering (by simp [sendByteOps]) (by simp)

theorem writeRegisterOps_markedOnce (c : Config) (reg v : Byte) : MarkedOnce (writeRegisterOps c reg v) :=
  markedOnce_entering (by simp [sendByteOps]) (by simp)

theorem readBurstOps_markedOnce (c : Config) (reg : Byte) (n : Nat) : MarkedOnce (readBurstOps c reg n) := by
  unfold readBurstOps
  split
  · exact markedOnce_entering (by simp [sendByteOps]) (by simp)
  · exact markedOnce_entering (by simp) (by simp [Unmarked])

/-! The steps of a delay and of the end of a forever body (30_encoding R79). -/

theorem step_delay {s : State} {ms : List Move} {n : Nat} (hf : s.fault = none) (hm : s.moves = .host :: ms)
    (hr : s.drv.running = true) (hop : s.drv.prog[s.drv.pc]? = some ⟨false, .delay n⟩) :
    step s = .next { s with moves := ms, drv := { s.drv with pc := s.drv.pc + 1 } } := by
  rw [step_statement hf hm hr hop]
  rfl

theorem step_jumpBack {s : State} {ms : List Move} {k : Nat} (hf : s.fault = none) (hm : s.moves = .host :: ms)
    (hr : s.drv.running = true) (hop : s.drv.prog[s.drv.pc]? = some ⟨false, .jumpBack k⟩) :
    step s = .next { s with moves := ms, drv := { s.drv with pc := s.drv.pc - k } } := by
  rw [step_statement hf hm hr hop]
  rfl

/-- The end of a forever body is a jump back over it. -/
theorem getElem?_forever_end (c : Config) (pre : List Op) (body : List Stmt) (post : List Op) :
    (pre ++ Stmt.expand c (.forever body) ++ post)[pre.length + (expand c body).length]? =
      some ⟨false, .jumpBack (expand c body).length⟩ := by
  have he : Stmt.expand c (.forever body) = expand c body ++ [⟨false, .jumpBack (expand c body).length⟩] := rfl
  rw [he, List.append_assoc, List.getElem?_append_right (by omega), Nat.add_sub_cancel_left, List.append_assoc,
    List.getElem?_append_right (by omega), Nat.sub_self]
  rfl

/-- Settles O60: the statements' forms are their definitions, a transaction marks its first statement alone, and the
two steps run the statement at pc (30_encoding R79, R80). -/
theorem statementExpansions : Obligations.StatementExpansions := by
  refine ⟨fun c => ⟨fun _ _ => rfl, fun _ _ _ => rfl, fun _ => rfl, fun b => ⟨wordOf b, wordOf_toNat b, rfl, rfl⟩, rfl,
    fun _ => rfl, fun _ => rfl, fun _ _ => ⟨rfl, rfl⟩, fun _ _ _ => ⟨rfl, rfl⟩, fun _ => rfl, rfl, rfl, fun _ => rfl,
    fun _ _ => rfl, fun _ _ => rfl, ?marks, rfl, fun _ => rfl, fun _ => rfl, fun _ _ => rfl, fun _ => rfl, rfl,
    fun _ _ => rfl⟩, fun s ms hf hm hr => ⟨fun _ hop => step_delay hf hm hr hop, ?jump⟩⟩
  case marks =>
    rintro prog (⟨reg, rfl⟩ | ⟨reg, v, rfl⟩ | ⟨reg, n, rfl⟩)
    · exact readRegisterOps_markedOnce c reg
    · exact writeRegisterOps_markedOnce c reg v
    · exact readBurstOps_markedOnce c reg n
  case jump =>
    intro pre body post hprog hpc
    have hop : s.drv.prog[s.drv.pc]? = some ⟨false, .jumpBack (expand s.cfg body).length⟩ := by
      rw [hprog, hpc]
      exact getElem?_forever_end s.cfg pre body post
    rw [step_jumpBack hf hm hr hop, hpc, Nat.add_sub_cancel]

end Sys2Proof.Machine
end

section
/-! PROOF. Access decode at the block: the operation, or F01 (40_register_access R100). -/

namespace Sys2Proof.Machine

/-- A decoded access is 4 bytes wide and stands at its instruction's offset. -/
theorem decodeAccess_ok_offset {a : Access} {i : Instr} (h : decodeAccess a = .ok i) :
    a.n = 4 ∧ a.off = ((opcode i).setWidth 8).setWidth 32 := by
  obtain ⟨hn, -, hle, hw⟩ := decodeAccess_ok h
  obtain ⟨hop, -⟩ := decodeWord_ok hw
  refine ⟨hn, ?_⟩
  rw [← hop, accessWord_low]
  apply BitVec.eq_of_toNat_eq
  simp only [BitVec.toNat_setWidth]
  omega

/-- The instructions' offsets are those of the four registers (20_memory R59). -/
theorem opcode_offset (i : Instr) :
    ((opcode i).setWidth 8).setWidth 32 = (0x04 : Word) ∨ ((opcode i).setWidth 8).setWidth 32 = (0x18 : Word) ∨
    ((opcode i).setWidth 8).setWidth 32 = (0x24 : Word) ∨ ((opcode i).setWidth 8).setWidth 32 = (0x28 : Word) := by
  cases i <;> simp [opcode]

/-- An access that decodes to no instruction raises F01 and does nothing else. -/
theorem perform_undecoded {a : Access} {s : State} (hf : s.fault = none) (h : ∀ i, decodeAccess a ≠ .ok i) :
    perform a s = .next { s with fault := some .badAccess } := by
  unfold perform
  split
  · next i hi => exact absurd hi (h i)
  · exact whileLive_live hf

/-- A write whose access word is an instruction's performs it. -/
theorem perform_write {off : Byte} {v : Word} {i : Instr} (s : State) (hop : opcode i = accessWord true off)
    (hv : dataWord i = some v) : perform ⟨true, off.setWidth 32, 4, v⟩ s = exec i s := by
  have henc := encodeAccess_write hv
  rw [hop, accessWord_low] at henc
  exact perform_ok s (henc ▸ decodeAccess_encodeAccess i)

/-- A read whose access word is an instruction's performs it, whatever the data word (30_encoding R70). -/
theorem perform_read {off : Byte} {i : Instr} (v : Word) (s : State) (hop : opcode i = accessWord false off)
    (hv : dataWord i = none) : perform ⟨false, off.setWidth 32, 4, v⟩ s = exec i s := by
  have henc := encodeAccess_read hv
  rw [hop, accessWord_low] at henc
  exact perform_ok s (decodeAccess_read_any (henc ▸ decodeAccess_encodeAccess i) v)

/-- Settles O2: only width 4 and the four offsets decode, and each table pair decodes to its operation
(40_register_access R100). -/
theorem accessDecodeSelectsOrRaisesF01 : Obligations.AccessDecodeSelectsOrRaisesF01 := by
  refine ⟨fun we off n v s hf hbad => perform_undecoded hf fun i hi => ?_, fun v s => ?_⟩
  · obtain ⟨hn, hoff : off = _⟩ := decodeAccess_ok_offset hi
    rcases hbad with hwidth | hother
    · exact hwidth hn
    · rw [hoff] at hother
      exact hother (opcode_offset i)
  · exact ⟨perform_write (off := 0x04) s rfl rfl, perform_read (off := 0x04) v s rfl rfl,
      perform_read (off := 0x18) v s rfl rfl, perform_write (off := 0x18) s rfl rfl,
      perform_write (off := 0x28) s rfl rfl, perform_read (off := 0x28) v s rfl rfl,
      perform_read (off := 0x24) v s rfl rfl, perform_write (off := 0x24) s rfl rfl⟩

end Sys2Proof.Machine
end

section
/-! PROOF. WRITE_CR and READ_CR (40_register_access R101 to R106): the checks, the latch, and what an accepted write
does. -/

namespace Sys2Proof.Machine

/-! The checks in their order (40_register_access R101). -/

theorem busy_of_open {p : Phase} (h : p = .idle ∨ p = .completing) : p.busy = false := by
  rcases h with rfl | rfl <;> rfl

theorem busy_of_active {p : Phase} (h : (∃ d, p = .addressing d) ∨ ∃ d r, p = .transferring d r) : p.busy = true := by
  rcases h with ⟨d, rfl⟩ | ⟨d, r, rfl⟩ <;> rfl

theorem crFault_reserved {v : Word} (s : State) (hm : crMbz v ≠ 0) : crFault v s = some .crReserved :=
  if_pos hm

theorem crFault_busy {v : Word} {s : State} (hm : crMbz v = 0) (hb : s.phase.busy = true) :
    crFault v s = some .crBusy := by
  simp [crFault, hm, hb]

section
variable {v : Word} {s : State}

theorem crFault_startAndStop (hm : crMbz v = 0) (hb : s.phase.busy = false) (hstart : (decodeCR v).start = true)
    (hstop : (decodeCR v).stop = true) : crFault v s = some .startAndStop := by
  simp [crFault, hm, hb, hstart, hstop]

theorem crFault_stopNotHeld (hm : crMbz v = 0) (hb : s.phase.busy = false) (hstart : (decodeCR v).start = false)
    (hstop : (decodeCR v).stop = true) (hp : s.phase ≠ .completing) : crFault v s = some .stopNotHeld := by
  simp [crFault, hm, hb, hstart, hstop, hp]

theorem crFault_nbytesZero (hm : crMbz v = 0) (hb : s.phase.busy = false) (hstart : (decodeCR v).start = true)
    (hstop : (decodeCR v).stop = false) (hn : (decodeCR v).nbytes = 0) : crFault v s = some .nbytesZero := by
  simp [crFault, hm, hb, hstart, hstop, hn]

theorem crFault_rxPending (hm : crMbz v = 0) (hb : s.phase.busy = false) (hstart : (decodeCR v).start = true)
    (hstop : (decodeCR v).stop = false) (hn : (decodeCR v).nbytes ≠ 0) (hr : s.sr.rxne = true) :
    crFault v s = some .rxPending := by
  simpa [crFault, hm, hb, hstart, hstop, hr] using hn

/-- A CR write with START alone passes its checks in Idle and Completing with NBYTES ≥ 1 and no unread byte. -/
theorem crFault_none_of_start (hm : crMbz v = 0) (hp : s.phase = .idle ∨ s.phase = .completing)
    (hstop : (decodeCR v).stop = false) (hn : (decodeCR v).nbytes ≠ 0) (hr : s.sr.rxne = false) :
    crFault v s = none :=
  crFault_none_of hm (busy_of_open hp) (by simp [hstop]) (by simp [hstop]) fun _ => ⟨hn, hr⟩

/-- A CR write without START passes its checks in Idle and Completing, with STOP only in the latter. -/
theorem crFault_none_of_no_start (hm : crMbz v = 0) (hp : s.phase = .idle ∨ s.phase = .completing)
    (hstart : (decodeCR v).start = false) (hstop : (decodeCR v).stop = true → s.phase = .completing) :
    crFault v s = none :=
  crFault_none_of hm (busy_of_open hp) (by simp [hstart]) hstop (by simp [hstart])

end

/-- Settles O7: each clause is one check of `crFault`, and when none fails the latch gives CR its fields, which the
write's action keeps (40_register_access R101, 60_exceptions R213). -/
theorem writeCrChecksThenLatches : Obligations.WriteCrChecksThenLatches := by
  intro v s hf
  refine ⟨fun hm => execWriteCr_refused hf (crFault_reserved s hm), fun hm =>
    ⟨fun hp => execWriteCr_refused hf (crFault_busy hm (busy_of_active hp)), fun hp => ?_⟩⟩
  have hb := busy_of_open hp
  refine ⟨fun hstart hstop => execWriteCr_refused hf (crFault_startAndStop hm hb hstart hstop),
    fun hstart hstop hc => execWriteCr_refused hf (crFault_stopNotHeld hm hb hstart hstop hc),
    fun hstart hstop hn => execWriteCr_refused hf (crFault_nbytesZero hm hb hstart hstop hn),
    fun hstart hstop hn hr => execWriteCr_refused hf (crFault_rxPending hm hb hstart hstop hn hr),
    fun hboth hstop hstart => ?_⟩
  obtain ⟨hfault, -, -, -, -, -, hcr, -, -⟩ := crAct_outside (decodeCR v) (latchCr (decodeCR v) s)
  exact ⟨_, execWriteCr_accepted hf (crFault_none_of hm hb hboth hstop hstart), hfault.trans hf, hcr⟩

/-! What an accepted write does after its latch (40_register_access R102 to R105). -/

theorem crAct_start_idle {c : CrFields} {s : State} (hp : s.phase = .idle) (hstart : c.start = true) :
    crAct c s = startCondition c s := by
  simp [crAct, hp, hstart]

theorem crAct_start_completing {c : CrFields} {s : State} (hp : s.phase = .completing) (hstart : c.start = true) :
    crAct c s = restartCondition c s := by
  simp [crAct, hp, hstart]

theorem crAct_stop_completing {c : CrFields} {s : State} (hp : s.phase = .completing) (hstart : c.start = false)
    (hstop : c.stop = true) : crAct c s = stopCondition s := by
  simp [crAct, hp, hstart, hstop]

theorem crAct_no_trigger {c : CrFields} (s : State) (hstart : c.start = false) (hstop : c.stop = false) :
    crAct c s = s := by
  unfold crAct
  split <;> simp [hstart, hstop]

/-- Settles O8: an accepted write whose action is `startCondition` (40_register_access R102). -/
theorem startInIdleBeginsAddressing : Obligations.StartInIdleBeginsAddressing := by
  intro v s hf hm hp hstart hstop hn hr
  have hx := execWriteCr_accepted hf (crFault_none_of_start hm (.inl hp) hstop hn hr)
  rwa [crAct_start_idle (s := latchCr _ s) hp hstart] at hx

/-- Settles O9: an accepted write whose action is `restartCondition` (40_register_access R103). -/
theorem startInCompletingRestarts : Obligations.StartInCompletingRestarts := by
  intro v s hf hm hp hstart hstop hn hr
  have hx := execWriteCr_accepted hf (crFault_none_of_start hm (.inr hp) hstop hn hr)
  rwa [crAct_start_completing (s := latchCr _ s) hp hstart] at hx

/-- Settles O10: an accepted write whose action is `stopCondition` (40_register_access R104). -/
theorem stopInCompletingReleasesBus : Obligations.StopInCompletingReleasesBus := by
  intro v s hf hm hp hstart hstop
  have hx := execWriteCr_accepted hf (crFault_none_of_no_start hm (.inr hp) hstart fun _ => hp)
  rwa [crAct_stop_completing (s := latchCr _ s) hp hstart hstop] at hx

/-- Settles O11: an accepted write without an action is its latch (40_register_access R105). -/
theorem crWriteWithoutTriggerLatchesOnly : Obligations.CrWriteWithoutTriggerLatchesOnly := by
  intro v s hf hm hp hstart hstop
  have hc : crFault v s = none :=
    crFault_none_of_no_start hm hp hstart fun h => absurd (hstop.symm.trans h) Bool.false_ne_true
  have hx := execWriteCr_accepted hf hc
  rwa [crAct_no_trigger _ hstart hstop] at hx

/-! READ_CR (40_register_access R106). -/

/-- The word READ_CR returns is the latched fields' CR word with neither trigger. -/
theorem crWord_eq_encodeCR (r : ControlReg) :
    crWord r = encodeCR ⟨r.sadd, r.rdWrn, false, false, r.nbytes, r.autoend⟩ := by
  simp [crWord, encodeCR, bitWord]

/-- Settles O12: the word read is a CR word without triggers, and so the sum of the latched fields
(40_register_access R106). -/
theorem readCrReturnsLatchedFields : Obligations.ReadCrReturnsLatchedFields := by
  intro s hf
  refine ⟨crWord s.cr, whileLive_live hf, ?_⟩
  rw [crWord_eq_encodeCR, encodeCR_toNat]
  simp

end Sys2Proof.Machine
end

section
/-! PROOF. The status register's and the data registers' accesses (40_register_access R107 to R112). -/

namespace Sys2Proof.Machine

/-- A bit shifted to its place sets no other. -/
theorem bitWord_shift_getLsbD_other (b : Bool) {n k : Nat} (h : k ≠ n) : (bitWord b <<< n).getLsbD k = false := by
  rw [bitWord, BitVec.getLsbD_shiftLeft, BitVec.getLsbD_setWidth, BitVec.getLsbD_ofBool]
  by_cases hlt : k < n
  · simp [hlt]
  · have hne : k - n ≠ 0 := by omega
    simp [hne]

/-- Every bit of SR but 1, 2 and 6 is undefined, and so the draw's (30_encoding R73). -/
theorem srWord_getLsbD_other (d : Word) (r : StatusReg) {k : Nat} (h1 : k ≠ 1) (h2 : k ≠ 2) (h6 : k ≠ 6) :
    (srWord d r).getLsbD k = d.getLsbD k := by
  by_cases hk : k < 32
  · have hmask : srMask.getLsbD k = false := by
      have hbits : ∀ j < 32, srMask.getLsbD j = true → j = 1 ∨ j = 2 ∨ j = 6 := by decide
      by_contra hset
      have := hbits k hk (by simpa using hset)
      omega
    have hflags : (srBits r).getLsbD k = false := by
      change (bitWord r.tc <<< 6 ||| bitWord r.rxne <<< 2 ||| bitWord r.txis <<< 1).getLsbD k = false
      simp only [BitVec.getLsbD_or, bitWord_shift_getLsbD_other _ h1, bitWord_shift_getLsbD_other _ h2,
        bitWord_shift_getLsbD_other _ h6, Bool.or_false]
    rw [srWord, BitVec.getLsbD_or, BitVec.getLsbD_and, BitVec.getLsbD_not, hmask, hflags]
    simp [hk]
  · rw [BitVec.getLsbD_of_ge _ _ (by omega), BitVec.getLsbD_of_ge _ _ (by omega)]

/-- Settles O13: the flags stand at their bits, as a poll sees them, and every other bit is the draw's
(40_register_access R107, 30_encoding R73). -/
theorem readSrShowsFlagsAndClearsNone : Obligations.ReadSrShowsFlagsAndClearsNone := by
  intro s hf
  exact ⟨srWord (Config.freeWord s.draws) s.sr, whileLive_live hf, flagSeen_srWord .txis _ s.sr,
    flagSeen_srWord .rxne _ s.sr, flagSeen_srWord .tc _ s.sr, fun k => srWord_getLsbD_other _ s.sr⟩

/-- Settles O14: both writes raise F02, whatever their data word (40_register_access R108, R112). -/
theorem readOnlyRegistersRefuseWrites : Obligations.ReadOnlyRegistersRefuseWrites :=
  fun _ _ hf => ⟨whileLive_live hf, whileLive_live hf⟩

/-- Settles O15: TXIS decides between storing the low byte and F09 (40_register_access R109). -/
theorem writeTxdrStoresLowByte : Obligations.WriteTxdrStoresLowByte := by
  intro v s hf
  exact ⟨fun ht => ⟨byteOf v, BitVec.toNat_setWidth 8 v, (whileLive_live hf).trans (if_pos ht)⟩,
    fun ht => (whileLive_live hf).trans (if_neg (Bool.eq_false_iff.1 ht))⟩

/-- Settles O16: the word read is TXDR's (40_register_access R110). -/
theorem readTxdrReturnsByteZeroExtended : Obligations.ReadTxdrReturnsByteZeroExtended :=
  fun s hf => ⟨wordOf s.txdr, wordOf_toNat s.txdr, whileLive_live hf⟩

/-- Settles O17: RXNE decides between taking the byte and F10 (40_register_access R111). -/
theorem readRxdrTakesTheByte : Obligations.ReadRxdrTakesTheByte := by
  intro s hf
  exact ⟨fun hr => ⟨wordOf s.rxdr, wordOf_toNat s.rxdr, (whileLive_live hf).trans (if_pos hr)⟩,
    fun hr => (whileLive_live hf).trans (if_neg (Bool.eq_false_iff.1 hr))⟩

end Sys2Proof.Machine
end

section
/-! PROOF. What each instruction leaves unchanged (40_register_access R101 to R112). -/

namespace Sys2Proof.Machine

/-- A CR write's action leaves TXIS and RXNE alone (40_register_access R102 to R105). -/
theorem crAct_flags (c : CrFields) {s : State} (hp : s.phase = .idle ∨ s.phase = .completing) :
    (crAct c s).sr.txis = s.sr.txis ∧ (crAct c s).sr.rxne = s.sr.rxne := by
  rcases crAct_cases c s hp with ⟨-, -, he⟩ | ⟨-, -, he⟩ | ⟨-, -, -, he⟩ | ⟨-, he⟩ <;> rw [he] <;> exact ⟨rfl, rfl⟩

/-- An accepted CR write keeps the data registers, TXIS and RXNE. -/
theorem crAct_latchCr_data {v : Word} {s : State} (hc : crFault v s = none) :
    (crAct (decodeCR v) (latchCr (decodeCR v) s)).txdr = s.txdr ∧
    (crAct (decodeCR v) (latchCr (decodeCR v) s)).rxdr = s.rxdr ∧
    (crAct (decodeCR v) (latchCr (decodeCR v) s)).sr.txis = s.sr.txis ∧
    (crAct (decodeCR v) (latchCr (decodeCR v) s)).sr.rxne = s.sr.rxne := by
  obtain ⟨-, -, -, -, -, -, -, htxdr, hrxdr⟩ := crAct_outside (decodeCR v) (latchCr (decodeCR v) s)
  obtain ⟨htxis, hrxne⟩ := crAct_flags (decodeCR v) (s := latchCr (decodeCR v) s) (crFault_none_phase hc)
  exact ⟨htxdr, hrxdr, htxis, hrxne⟩

section
variable {i : Instr} {s t : State}

theorem exec_rxdr (h : exec i s = .next t) : t.rxdr = s.rxdr := by
  rcases exec_block h with hb | ⟨v, -, hc, rfl⟩ | ⟨v, -, -, hb⟩ | ⟨-, -, hb⟩
  · exact congrArg Block.rxdr hb
  · obtain ⟨-, hrxdr, -, -⟩ := crAct_latchCr_data hc
    exact hrxdr
  · exact congrArg Block.rxdr hb
  · exact congrArg Block.rxdr hb

theorem exec_control (h : exec i s = .next t) (hi : ∀ v, i ≠ .writeCr v) :
    t.phase = s.phase ∧ t.cr = s.cr ∧ t.hist = s.hist ∧ t.sr.tc = s.sr.tc := by
  rcases exec_block h with hb | ⟨v, he, -⟩ | ⟨v, -, -, hb⟩ | ⟨-, -, hb⟩
  case inr.inl => exact absurd he (hi v)
  all_goals exact ⟨congrArg Block.phase hb, congrArg Block.cr hb, congrArg Block.hist hb, congrArg (·.sr.tc) hb⟩

theorem exec_transmit (h : exec i s = .next t) (hi : ∀ v, i ≠ .writeTxdr v) :
    t.txdr = s.txdr ∧ t.sr.txis = s.sr.txis := by
  rcases exec_block h with hb | ⟨v, -, hc, rfl⟩ | ⟨v, he, -⟩ | ⟨-, -, hb⟩
  · exact ⟨congrArg Block.txdr hb, congrArg (·.sr.txis) hb⟩
  · obtain ⟨htxdr, -, htxis, -⟩ := crAct_latchCr_data hc
    exact ⟨htxdr, htxis⟩
  · exact absurd he (hi v)
  · exact ⟨congrArg Block.txdr hb, congrArg (·.sr.txis) hb⟩

theorem exec_rxne (h : exec i s = .next t) (hi : i ≠ .readRxdr) : t.sr.rxne = s.sr.rxne := by
  rcases exec_block h with hb | ⟨v, -, hc, rfl⟩ | ⟨v, -, -, hb⟩ | ⟨he, -⟩
  · exact congrArg (·.sr.rxne) hb
  · obtain ⟨-, -, -, hrxne⟩ := crAct_latchCr_data hc
    exact hrxne
  · exact congrArg (·.sr.rxne) hb
  · exact absurd he hi

/-- The read word changes under the four reads alone, the count of draws under READ_SR alone. -/
theorem exec_rdata_draws (h : exec i s = .next t) :
    (i ≠ .readCr → i ≠ .readSr → i ≠ .readTxdr → i ≠ .readRxdr → t.rdata = s.rdata) ∧
    (i ≠ .readSr → t.draws = s.draws) := by
  cases i with
  | writeCr v =>
    obtain ⟨-, ⟨f, -, rfl⟩ | ⟨-, rfl⟩⟩ := execWriteCr_next h
    · exact ⟨fun _ _ _ _ => rfl, fun _ => rfl⟩
    · obtain ⟨-, -, -, -, hdraws, hrdata, -⟩ := crAct_outside (decodeCR v) (latchCr (decodeCR v) s)
      exact ⟨fun _ _ _ _ => hrdata, fun _ => hdraws⟩
  | readCr => obtain ⟨-, rfl⟩ := execReadCr_next h; exact ⟨fun hn => absurd rfl hn, fun _ => rfl⟩
  | readSr => exact ⟨fun _ hn => absurd rfl hn, fun hn => absurd rfl hn⟩
  | writeSr v => obtain ⟨-, rfl⟩ := execWriteSr_next (v := v) h; exact ⟨fun _ _ _ _ => rfl, fun _ => rfl⟩
  | writeTxdr v =>
    obtain ⟨-, ⟨-, rfl⟩ | ⟨-, rfl⟩⟩ := execWriteTxdr_next h <;> exact ⟨fun _ _ _ _ => rfl, fun _ => rfl⟩
  | readTxdr => obtain ⟨-, rfl⟩ := execReadTxdr_next h; exact ⟨fun _ _ hn => absurd rfl hn, fun _ => rfl⟩
  | readRxdr =>
    obtain ⟨-, ⟨-, rfl⟩ | ⟨-, rfl⟩⟩ := execReadRxdr_next h <;> exact ⟨fun _ _ _ hn => absurd rfl hn, fun _ => rfl⟩
  | writeRxdr v => obtain ⟨-, rfl⟩ := execWriteRxdr_next (v := v) h; exact ⟨fun _ _ _ _ => rfl, fun _ => rfl⟩

end

/-- Settles O18: one frame per element, the host's side whole and the block's by what an instruction can do to it
(40_register_access R101 to R112). -/
theorem instructionFrames : Obligations.InstructionFrames := by
  intro i s t h
  obtain ⟨hdrv, hmoves, hcfg⟩ := exec_frame h
  obtain ⟨hrdata, hdraws⟩ := exec_rdata_draws h
  exact ⟨hdrv, hmoves, hcfg, exec_rxdr h, fun _ => by rw [hdrv], exec_control h, exec_transmit h, exec_rxne h, hrdata,
    hdraws⟩

end Sys2Proof.Machine
end

section
/-! PROOF. The events of HIST and their bracketing (10_state R28, 41_bus_sequencer R145). -/

namespace Sys2Proof.Machine

/-- An event that neither starts a transaction nor ends one. -/
def Event.inside (e : Event) : Prop := e.isStart = false ∧ e.ends = false

theorem Event.isStart_of_ends {e : Event} (he : e.ends = true) : e.isStart = false := by
  cases e with
  | start => cases he
  | _ => rfl

/-! One more event of a bracketed history. -/

section
variable {l : List Event} {e : Event}

theorem bracket_append_start (h : bracket l = some false) (sadd : BitVec 10) (d : Dir) :
    bracket (l ++ [.start sadd d]) = some true := by
  rw [bracket_append, h]
  rfl

theorem bracket_append_inside (h : bracket l = some true) (he : e.inside) : bracket (l ++ [e]) = some true := by
  obtain ⟨hstart, hends⟩ := he
  simp [bracket_append, h, bracketStep, hstart, hends]

theorem bracket_append_end (h : bracket l = some true) (he : e.ends = true) : bracket (l ++ [e]) = some false := by
  simp [bracket_append, h, bracketStep, he, Event.isStart_of_ends he]

/-- A reset ends whatever is open, and may stand where nothing is. -/
theorem bracket_append_reset {b : Bool} (h : bracket l = some b) : bracket (l ++ [.reset]) = some false := by
  rw [bracket_append, h]
  cases b <;> rfl

end

/-! What the bracketing of HIST says of PHASE. -/

section
variable {s : State}

theorem bracketed_iff : s.block.bracketed = true ↔ bracket s.hist = some (decide (s.phase ≠ .idle)) :=
  decide_eq_true_iff

theorem bracketed_of_idle (hp : s.phase = .idle) : s.block.bracketed = true ↔ bracket s.hist = some false := by
  simp [bracketed_iff, hp]

theorem bracketed_of_open (hp : s.phase ≠ .idle) : s.block.bracketed = true ↔ bracket s.hist = some true := by
  simp [bracketed_iff, hp]

end

/-! Each agent's events. -/

/-- A Start stands in Idle alone; Restart and Stop stand in Completing alone (40_register_access R102 to R105). -/
theorem crAct_keeps_bracketed {w : Word} {s : State} (hb : s.block.bracketed = true) (hc : crFault w s = none) :
    (crAct (decodeCR w) (latchCr (decodeCR w) s)).block.bracketed = true := by
  have hopen (hp : s.phase = .completing) : bracket s.hist = some true := (bracketed_of_open (by simp [hp])).1 hb
  rcases crAct_cases (decodeCR w) (latchCr (decodeCR w) s) (crFault_none_phase hc) with
    ⟨-, hp, he⟩ | ⟨-, hp, he⟩ | ⟨-, -, hp, he⟩ | ⟨-, he⟩ <;> rw [he]
  · exact (bracketed_of_open (by simp [startCondition])).2 (bracket_append_start ((bracketed_of_idle hp).1 hb) _ _)
  · exact (bracketed_of_open (by simp [restartCondition])).2 (bracket_append_inside (hopen hp) ⟨rfl, rfl⟩)
  · exact (bracketed_of_idle rfl).2 (bracket_append_end (hopen hp) rfl)
  · exact hb

theorem exec_keeps_bracketed {i : Instr} {u v : State} (hb : u.block.bracketed = true) (h : exec i u = .next v) :
    v.block.bracketed = true := by
  rcases exec_block h with hv | ⟨w, -, hc, rfl⟩ | ⟨w, -, -, hv⟩ | ⟨-, -, hv⟩
  · rwa [hv]
  · exact crAct_keeps_bracketed hb hc
  · rw [hv]; exact hb
  · rw [hv]; exact hb

/-- What a bus step appends to HIST, outside Idle, and whether it goes to Idle: one event inside the transaction, one
followed by the Stop that ends it, or an Abort (41_bus_sequencer R132 to R142). -/
theorem busStep_events {a : Answer} {s t : State} (h : busStep a s = some t) :
    s.phase ≠ .idle ∧
    ((∃ e : Event, e.inside ∧ t.hist = s.hist ++ [e] ∧ t.phase ≠ .idle) ∨
     (∃ e : Event, e.inside ∧ t.hist = s.hist ++ [e] ++ [.stop] ∧ t.phase = .idle) ∨
     (t.hist = s.hist ++ [.abort] ∧ t.phase = .idle)) := by
  refine ⟨fun hp => ?_, ?_⟩
  · rw [busStep_idle a hp] at h
    cases h
  rcases busStep_cases h with ⟨-, -, rfl⟩ | ⟨-, -, rfl⟩ | ⟨-, -, rfl⟩ | ⟨r, -, -, -, -, -, rfl⟩ | ⟨-, -, -, -, rfl⟩ |
    ⟨-, -, -, -, rfl⟩ | ⟨r, -, -, -, -, rfl⟩ | ⟨r, b, -, -, -, -, -, rfl⟩ | ⟨b, -, -, -, -, rfl⟩ |
    ⟨b, -, -, -, -, rfl⟩ | ⟨-, -, rfl⟩
  · exact .inl ⟨.addrAck, ⟨rfl, rfl⟩, rfl, nofun⟩
  · exact .inl ⟨.addrAck, ⟨rfl, rfl⟩, rfl, nofun⟩
  · exact .inr (.inl ⟨.addrNack, ⟨rfl, rfl⟩, rfl, rfl⟩)
  · exact .inl ⟨.wr s.txdr .ack, ⟨rfl, rfl⟩, rfl, nofun⟩
  · exact .inl ⟨.wr s.txdr .ack, ⟨rfl, rfl⟩, rfl, nofun⟩
  · exact .inr (.inl ⟨.wr s.txdr .ack, ⟨rfl, rfl⟩, rfl, rfl⟩)
  · exact .inr (.inl ⟨.wr s.txdr .nack, ⟨rfl, rfl⟩, rfl, rfl⟩)
  · exact .inl ⟨.rd b .ack, ⟨rfl, rfl⟩, rfl, nofun⟩
  · exact .inl ⟨.rd b .nack, ⟨rfl, rfl⟩, rfl, nofun⟩
  · exact .inr (.inl ⟨.rd b .nack, ⟨rfl, rfl⟩, rfl, rfl⟩)
  · exact .inr (.inr ⟨rfl, rfl⟩)

theorem busStep_keeps_bracketed {a : Answer} {s t : State} (hb : s.block.bracketed = true)
    (h : busStep a s = some t) : t.block.bracketed = true := by
  obtain ⟨hp, hev⟩ := busStep_events h
  have hopen := (bracketed_of_open hp).1 hb
  rcases hev with ⟨e, he, hh, ht⟩ | ⟨e, he, hh, ht⟩ | ⟨hh, ht⟩
  · rw [bracketed_of_open ht, hh]
    exact bracket_append_inside hopen he
  · rw [bracketed_of_idle ht, hh]
    exact bracket_append_end (bracket_append_inside hopen he) rfl
  · rw [bracketed_of_idle ht, hh]
    exact bracket_append_end hopen rfl

theorem resetMove_keeps_bracketed {s : State} (hb : s.block.bracketed = true) :
    (resetMove s).block.bracketed = true :=
  (bracketed_of_idle rfl).2 (bracket_append_reset (bracketed_iff.1 hb))

/-- Settles O30: an instruction, a bus step and a reset each keep HIST bracketed, with PHASE saying whether a
transaction is open (41_bus_sequencer R145). -/
theorem stepKeepsHistoryBracketed : Obligations.StepKeepsHistoryBracketed := by
  intro s t hb h
  exact block_principle (fun b => b.bracketed = true) (fun _ _ _ => exec_keeps_bracketed)
    (fun _ _ _ => busStep_keeps_bracketed) (fun _ => resetMove_keeps_bracketed) hb h

/-! Between two Starts (41_bus_sequencer R145). -/

/-- After events that leave the history bracketed with a transaction open at their front: no Start at all, or an end
before any Start. -/
theorem end_before_start {l : List Event} (h : l.foldl bracketStep (some true) ≠ none) :
    (∀ e ∈ l, e.isStart = false) ∨
    ∃ mid e rest, l = mid ++ e :: rest ∧ e.ends = true ∧ ∀ x ∈ mid, x.isStart = false ∧ x.ends = false := by
  induction l with
  | nil => exact .inl nofun
  | cons e l ih =>
    rw [List.foldl_cons] at h
    have hs : e.isStart = false := by
      by_contra hs
      exact h (by simp [bracketStep, hs, bracketStep_none])
    by_cases he : e.ends = true
    · exact .inr ⟨[], e, l, rfl, he, nofun⟩
    · have hopen : bracketStep (some true) e = some true := by simp [bracketStep, hs, he]
      rw [hopen] at h
      rcases ih h with hno | ⟨mid, e', rest, rfl, he', hmid⟩
      · exact .inl (List.forall_mem_cons.2 ⟨hs, hno⟩)
      · exact .inr ⟨e :: mid, e', rest, rfl, he', List.forall_mem_cons.2 ⟨⟨hs, by simpa using he⟩, hmid⟩⟩

/-- A Start leaves a transaction open, or the history is not bracketed. -/
theorem bracketStep_start (b : Option Bool) (sadd : BitVec 10) (d : Dir) :
    bracketStep b (.start sadd d) = none ∨ bracketStep b (.start sadd d) = some true := by
  rcases b with - | - | -
  · exact .inl rfl
  · exact .inr rfl
  · exact .inl rfl

/-- Settles O31: what follows the Start is read with a transaction open (41_bus_sequencer R145). -/
theorem nextEndAfterStartIsNoStart : Obligations.NextEndAfterStartIsNoStart := by
  rintro _ pre post sadd d hb rfl
  rw [bracket, List.foldl_append, List.foldl_cons] at hb
  rcases bracketStep_start (pre.foldl bracketStep (some false)) sadd d with hstart | hstart <;> rw [hstart] at hb
  · exact absurd (bracketStep_none post) hb
  · exact end_before_start hb

end Sys2Proof.Machine
end

section
/-! PROOF. What only some agents can do: take an unread byte (70_reset_and_hazards R246), leave a busy phase
(41_bus_sequencer R144, 42_bus_primitives R167). -/

namespace Sys2Proof.Machine

/-- The slave drives a byte only with RXNE = 0, so no answer overwrites an unread one (41_bus_sequencer R131). -/
theorem busStep_keeps_unread {a : Answer} {s t : State} (h : busStep a s = some t) (hr : s.sr.rxne = true) :
    t.rxdr = s.rxdr := by
  have hbusy (hn : s.sr.rxne = false) : t.rxdr = s.rxdr := absurd (hr.symm.trans hn) nofun
  rcases busStep_cases h with ⟨-, -, rfl⟩ | ⟨-, -, rfl⟩ | ⟨-, -, rfl⟩ | ⟨r, -, -, -, -, -, rfl⟩ | ⟨-, -, -, -, rfl⟩ |
    ⟨-, -, -, -, rfl⟩ | ⟨r, -, -, -, -, rfl⟩ | ⟨r, b, -, hn, -⟩ | ⟨b, -, hn, -⟩ | ⟨b, -, hn, -⟩ | ⟨-, -, rfl⟩
  · rfl
  · rfl
  · rfl
  · rfl
  · rfl
  · rfl
  · rfl
  · exact hbusy hn
  · exact hbusy hn
  · exact hbusy hn
  · rfl

/-- Settles O38: RXNE falls by READ_RXDR and a reset alone, and no other step writes RXDR while it is set
(41_bus_sequencer R131, 70_reset_and_hazards R246). -/
theorem unreadByteSurvivesEveryOtherStep : Obligations.UnreadByteSurvivesEveryOtherStep := by
  intro s t h hr hread hreset
  constructor
  · by_contra hn
    rcases (step_srChange h).rxne_falls hr (Bool.eq_false_iff.2 hn) with hd | hm
    · exact hread hd
    · exact hreset hm
  · obtain ⟨-, hb | ⟨i, u, v, -, hu, -, hx, hv, -⟩ | ⟨a, u, -, hu, -, hx⟩ | ⟨hm, -⟩⟩ := step_block h
    · exact congrArg Block.rxdr hb
    · calc t.rxdr = v.rxdr := congrArg Block.rxdr hv
        _ = u.rxdr := exec_rxdr hx
        _ = s.rxdr := congrArg Block.rxdr hu
    · obtain ⟨-, -, hsr⟩ := fields_eq_of_block_eq hu
      exact (busStep_keeps_unread hx (hsr ▸ hr)).trans (congrArg Block.rxdr hu)
    · exact absurd hm hreset

/-- No instruction changes a busy phase: the one that could, WRITE_CR, is refused there (40_register_access R101). -/
theorem exec_keeps_busy_phase {i : Instr} {u v : State} (h : exec i u = .next v) (hb : u.phase.busy = true) :
    v.phase = u.phase := by
  rcases exec_block h with hv | ⟨w, -, hc, -⟩ | ⟨w, -, -, hv⟩ | ⟨-, -, hv⟩
  · exact congrArg Block.phase hv
  · exact nomatch (busy_of_open (crFault_none_phase hc)).symm.trans hb
  · exact congrArg Block.phase hv
  · exact congrArg Block.phase hv

/-- Settles O39: of what a step can do to the block, the host's instruction keeps a busy phase (41_bus_sequencer R144,
42_bus_primitives R167). -/
theorem hostCannotLeaveBusyPhase : Obligations.HostCannotLeaveBusyPhase := by
  intro s t h hb hne
  obtain ⟨-, hbk | ⟨i, u, v, -, hu, -, hx, hv, -⟩ | ⟨a, u, hm, -⟩ | ⟨hm, -⟩⟩ := step_block h
  · exact absurd (congrArg Block.phase hbk) hne
  · obtain ⟨hphase, -, -⟩ := fields_eq_of_block_eq hu
    have hsame := exec_keeps_busy_phase hx (hphase ▸ hb)
    exact absurd ((congrArg Block.phase hv).trans (hsame.trans hphase)) hne
  · exact .inl ⟨a, hm⟩
  · exact .inr hm

end Sys2Proof.Machine
end

section
/-! PROOF. The bus agent's answers: which are enabled, and the step each fires (41_bus_sequencer R131 to R142). -/

namespace Sys2Proof.Machine

/-! The step of an answer in its phase. -/

section
variable {s : State}

theorem busStep_addrAck_write (hp : s.phase = .addressing .W) :
    busStep (.addrResp .ack) s = some (addrAckWrite s) := by
  simp [busStep, hp]

theorem busStep_addrAck_read (hp : s.phase = .addressing .R) : busStep (.addrResp .ack) s = some (addrAckRead s) := by
  simp [busStep, hp]

theorem busStep_addrNack {d : Dir} (hp : s.phase = .addressing d) :
    busStep (.addrResp .nack) s = some (addrNack s) := by
  cases d <;> simp [busStep, hp]

theorem busStep_wrResp {r : Byte} (hp : s.phase = .transferring .W r) (ht : s.sr.txis = false) (k : Ack) :
    busStep (.wrResp k) s = wrAnswer k r s := by
  simp [busStep, hp, ht]

theorem busStep_rdByte {r : Byte} (hp : s.phase = .transferring .R r) (hr : s.sr.rxne = false) (b : Byte) :
    busStep (.rdByte b) s = rdAnswer b r s := by
  simp [busStep, hp, hr]

end

/-! A written byte's answer and a received byte, by the counter and AUTOEND (41_bus_sequencer R135 to R141). -/

theorem ne_zero_one_of_two_le {r : Byte} (h : 2 ≤ r) : r ≠ 0 ∧ r ≠ 1 := by
  constructor <;> bv_omega

theorem wrAnswer_nack {r : Byte} (s : State) (h : r ≠ 0) : wrAnswer .nack r s = some (byteNacked s) := if_neg h

theorem wrAnswer_more {r : Byte} (s : State) (h : 2 ≤ r) : wrAnswer .ack r s = some (byteAckedMore r s) := by
  obtain ⟨h0, h1⟩ := ne_zero_one_of_two_le h
  simp only [wrAnswer, h0, h1, if_false]

theorem wrAnswer_last (s : State) :
    wrAnswer .ack 1 s = some (if s.cr.autoend then lastByteAckedStop s else lastByteAckedHold s) := rfl

theorem rdAnswer_more {r : Byte} (b : Byte) (s : State) (h : 2 ≤ r) :
    rdAnswer b r s = some (byteReceivedMore b r s) := by
  obtain ⟨h0, h1⟩ := ne_zero_one_of_two_le h
  simp only [rdAnswer, h0, h1, if_false]

theorem rdAnswer_last (b : Byte) (s : State) :
    rdAnswer b 1 s = some (if s.cr.autoend then lastByteReceivedStop b s else lastByteReceivedHold b s) := rfl

theorem one_or_two_le {r : Byte} (h : r ≠ 0) : r = 1 ∨ 2 ≤ r := by
  by_cases h1 : r = 1
  · exact .inl h1
  · exact .inr (by bv_omega)

theorem wrAnswer_isSome (k : Ack) {r : Byte} (s : State) (h : r ≠ 0) : (wrAnswer k r s).isSome = true := by
  cases k with
  | nack => rw [wrAnswer_nack s h]; rfl
  | ack =>
    rcases one_or_two_le h with rfl | h2
    · rw [wrAnswer_last]; rfl
    · rw [wrAnswer_more s h2]; rfl

theorem rdAnswer_isSome (b : Byte) {r : Byte} (s : State) (h : r ≠ 0) : (rdAnswer b r s).isSome = true := by
  rcases one_or_two_le h with rfl | h2
  · rw [rdAnswer_last]; rfl
  · rw [rdAnswer_more b s h2]; rfl

theorem addrResp_isSome {s : State} {d : Dir} (hp : s.phase = .addressing d) (k : Ack) :
    (busStep (.addrResp k) s).isSome = true := by
  cases k with
  | nack => rw [busStep_addrNack hp]; rfl
  | ack =>
    cases d with
    | W => rw [busStep_addrAck_write hp]; rfl
    | R => rw [busStep_addrAck_read hp]; rfl

/-- Settles O26: each rule's condition stands in the table, and each row of the table has its rule; the counter is not
0 by the invariant (41_bus_sequencer R131, 10_state R22). -/
theorem enabledAnswersAreTheTable : Obligations.EnabledAnswersAreTheTable := by
  intro s a hi
  constructor
  · intro hsome
    obtain ⟨t, h⟩ := Option.isSome_iff_exists.1 hsome
    rcases busStep_cases h with ⟨hp, rfl, -⟩ | ⟨hp, rfl, -⟩ | ⟨hp, rfl, -⟩ | ⟨r, hp, ht, -, -, rfl, -⟩ |
      ⟨hp, ht, -, rfl, -⟩ | ⟨hp, ht, -, rfl, -⟩ | ⟨r, hp, ht, -, rfl, -⟩ | ⟨r, b, hp, hr, -, -, rfl, -⟩ |
      ⟨b, hp, hr, -, rfl, -⟩ | ⟨b, hp, hr, -, rfl, -⟩ | ⟨hp, rfl, -⟩
    · exact .inr (.inl ⟨⟨_, hp⟩, _, rfl⟩)
    · exact .inr (.inl ⟨⟨_, hp⟩, _, rfl⟩)
    · exact .inr (.inl ⟨hp, _, rfl⟩)
    · exact .inr (.inr (.inl ⟨⟨_, hp⟩, ht, _, rfl⟩))
    · exact .inr (.inr (.inl ⟨⟨_, hp⟩, ht, _, rfl⟩))
    · exact .inr (.inr (.inl ⟨⟨_, hp⟩, ht, _, rfl⟩))
    · exact .inr (.inr (.inl ⟨⟨_, hp⟩, ht, _, rfl⟩))
    · exact .inr (.inr (.inr ⟨⟨_, hp⟩, hr, _, rfl⟩))
    · exact .inr (.inr (.inr ⟨⟨_, hp⟩, hr, _, rfl⟩))
    · exact .inr (.inr (.inr ⟨⟨_, hp⟩, hr, _, rfl⟩))
    · exact .inl ⟨hp, rfl⟩
  · rintro (⟨hp, rfl⟩ | ⟨⟨d, hp⟩, k, rfl⟩ | ⟨⟨r, hp⟩, ht, k, rfl⟩ | ⟨⟨r, hp⟩, hr, b, rfl⟩)
    · rw [busStep_abort hp]; rfl
    · exact addrResp_isSome hp k
    · obtain ⟨-, -, h0, -⟩ := (inv_of_writing hp).1 hi
      rw [busStep_wrResp hp ht]
      exact wrAnswer_isSome k s h0
    · obtain ⟨-, -, h0, -⟩ := (inv_of_reading hp).1 hi
      rw [busStep_rdByte hp hr]
      exact rdAnswer_isSome b s h0

/-! The machine's step on an answer. -/

/-- A live step whose move is an enabled answer is the step the answer fires. -/
theorem step_bus {s t : State} {a : Answer} {ms : List Move} (hf : s.fault = none) (hm : s.moves = .bus a :: ms)
    (h : busStep a { s with moves := ms } = some t) : step s = .next t := by
  rw [step_move hf hm, stepMove, busMove, h, Option.getD_some]

/-- Two events in a row. -/
theorem emit_emit (e e' : Event) (s : State) : emit e' (emit e s) = { s with hist := s.hist ++ [e, e'] } := by
  simp [emit]

/-- Settles O22: the three answers to the address byte fire their rules (41_bus_sequencer R132 to R134). -/
theorem addressAnswers : Obligations.AddressAnswers := by
  intro s ms hf
  refine ⟨fun hm hp => step_bus hf hm (busStep_addrAck_write hp), fun hm hp => step_bus hf hm (busStep_addrAck_read hp),
    fun d hm hp => ?_⟩
  rw [step_bus hf hm (busStep_addrNack hp), addrNack, emit_emit]
  rfl

/-- Settles O23: the counter, AUTOEND and the answer pick the rule (41_bus_sequencer R135 to R138). -/
theorem writtenByteAnswers : Obligations.WrittenByteAnswers := by
  intro s ms r hf hp ht
  have hstep {k : Ack} {t : State} (hm : s.moves = .bus (.wrResp k) :: ms)
      (h : wrAnswer k r { s with moves := ms } = some t) : step s = .next t :=
    step_bus hf hm ((busStep_wrResp (s := { s with moves := ms }) hp ht k).trans h)
  refine ⟨fun hm h2 => hstep hm (wrAnswer_more _ h2), ?hold, ?stop, fun hm h1 => ?nack⟩
  case hold =>
    rintro hm rfl ha
    rw [hstep hm (wrAnswer_last _), ha]
    rfl
  case stop =>
    rintro hm rfl ha
    rw [hstep hm (wrAnswer_last _), ha, if_pos rfl, lastByteAckedStop, emit_emit]
    rfl
  case nack =>
    have h0 : r ≠ 0 := by bv_omega
    rw [hstep hm (wrAnswer_nack _ h0), byteNacked, emit_emit]
    rfl

/-- Settles O24: the counter and AUTOEND pick the rule (41_bus_sequencer R139 to R141). -/
theorem receivedByteSteps : Obligations.ReceivedByteSteps := by
  intro s ms r b hf hp hr hm
  have hstep {t : State} (h : rdAnswer b r { s with moves := ms } = some t) : step s = .next t :=
    step_bus hf hm ((busStep_rdByte (s := { s with moves := ms }) hp hr b).trans h)
  refine ⟨fun h2 => hstep (rdAnswer_more b _ h2), ?hold, ?stop⟩
  case hold =>
    rintro rfl ha
    rw [hstep (rdAnswer_last b _), ha]
    rfl
  case stop =>
    rintro rfl ha
    rw [hstep (rdAnswer_last b _), ha, if_pos rfl, lastByteReceivedStop, emit_emit]
    rfl

/-- Settles O25: an abort is enabled outside Idle and fires its rule (41_bus_sequencer R142). -/
theorem abortEndsPhase : Obligations.AbortEndsPhase :=
  fun _ _ hf hp hm => step_bus hf hm (busStep_abort hp)

/-- Settles O27: an answer is enabled or not whatever moves are to come, and one that is not leaves the state from
which its move was taken (41_bus_sequencer R131; log 4). -/
theorem disabledAnswerChangesNothing : Obligations.DisabledAnswerChangesNothing := by
  intro s a ms hf hm h
  rw [step_move hf hm, stepMove, busMove, busStep_moves, h]
  rfl

end Sys2Proof.Machine
end

section
/-! PROOF. The wire address and the address byte (41_bus_sequencer R143). -/

namespace Sys2Proof.Machine

/-- The address byte is the wire address above its R/W bit. -/
theorem addressByte_toNat (rd : AddrReading) (sadd : BitVec 10) (d : Dir) :
    (addressByte rd sadd d).toNat = 2 * (wireAddr7 rd sadd).toNat + (decide (d = .R)).toNat := by
  change (wireAddr7 rd sadd ++ BitVec.ofBool (decide (d = .R))).toNat = _
  rw [BitVec.toNat_append, ← Nat.shiftLeft_add_eq_or_of_lt (BitVec.isLt _), BitVec.toNat_ofBool, Nat.shiftLeft_eq]
  omega

/-- Settles O28: each reading takes its bits of SADD, and the worked values follow (41_bus_sequencer R143). -/
theorem wireAddressUnderEachReading : Obligations.WireAddressUnderEachReading := by
  refine ⟨fun sadd => ⟨?shifted, ?literal⟩, fun rd sadd => ⟨addressByte_toNat rd sadd .W, addressByte_toNat rd sadd .R⟩,
    by decide, by decide, by decide, by decide, by decide, by decide⟩
  case shifted => exact (BitVec.extractLsb'_toNat ..).trans (by rw [Nat.shiftRight_eq_div_pow, pow_one])
  case literal => exact (BitVec.extractLsb'_toNat ..).trans (by rw [Nat.shiftRight_zero])

end Sys2Proof.Machine
end

section
/-! PROOF. One poll of a wait, and how many polls a budget allows (42_bus_primitives R160, 60_exceptions R215, R217). -/

namespace Sys2Proof.Machine

/-! What one poll does to the driver. -/

/-- A budget is not spent while it is not reached; without one it never is. -/
theorem budgetSpent_eq_false_iff {p : Option Nat} {n : Nat} :
    budgetSpent p n = false ↔ ∀ b, p = some b → n < b := by
  cases p <;> simp [budgetSpent]

theorem budgetSpent_some {b n : Nat} : budgetSpent (some b) n = true ↔ b ≤ n := decide_eq_true_iff

section
variable {f : Flag} {sr : Word} (w : Waiter)

theorem pollOutcome_seen (p : Option Nat) (d : Driver) (h : flagSeen f sr = true) :
    pollOutcome f w p sr d = { d with pc := d.pc + 1, polls := d.pollsSoFar, inWait := false } := if_pos h

theorem pollOutcome_goesOn {p : Option Nat} {d : Driver} (h : flagSeen f sr = false)
    (hp : budgetSpent p (d.pollsSoFar + 1) = false) :
    pollOutcome f w p sr d = { d with polls := d.pollsSoFar + 1, inWait := true } := by
  simp [pollOutcome, h, hp]

theorem pollOutcome_timesOut {p : Option Nat} {d : Driver} (h : flagSeen f sr = false)
    (hp : budgetSpent p (d.pollsSoFar + 1) = true) :
    pollOutcome f w p sr d = { d with
      polls := d.pollsSoFar + 1, inWait := false, result := some (.error (timeoutError w f d.got)) } := by
  simp [pollOutcome, h, hp]

end

/-! The step of a poll. -/

theorem exec_readSr {s : State} (hf : s.fault = none) : exec .readSr s =
    .next { s with rdata := srWord (Config.freeWord s.draws) s.sr, draws := s.draws + 1 } := whileLive_live hf

/-- A host step whose statement polls is READ_SR's, the driver moved by the word read (42_bus_primitives R160). -/
theorem step_poll {s : State} {ms : List Move} {f : Flag} {w : Waiter} (hf : s.fault = none)
    (hm : s.moves = .host :: ms) (hr : s.drv.running = true)
    (hop : s.drv.prog[s.drv.pc]? = some ⟨false, .poll f w⟩) : step s = .next { s with
      moves := ms
      rdata := srWord (Config.freeWord s.draws) s.sr
      draws := s.draws + 1
      drv   := pollOutcome f w s.cfg.pollBudget (srWord (Config.freeWord s.draws) s.sr) s.drv } := by
  have hread : exec .readSr { s with moves := ms } = .next { s with
      moves := ms, rdata := srWord (Config.freeWord s.draws) s.sr, draws := s.draws + 1 } := exec_readSr hf
  rw [step_statement hf hm hr hop, entered_mk]
  simp only [runAct, perform_ok _ decode_readSr, Bool.false_eq_true, if_false, hread]
  exact onNext_live hf

/-- Settles O42: the poll sees the flag itself, whatever was drawn for SR's other bits, and the budget tells a wait that
goes on from one that timed out (42_bus_primitives R160, 60_exceptions R215). -/
theorem pollStep : Obligations.PollStep := by
  intro s ms f w hf hm hr hop
  refine ⟨_, _, exec_readSr hf, step_poll hf hm hr hop, fun hfl => ?seen, fun hfl => ?failed⟩
  case seen => exact pollOutcome_seen w _ _ (by rwa [flagSeen_srWord])
  case failed =>
    have hlow : flagSeen f (srWord (Config.freeWord s.draws) s.sr) = false := by rwa [flagSeen_srWord]
    cases hp : budgetSpent s.cfg.pollBudget (s.drv.pollsSoFar + 1) with
    | false =>
      rw [pollOutcome_goesOn w hlow hp]
      have hlt := budgetSpent_eq_false_iff.1 hp
      exact ⟨rfl, rfl, rfl, rfl, rfl, fun _ => ⟨rfl, rfl⟩, fun b hb hle => absurd (hlt b hb) (Nat.not_lt.2 hle)⟩
    | true =>
      rw [pollOutcome_timesOut w hlow hp]
      refine ⟨rfl, rfl, rfl, rfl, rfl, fun hlt => ?_, fun _ _ _ => rfl⟩
      rw [budgetSpent_eq_false_iff.2 hlt] at hp
      cases hp

/-! The polls of one wait. -/

/-- A run and the step after it. -/
theorem run_one_more {k : Nat} {s t u : State} (hrun : Host.Core.run core k s = .next t) (hs : step t = .next u) :
    Host.Core.run core (k + 1) s = .next u := by
  rw [run_add k 1 hrun, run_next 0 hs, run_zero]

/-- The driver after `k` failed polls of a wait that has not timed out. -/
def Driver.afterFailedPolls : Nat → Driver → Driver
  | 0, d     => d
  | k + 1, d => { d with polls := k + 1, inWait := true }

section
variable (k : Nat) (d : Driver)

@[simp] theorem Driver.afterFailedPolls_prog : (d.afterFailedPolls k).prog = d.prog := by cases k <;> rfl
@[simp] theorem Driver.afterFailedPolls_pc : (d.afterFailedPolls k).pc = d.pc := by cases k <;> rfl
@[simp] theorem Driver.afterFailedPolls_got : (d.afterFailedPolls k).got = d.got := by cases k <;> rfl
@[simp] theorem Driver.afterFailedPolls_result : (d.afterFailedPolls k).result = d.result := by cases k <;> rfl
@[simp] theorem Driver.afterFailedPolls_running : (d.afterFailedPolls k).running = d.running := by cases k <;> rfl

/-- One more failed poll. -/
theorem Driver.afterFailedPolls_succ :
    { d.afterFailedPolls k with polls := k + 1, inWait := true } = d.afterFailedPolls (k + 1) := by
  cases k <;> rfl

end

@[simp] theorem Driver.pollsSoFar_afterFailedPolls (k : Nat) {d : Driver} (hw : d.inWait = false) :
    (d.afterFailedPolls k).pollsSoFar = k := by
  cases k with
  | zero => simp [afterFailedPolls, pollsSoFar, hw]
  | succ k => rfl

/-- `s` after `k` failed polls, the last word read and the draws being as given. -/
def State.afterFailedPolls (s : State) (k : Nat) (ms : List Move) (r : Word) (n : Nat) : State :=
  { s with moves := ms, rdata := r, draws := n, drv := s.drv.afterFailedPolls k }

section
variable {s : State} {ms : List Move} {f : Flag} {w : Waiter} {k : Nat} (r : Word) (n : Nat) (hf : s.fault = none)
  (hr : s.drv.running = true) (hop : s.drv.prog[s.drv.pc]? = some ⟨false, .poll f w⟩)
include hf hr hop

theorem step_afterFailedPolls : step (s.afterFailedPolls k (.host :: ms) r n) =
    .next { s.afterFailedPolls k ms (srWord (Config.freeWord n) s.sr) (n + 1) with
      drv := pollOutcome f w s.cfg.pollBudget (srWord (Config.freeWord n) s.sr) (s.drv.afterFailedPolls k) } :=
  step_poll hf rfl (by simpa [State.afterFailedPolls] using hr) (by simpa [State.afterFailedPolls] using hop)

variable (hw : s.drv.inWait = false) (hfl : s.sr.flag f = false)
include hw hfl

/-- A failed poll below the budget is counted. -/
theorem step_failedPoll (hp : budgetSpent s.cfg.pollBudget (k + 1) = false) :
    step (s.afterFailedPolls k (.host :: ms) r n) =
      .next (s.afterFailedPolls (k + 1) ms (srWord (Config.freeWord n) s.sr) (n + 1)) := by
  rw [step_afterFailedPolls r n hf hr hop, pollOutcome_goesOn w (by rwa [flagSeen_srWord])]
  · rw [Driver.pollsSoFar_afterFailedPolls k hw, Driver.afterFailedPolls_succ]
    rfl
  · rwa [Driver.pollsSoFar_afterFailedPolls k hw]

/-- The failed poll that spends the budget ends the wait. -/
theorem step_lastPoll (hp : budgetSpent s.cfg.pollBudget (k + 1) = true) :
    step (s.afterFailedPolls k (.host :: ms) r n) =
      .next { s.afterFailedPolls k ms (srWord (Config.freeWord n) s.sr) (n + 1) with
        drv := { s.drv.afterFailedPolls k with
          polls := k + 1
          inWait := false
          result := some (.error (timeoutError w f (s.drv.afterFailedPolls k).got)) } } := by
  rw [step_afterFailedPolls r n hf hr hop, pollOutcome_timesOut w (by rwa [flagSeen_srWord])]
  · rw [Driver.pollsSoFar_afterFailedPolls k hw]
  · rwa [Driver.pollsSoFar_afterFailedPolls k hw]

/-- As many host moves as do not reach the budget are as many failed polls. -/
theorem run_failedPolls (hm : s.moves = List.replicate k .host ++ ms)
    (hp : ∀ j, j ≤ k → budgetSpent s.cfg.pollBudget j = false) :
    ∃ r n, Host.Core.run core k s = .next (s.afterFailedPolls k ms r n) := by
  induction k generalizing ms with
  | zero =>
    obtain rfl : s.moves = ms := hm
    exact ⟨s.rdata, s.draws, run_zero s⟩
  | succ k ih =>
    obtain ⟨r, n, hrun⟩ := ih (ms := .host :: ms) (by rw [hm, List.replicate_succ', List.append_assoc]; rfl)
      fun j hj => hp j (by omega)
    exact ⟨_, _, run_one_more hrun (step_failedPoll r n hf hr hop hw hfl (hp (k + 1) le_rfl))⟩

end

/-- Settles O44: below the budget each host move is one more failed poll, and the poll that reaches it ends the wait
(42_bus_primitives R160, 60_exceptions R217). -/
theorem pollTimesOutAfterExactlyBudget : Obligations.PollTimesOutAfterExactlyBudget := by
  intro s ms f w b hf h1 hb hm hr hw hop hfl
  have hpolls (k : Nat) (hk : k < b) : ∃ r n,
      Host.Core.run core k s = .next (s.afterFailedPolls k (List.replicate (b - k) .host ++ ms) r n) := by
    refine run_failedPolls hf hr hop hw hfl ?_ fun j hj => ?_
    · rw [hm, ← List.append_assoc, List.replicate_append_replicate, Nat.add_sub_cancel' hk.le]
    · rw [hb, ← Bool.not_eq_true, budgetSpent_some]
      omega
  refine ⟨fun k hk => ?_, ?_⟩
  · obtain ⟨r, n, hrun⟩ := hpolls k hk
    exact ⟨_, hrun, (Driver.afterFailedPolls_running k s.drv).trans hr, Driver.afterFailedPolls_pc k s.drv,
      Driver.afterFailedPolls_result k s.drv, rfl⟩
  · obtain ⟨k, rfl⟩ : ∃ k, b = k + 1 := ⟨b - 1, by omega⟩
    obtain ⟨r, n, hrun⟩ := hpolls k (Nat.lt_succ_self k)
    rw [Nat.add_sub_cancel_left] at hrun
    have hspent : budgetSpent s.cfg.pollBudget (k + 1) = true := by rw [hb, budgetSpent_some]
    exact ⟨_, run_one_more hrun (step_lastPoll r n hf hr hop hw hfl hspent), rfl, rfl, hf, rfl,
      by rw [Driver.afterFailedPolls_got], Driver.afterFailedPolls_pc k s.drv⟩

end Sys2Proof.Machine
end

section
/-! PROOF. start_write and start_read, and the step of a failed argument check (42_bus_primitives R161, R162). -/

namespace Sys2Proof.Machine

/-- The CR word of a start: its address, count, direction and auto-stop at their fields (30_encoding R75). -/
theorem startWord_toNat {a n : Nat} (ha : a ≤ 0x3FF) (hn : n ≤ 255) (rd ae : Bool) :
    (encodeCR ⟨BitVec.ofNat 10 a, rd, true, false, BitVec.ofNat 8 n, ae⟩).toNat =
      a + rd.toNat * 2 ^ 10 + 2 ^ 13 + n * 2 ^ 16 + ae.toNat * 2 ^ 25 := by
  have hsadd : (BitVec.ofNat 10 a).toNat = a := by rw [BitVec.toNat_ofNat]; omega
  have hnbytes : (BitVec.ofNat 8 n).toNat = n := by rw [BitVec.toNat_ofNat]; omega
  rw [encodeCR_toNat, hsadd, hnbytes]
  simp only [Bool.toNat_true, Bool.toNat_false]
  omega

/-- A failed argument check raises F11 without an access (42_bus_primitives R161). -/
theorem step_argFault {s : State} {ms : List Move} {en : Bool} (hf : s.fault = none) (hm : s.moves = .host :: ms)
    (hr : s.drv.running = true) (hop : s.drv.prog[s.drv.pc]? = some ⟨en, .argFault⟩) :
    step s = .next { s with
      moves := ms, drv := if en then s.drv.startCall else s.drv, fault := some .argRange } := by
  rw [step_statement hf hm hr hop, entered_mk]
  exact whileLive_live hf

/-- Settles O46: the argument check decides between the CR write of the start and F11 (42_bus_primitives R161, R162). -/
theorem startPrimitivesWriteOneCrWord : Obligations.StartPrimitivesWriteOneCrWord := by
  refine ⟨fun a n ae ha h1 h255 => ?fit, fun a n ae h => ?unfit, fun s ms en hf hm hr hop => ?fault⟩
  case fit =>
    have hok := startArgsOk_iff.2 ⟨ha, h1, h255⟩
    refine ⟨_, _, if_pos hok, ?_, if_pos hok, ?_⟩
    · rw [startWord_toNat ha h255]
      simp only [Bool.toNat_false]
      omega
    · rw [startWord_toNat ha h255]
      simp only [Bool.toNat_true]
      omega
  case unfit =>
    have hbad : ¬ startArgsOk a n = true := by rw [startArgsOk_iff]; omega
    exact ⟨if_neg hbad, if_neg hbad⟩
  case fault => exact ⟨_, step_argFault hf hm hr hop, rfl, rfl, rfl⟩

end Sys2Proof.Machine
end

section
/-! PROOF. The caller's move (42_bus_primitives R167, log 8). -/

namespace Sys2Proof.Machine

/-- Settles O49: a call hands its program over exactly when no program is running (42_bus_primitives R167, 10_state
R31). -/
theorem callsOnlyBetweenCalls : Obligations.CallsOnlyBetweenCalls := by
  intro s ms p hf hm
  rw [step_move hf hm, stepMove]
  rcases callMove_cases p { s with moves := ms } with ⟨hr, he⟩ | ⟨hr, he⟩ <;> rw [he]
  · exact ⟨fun _ => rfl, fun hended => absurd (hended.symm.trans hr) (by decide)⟩
  · exact ⟨fun hrunning => absurd (hr.symm.trans hrunning) (by decide),
      fun _ => ⟨_, rfl, rfl, rfl, rfl, rfl, rfl, rfl⟩⟩

end Sys2Proof.Machine
end

section
/-! PROOF. A byte waiting in RXDR is the last byte received (43_device_protocol R187). -/

namespace Sys2Proof.Machine

theorem byteIntact_iff {b : Block} :
    b.byteIntact = true ↔ (b.sr.rxne = true → lastRd b.hist = some b.rxdr) := by
  simp [Block.byteIntact, ← Bool.not_eq_true, imp_iff_not_or]

/-! The last Rd event of a history. -/

theorem lastRd_eq_getLast? (h : List Event) : lastRd h = (rdBytes h).getLast? := by
  induction h using List.reverseRecOn with
  | nil => rfl
  | append_singleton h e ih =>
    rw [rdBytes_append]
    cases e with
    | rd b a => simp [lastRd, rdBytes]
    | _ => simpa [lastRd, rdBytes] using ih

theorem lastRd_append_rd (h : List Event) (b : Byte) (a : Ack) : lastRd (h ++ [.rd b a]) = some b := by
  simp [lastRd]

theorem lastRd_append_other (h : List Event) {es : List Event} (hes : rdBytes es = []) :
    lastRd (h ++ es) = lastRd h := by
  rw [lastRd_eq_getLast?, lastRd_eq_getLast?, rdBytes_append, hes, List.append_nil]

/-! Each agent. -/

/-- No new byte: RXDR and the last Rd event stay, and RXNE does not rise. -/
theorem byteIntact_of_no_byte {b b' : Block} (hi : b.byteIntact = true) (hrxne : b'.sr.rxne = true → b.sr.rxne = true)
    (hrxdr : b'.rxdr = b.rxdr) (hlast : lastRd b'.hist = lastRd b.hist) : b'.byteIntact = true := by
  rw [byteIntact_iff] at hi ⊢
  rw [hlast, hrxdr]
  exact fun h => hi (hrxne h)

/-- A CR write appends a Start, a Restart, a Stop or nothing. -/
theorem crAct_lastRd (c : CrFields) {s : State} (hp : s.phase = .idle ∨ s.phase = .completing) :
    lastRd (crAct c s).hist = lastRd s.hist := by
  rcases crAct_cases c s hp with ⟨-, -, he⟩ | ⟨-, -, he⟩ | ⟨-, -, -, he⟩ | ⟨-, he⟩ <;> rw [he]
  · exact lastRd_append_other _ rfl
  · exact lastRd_append_other _ rfl
  · exact lastRd_append_other _ rfl

theorem exec_keeps_byteIntact {i : Instr} {u v : State} (hi : u.block.byteIntact = true) (h : exec i u = .next v) :
    v.block.byteIntact = true := by
  rcases exec_block h with hv | ⟨w, -, hc, rfl⟩ | ⟨w, -, -, hv⟩ | ⟨-, -, hv⟩
  · rwa [hv]
  · obtain ⟨-, hrxdr, -, hrxne⟩ := crAct_latchCr_data hc
    exact byteIntact_of_no_byte hi (fun h => hrxne.symm.trans h) hrxdr
      (crAct_lastRd _ (s := latchCr _ u) (crFault_none_phase hc))
  · rw [hv]; exact hi
  · rw [hv]; exact byteIntact_iff.2 nofun

/-- R139 to R141 append the byte they put in RXDR; the other rules append no Rd event and do not raise RXNE. -/
theorem busStep_keeps_byteIntact {a : Answer} {s t : State} (hi : s.block.byteIntact = true)
    (h : busStep a s = some t) : t.block.byteIntact = true := by
  have hkeep {t : State} (es : List Event) (hes : rdBytes es = []) (hr : t.sr.rxne = s.sr.rxne)
      (hx : t.rxdr = s.rxdr) (hh : t.hist = s.hist ++ es) : t.block.byteIntact = true :=
    byteIntact_of_no_byte hi (fun h => hr.symm.trans h) hx ((congrArg lastRd hh).trans (lastRd_append_other _ hes))
  have hrd (b : Byte) (k : Ack) : lastRd (s.hist ++ [.rd b k]) = some b := lastRd_append_rd ..
  rcases busStep_cases h with ⟨-, -, rfl⟩ | ⟨-, -, rfl⟩ | ⟨-, -, rfl⟩ | ⟨r, -, -, -, -, -, rfl⟩ | ⟨-, -, -, -, rfl⟩ |
    ⟨-, -, -, -, rfl⟩ | ⟨r, -, -, -, -, rfl⟩ | ⟨r, b, -, -, -, -, -, rfl⟩ | ⟨b, -, -, -, -, rfl⟩ |
    ⟨b, -, -, -, -, rfl⟩ | ⟨-, -, rfl⟩
  · exact hkeep [.addrAck] rfl rfl rfl rfl
  · exact hkeep [.addrAck] rfl rfl rfl rfl
  · exact hkeep [.addrNack, .stop] rfl rfl rfl (by simp [addrNack])
  · exact hkeep [.wr s.txdr .ack] rfl rfl rfl rfl
  · exact hkeep [.wr s.txdr .ack] rfl rfl rfl rfl
  · exact hkeep [.wr s.txdr .ack, .stop] rfl rfl rfl (by simp [lastByteAckedStop])
  · exact hkeep [.wr s.txdr .nack, .stop] rfl rfl rfl (by simp [byteNacked])
  · exact byteIntact_iff.2 fun _ => hrd b .ack
  · exact byteIntact_iff.2 fun _ => hrd b .nack
  · exact byteIntact_iff.2 fun _ => (lastRd_append_other _ rfl).trans (hrd b .nack)
  · exact hkeep [.abort] rfl rfl rfl rfl

/-- Settles O32: an instruction, a bus step and a reset each keep a waiting byte that of the last Rd event
(43_device_protocol R187). -/
theorem stepKeepsReceivedByteIntact : Obligations.StepKeepsReceivedByteIntact := by
  intro s t hi h
  exact block_principle (fun b => b.byteIntact = true) (fun _ _ _ => exec_keeps_byteIntact)
    (fun _ _ _ => busStep_keeps_byteIntact) (fun _ _ => byteIntact_iff.2 nofun) hi h

end Sys2Proof.Machine
end

section
/-! PROOF. Samples: decode_sample's values, and encode_sample (43_device_protocol R184, R186). -/

namespace Sys2Proof.Machine

/-- The signed value of a low and a high byte (43_device_protocol R184). -/
theorem s16_pairOf (lo hi : Byte) : s16 (pairOf lo hi) =
    if hi.toNat * 256 + lo.toNat < 0x8000 then (hi.toNat * 256 + lo.toNat : Int)
    else (hi.toNat * 256 + lo.toNat : Int) - 65536 := by
  rw [s16, BitVec.toInt_eq_toNat_cond, pairOf_toNat]
  split_ifs <;> omega

/-- Settles O54: each axis is the signed value of its pair of bytes (43_device_protocol R184). -/
theorem decodeSampleValues : Obligations.DecodeSampleValues :=
  ⟨fun _ _ _ _ _ _ => ⟨s16_pairOf .., s16_pairOf .., s16_pairOf ..⟩, by decide⟩

/-! A 16-bit value and its two bytes. -/

theorem lowByte_toNat (v : BitVec 16) : (v.extractLsb' 0 8).toNat = v.toNat % 256 := by
  rw [BitVec.extractLsb'_toNat, Nat.shiftRight_zero]

theorem highByte_toNat (v : BitVec 16) : (v.extractLsb' 8 8).toNat = v.toNat / 256 := by
  have := v.isLt
  rw [BitVec.extractLsb'_toNat, Nat.shiftRight_eq_div_pow]
  omega

theorem pairOf_bytes (v : BitVec 16) : pairOf (v.extractLsb' 0 8) (v.extractLsb' 8 8) = v := by
  apply BitVec.eq_of_toNat_eq
  rw [pairOf_toNat, lowByte_toNat, highByte_toNat]
  omega

theorem lowByte_pairOf (lo hi : Byte) : (pairOf lo hi).extractLsb' 0 8 = lo := by
  have := lo.isLt
  apply BitVec.eq_of_toNat_eq
  rw [lowByte_toNat, pairOf_toNat]
  omega

theorem highByte_pairOf (lo hi : Byte) : (pairOf lo hi).extractLsb' 8 8 = hi := by
  have := lo.isLt
  apply BitVec.eq_of_toNat_eq
  rw [highByte_toNat, pairOf_toNat]
  omega

/-- Settles O55: each axis is put together from its two bytes, and a pair of bytes is taken apart into them
(43_device_protocol R186). -/
theorem sampleRoundTrip : Obligations.SampleRoundTrip := by
  refine ⟨fun t => ⟨_, _, _, _, _, _, rfl, ?_, lowByte_toNat _, highByte_toNat _, lowByte_toNat _, highByte_toNat _,
    lowByte_toNat _, highByte_toNat _⟩, fun b0 b1 b2 b3 b4 b5 => ?_⟩
  · simp only [decodeSample, pairOf_bytes]
  · simp only [encodeSample, decodeSample, lowByte_pairOf, highByte_pairOf]

end Sys2Proof.Machine
end

section
/-! PROOF. The primitives against a slave that answers at once (42_bus_primitives R161 to R165, 41_bus_sequencer R132 to
R141): each as a run of its statements and of the answers between them, from one exact state to the next. -/

namespace Sys2Proof.Machine

/-! The host before its next statements. -/

/-- The host runs `ops` next: no result, no wait and no failed poll is pending. -/
structure Driver.Before (d : Driver) (ops : List Op) : Prop where
  ops    : ops <+: d.prog.drop d.pc
  result : d.result = none
  polls  : d.polls = 0
  inWait : d.inWait = false

section
variable {d : Driver} {op : Op} {ops : List Op}

theorem Driver.Before.drop_eq (h : d.Before (op :: ops)) : ∃ rest, d.prog.drop d.pc = op :: (ops ++ rest) := by
  obtain ⟨rest, hrest⟩ := h.ops
  exact ⟨rest, hrest.symm⟩

theorem Driver.Before.statement (h : d.Before (op :: ops)) : d.prog[d.pc]? = some op := by
  obtain ⟨rest, hrest⟩ := h.drop_eq
  rw [← List.head?_drop, hrest, List.head?_cons]

/-- A statement is done. -/
theorem Driver.Before.advance (h : d.Before (op :: ops)) : d.advance.Before ops := by
  obtain ⟨rest, hrest⟩ := h.drop_eq
  refine ⟨⟨rest, ?_⟩, h.result, h.polls, h.inWait⟩
  rw [Driver.advance_prog, Driver.advance_pc, ← List.tail_drop, hrest, List.tail_cons]

theorem Driver.Before.running (h : d.Before (op :: ops)) : d.running = true :=
  running_of_statement (by simp [h.result]) h.statement

/-- A flag seen at the first poll of a wait moves the host on. -/
theorem Driver.Before.pollOutcome_seen {f : Flag} {sr : Word} (h : d.Before (op :: ops)) (w : Waiter) (p : Option Nat)
    (hf : flagSeen f sr = true) : pollOutcome f w p sr d = d.advance := by
  obtain ⟨-, -, hp, hw⟩ := h
  rw [Machine.pollOutcome_seen w p d hf]
  cases d
  simp_all only [pollsSoFar, Bool.false_eq_true, if_false]
  rfl

end

/-! The CR write of a start. -/

/-- The fields of the CR word of start_write and start_read (42_bus_primitives R161, R162). -/
def startFields (a : BitVec 10) (rd : Bool) (n : Nat) (ae : Bool) : CrFields :=
  ⟨a, rd, true, false, BitVec.ofNat 8 n, ae⟩

/-- The CR write of a start. -/
def startOp (a : BitVec 10) (rd : Bool) (n : Nat) (ae : Bool) : Op :=
  accessOp (writeAccess offCR 4 (encodeCR (startFields a rd n ae))) .none

/-- The first statement of a transaction: the CR write of its write phase, with the mark of a call (log 9). -/
def enterOp (a : BitVec 10) (n : Nat) : Op := { startOp a false n false with enter := true }

section
variable (a : BitVec 10) {n : Nat} (h1 : 1 ≤ n) (h255 : n ≤ 255)
include h1 h255

theorem startArgsOk_slaveAddr : startArgsOk a.toNat n = true := by
  have := a.isLt
  exact startArgsOk_iff.2 ⟨by omega, h1, h255⟩

theorem startWriteOps_slaveAddr : startWriteOps a.toNat n = [startOp a false n false] := by
  rw [startWriteOps, if_pos (startArgsOk_slaveAddr a h1 h255), BitVec.ofNat_toNat, BitVec.setWidth_eq]
  rfl

theorem startReadOps_slaveAddr (ae : Bool) : startReadOps a.toNat n ae = [startOp a true n ae] := by
  rw [startReadOps, if_pos (startArgsOk_slaveAddr a h1 h255), BitVec.ofNat_toNat, BitVec.setWidth_eq]
  rfl

theorem count_ne_zero : BitVec.ofNat 8 n ≠ 0 := by bv_omega

end

/-! One statement or one answer. -/

/-- A step and the run after it. -/
theorem run_cons {k : Nat} {s t u : State} (h : step s = .next t) (hrun : Host.Core.run core k t = .next u) :
    Host.Core.run core (k + 1) s = .next u := (run_next k h).trans hrun

/-- A run and the run after it. -/
theorem run_trans (j k : Nat) {s t u : State} (h : Host.Core.run core j s = .next t)
    (hrun : Host.Core.run core k t = .next u) : Host.Core.run core (j + k) s = .next u := (run_add j k h).trans hrun

section
variable {s u : State} {ms : List Move} {ops : List Op}

/-- An access that raises no fault, and its delivery. -/
theorem step_accessed {en : Bool} {a : Access} {dest : Dest} {i : Instr} {r : Driver} (hf : s.fault = none)
    (hm : s.moves = .host :: ms) (hr : s.drv.running = true) (hop : s.drv.prog[s.drv.pc]? = some ⟨en, .access a dest⟩)
    (hdec : decodeAccess a = .ok i)
    (hx : exec i { s with moves := ms, drv := if en then s.drv.startCall else s.drv } = .next u) (hu : u.fault = none)
    (hdel : deliver dest u.cfg.expectedCfgReadback u.rdata u.drv = .ok r) :
    step s = .next { u with drv := r.advance } := by
  rw [step_access hf hm hr hop hdec, hx, onNext_live hu, finishAccess_ok hdel]

/-- A poll whose flag is up (42_bus_primitives R160). -/
theorem step_pollSeen {f : Flag} {w : Waiter} (hf : s.fault = none) (hm : s.moves = .host :: ms)
    (hd : s.drv.Before (pollOp f w :: ops)) (hfl : s.sr.flag f = true) : step s = .next { s with
      moves := ms
      rdata := srWord (Config.freeWord s.draws) s.sr
      draws := s.draws + 1
      drv   := s.drv.advance } := by
  rw [step_poll hf hm hd.running hd.statement, hd.pollOutcome_seen w _ (by rwa [flagSeen_srWord])]

/-- The CR write of a start is accepted with no byte unread, and its fields are latched (40_register_access R101). -/
theorem exec_start {a : BitVec 10} {rd ae : Bool} {n : Nat} (h1 : 1 ≤ n) (h255 : n ≤ 255) (hf : s.fault = none)
    (hp : s.phase = .idle ∨ s.phase = .completing) (hr : s.sr.rxne = false) :
    exec (.writeCr (encodeCR (startFields a rd n ae))) s =
      .next (crAct (startFields a rd n ae) (latchCr (startFields a rd n ae) s)) := by
  have hc : crFault (encodeCR (startFields a rd n ae)) s = none := by
    apply crFault_none_of_start (crMbz_encodeCR _) hp _ _ hr <;> rw [decodeCR_encodeCR]
    · rfl
    · exact count_ne_zero h1 h255
  have hx := execWriteCr_accepted hf hc
  rwa [decodeCR_encodeCR] at hx

theorem exec_start_idle {a : BitVec 10} {rd ae : Bool} {n : Nat} (h1 : 1 ≤ n) (h255 : n ≤ 255) (hf : s.fault = none)
    (hp : s.phase = .idle) (hsr : s.sr = ⟨false, false, false⟩) :
    exec (.writeCr (encodeCR (startFields a rd n ae))) s = .next { s with
      phase := .addressing (dirOf rd)
      cr    := ⟨a, rd, BitVec.ofNat 8 n, ae⟩
      sr    := ⟨false, false, false⟩
      hist  := s.hist ++ [.start a (dirOf rd)] } := by
  rw [exec_start h1 h255 hf (.inl hp) (by rw [hsr]), crAct_start_idle (s := latchCr _ s) hp rfl, ← hsr]
  rfl

theorem exec_start_completing {a : BitVec 10} {rd ae : Bool} {n : Nat} (h1 : 1 ≤ n) (h255 : n ≤ 255)
    (hf : s.fault = none) (hp : s.phase = .completing) (hsr : s.sr = ⟨false, false, true⟩) :
    exec (.writeCr (encodeCR (startFields a rd n ae))) s = .next { s with
      phase := .addressing (dirOf rd)
      cr    := ⟨a, rd, BitVec.ofNat 8 n, ae⟩
      sr    := ⟨false, false, false⟩
      hist  := s.hist ++ [.restart a (dirOf rd)] } := by
  rw [exec_start h1 h255 hf (.inr hp) (by rw [hsr]), crAct_start_completing (s := latchCr _ s) hp rfl,
    restartCondition, setTc, latchCr_sr, hsr]
  rfl

theorem exec_writeTxdr {b : Byte} (hf : s.fault = none) (hsr : s.sr = ⟨true, false, false⟩) :
    exec (.writeTxdr (wordOf b)) s = .next { s with txdr := b, sr := ⟨false, false, false⟩ } := by
  have ht : s.sr.txis = true := by rw [hsr]
  refine (whileLive_live hf).trans ((if_pos ht).trans ?_)
  rw [byteOf_wordOf, setTxis, hsr]

theorem exec_readRxdr (hf : s.fault = none) (hsr : s.sr = ⟨false, true, false⟩) :
    exec .readRxdr s = .next { s with rdata := wordOf s.rxdr, sr := ⟨false, false, false⟩ } := by
  have hr : s.sr.rxne = true := by rw [hsr]
  refine (whileLive_live hf).trans ((if_pos hr).trans ?_)
  rw [setRxne, returnWord, hsr]

end

/-! The primitives. -/

section
variable {s : State} {ms : List Move} {ops : List Op}

/-- start_write as the first statement of a call, in Idle, and the slave's ACK (40_register_access R102,
41_bus_sequencer R132). -/
theorem run_startWrite {a : BitVec 10} {n : Nat} (h1 : 1 ≤ n) (h255 : n ≤ 255) (hf : s.fault = none)
    (hp : s.phase = .idle) (hsr : s.sr = ⟨false, false, false⟩) (hres : s.drv.result = none)
    (hd : s.drv.startCall.Before (enterOp a n :: ops))
    (hm : s.moves = .host :: .bus (.addrResp .ack) :: ms) : Host.Core.run core 2 s = .next { s with
      moves := ms
      phase := .transferring .W (BitVec.ofNat 8 n)
      cr    := ⟨a, false, BitVec.ofNat 8 n, false⟩
      sr    := ⟨true, false, false⟩
      hist  := s.hist ++ [.start a .W] ++ [.addrAck]
      drv   := s.drv.startCall.advance } := by
  have hop := hd.statement
  have hstart := step_accessed hf hm (Driver.running_of_statement (by simp [hres]) hop) hop (decode_writeCr _)
    (exec_start_idle h1 h255 hf hp hsr) hf rfl
  exact run_cons hstart (run_cons (step_bus hf rfl (busStep_addrAck_write rfl)) (run_zero _))

/-- send_byte (42_bus_primitives R163). -/
theorem run_sendByte {b : Byte} (hf : s.fault = none) (hsr : s.sr = ⟨true, false, false⟩)
    (hd : s.drv.Before (sendByteOps b ++ ops)) (hm : s.moves = .host :: .host :: ms) :
    Host.Core.run core 2 s = .next { s with
      moves := ms
      sr    := ⟨false, false, false⟩
      txdr  := b
      rdata := srWord (Config.freeWord s.draws) s.sr
      draws := s.draws + 1
      drv   := s.drv.advance.advance } := by
  have hpoll := step_pollSeen hf hm hd (by rw [hsr]; rfl)
  have hd' := hd.advance
  exact run_cons hpoll (run_cons (step_accessed hf rfl hd'.running hd'.statement (decode_writeTxdr _)
    (exec_writeTxdr hf hsr) hf rfl) (run_zero _))

/-- send_byte and the slave's ACK, with more bytes to send (41_bus_sequencer R135). -/
theorem run_sendByte_more {b r : Byte} (hf : s.fault = none) (hp : s.phase = .transferring .W r) (hr : 2 ≤ r)
    (hsr : s.sr = ⟨true, false, false⟩) (hd : s.drv.Before (sendByteOps b ++ ops))
    (hm : s.moves = .host :: .host :: .bus (.wrResp .ack) :: ms) : Host.Core.run core 3 s = .next { s with
      moves := ms
      phase := .transferring .W (r - 1)
      sr    := ⟨true, false, false⟩
      txdr  := b
      hist  := s.hist ++ [.wr b .ack]
      rdata := srWord (Config.freeWord s.draws) s.sr
      draws := s.draws + 1
      drv   := s.drv.advance.advance } :=
  run_one_more (run_sendByte hf hsr hd hm)
    ((writtenByteAnswers _ _ _ (by exact hf) (by exact hp) (by rfl)).1 rfl hr)

/-- send_byte of the last byte of a write phase that holds the bus, and the slave's ACK (41_bus_sequencer R136). -/
theorem run_sendByte_last {b : Byte} (hf : s.fault = none) (hp : s.phase = .transferring .W 1)
    (ha : s.cr.autoend = false) (hsr : s.sr = ⟨true, false, false⟩) (hd : s.drv.Before (sendByteOps b ++ ops))
    (hm : s.moves = .host :: .host :: .bus (.wrResp .ack) :: ms) : Host.Core.run core 3 s = .next { s with
      moves := ms
      phase := .completing
      sr    := ⟨false, false, true⟩
      txdr  := b
      hist  := s.hist ++ [.wr b .ack]
      rdata := srWord (Config.freeWord s.draws) s.sr
      draws := s.draws + 1
      drv   := s.drv.advance.advance } := by
  exact run_one_more (run_sendByte hf hsr hd hm)
    ((writtenByteAnswers _ _ _ (by exact hf) (by exact hp) (by rfl)).2.1 rfl rfl ha)

/-- await_transfer_complete and start_read with auto-stop, which restarts, and the slave's ACK
(40_register_access R103, 41_bus_sequencer R133). -/
theorem run_startRead {a : BitVec 10} {n : Nat} (h1 : 1 ≤ n) (h255 : n ≤ 255) (hf : s.fault = none)
    (hp : s.phase = .completing) (hsr : s.sr = ⟨false, false, true⟩)
    (hd : s.drv.Before (awaitTransferCompleteOps ++ startOp a true n true :: ops))
    (hm : s.moves = .host :: .host :: .bus (.addrResp .ack) :: ms) : Host.Core.run core 3 s = .next { s with
      moves := ms
      phase := .transferring .R (BitVec.ofNat 8 n)
      cr    := ⟨a, true, BitVec.ofNat 8 n, true⟩
      sr    := ⟨false, false, false⟩
      hist  := s.hist ++ [.restart a .R] ++ [.addrAck]
      rdata := srWord (Config.freeWord s.draws) s.sr
      draws := s.draws + 1
      drv   := s.drv.advance.advance } := by
  have hpoll := step_pollSeen hf hm hd (by rw [hsr]; rfl)
  have hd' := hd.advance
  exact run_cons hpoll (run_cons (step_accessed hf rfl hd'.running hd'.statement (decode_writeCr _)
    (exec_start_completing h1 h255 hf hp hsr) hf rfl)
    (run_cons (step_bus hf rfl (busStep_addrAck_read rfl)) (run_zero _)))

/-- recv_byte, with what the host does with the byte (42_bus_primitives R165). -/
theorem run_recvByte {w : Waiter} {dest : Dest} {r : Driver} (hf : s.fault = none) (hsr : s.sr = ⟨false, true, false⟩)
    (hd : s.drv.Before (recvByteOps w dest ++ ops)) (hm : s.moves = .host :: .host :: ms)
    (hdel : deliver dest s.cfg.expectedCfgReadback (wordOf s.rxdr) s.drv.advance = .ok r) :
    Host.Core.run core 2 s = .next { s with
      moves := ms
      sr    := ⟨false, false, false⟩
      rdata := wordOf s.rxdr
      draws := s.draws + 1
      drv   := r.advance } := by
  have hpoll := step_pollSeen hf hm hd (by rw [hsr]; rfl)
  have hd' := hd.advance
  exact run_cons hpoll (run_cons (step_accessed hf rfl hd'.running hd'.statement decode_readRxdr
    (exec_readRxdr hf hsr) hf hdel) (run_zero _))

/-! A read phase with auto-stop, byte by byte. -/

/-- `n` bytes of a read phase with auto-stop are left, none waits in RXDR, and the host runs `ops` next. -/
structure InReadPhase (n : Nat) (ops : List Op) (ms : List Move) (s : State) : Prop where
  fault   : s.fault = none
  phase   : s.phase = .transferring .R (BitVec.ofNat 8 n)
  autoend : s.cr.autoend = true
  sr      : s.sr = ⟨false, false, false⟩
  before  : s.drv.Before ops
  moves   : s.moves = ms

section
variable {b : Byte} {n : Nat} {w : Waiter} {dest : Dest} {r : Driver}

/-- The last byte and its recv_byte (41_bus_sequencer R141). -/
theorem InReadPhase.run_last
    (h : InReadPhase 1 (recvByteOps w dest ++ ops) (.bus (.rdByte b) :: .host :: .host :: ms) s)
    (hdel : deliver dest s.cfg.expectedCfgReadback (wordOf b) s.drv.advance = .ok r) :
    Host.Core.run core 3 s = .next { s with
      moves := ms
      phase := .idle
      sr    := ⟨false, false, false⟩
      rxdr  := b
      hist  := s.hist ++ [.rd b .nack, .stop]
      rdata := wordOf b
      draws := s.draws + 1
      drv   := r.advance } := by
  obtain ⟨hf, hp, ha, hsr, hd, hm⟩ := h
  obtain ⟨-, -, hstop⟩ := receivedByteSteps s _ 1 b hf hp (by rw [hsr]) hm
  have hbyte := hstop rfl ha
  rw [hsr] at hbyte
  exact run_cons hbyte (run_recvByte hf rfl hd rfl hdel)

/-- A byte that is not the last and its recv_byte (41_bus_sequencer R139). -/
theorem InReadPhase.run_more (h2 : 2 ≤ n) (h255 : n ≤ 255)
    (h : InReadPhase n (recvByteOps w dest ++ ops) (.bus (.rdByte b) :: .host :: .host :: ms) s)
    (hdel : deliver dest s.cfg.expectedCfgReadback (wordOf b) s.drv.advance = .ok r) :
    Host.Core.run core 3 s = .next { s with
      moves := ms
      phase := .transferring .R (BitVec.ofNat 8 (n - 1))
      sr    := ⟨false, false, false⟩
      rxdr  := b
      hist  := s.hist ++ [.rd b .ack]
      rdata := wordOf b
      draws := s.draws + 1
      drv   := r.advance } := by
  obtain ⟨hf, hp, -, hsr, hd, hm⟩ := h
  have hleft : BitVec.ofNat 8 n - 1 = BitVec.ofNat 8 (n - 1) := by bv_omega
  obtain ⟨hmore, -⟩ := receivedByteSteps s _ _ b hf hp (by rw [hsr]) hm
  have hbyte := hmore (by bv_omega)
  rw [hsr, hleft] at hbyte
  exact run_cons hbyte (run_recvByte hf rfl hd rfl hdel)

end

end

end Sys2Proof.Machine
end

section
/-! PROOF. read_register, write_register and read_burst against a slave that ACKs throughout (43_device_protocol R181 to
R183, R185). -/

namespace Sys2Proof.Machine

/-! The transactions' statements, one by one. -/

/-- The statements with which read_register and read_burst select a register and begin their read phase. -/
def selectOps (a : BitVec 10) (reg : Byte) (n : Nat) (ops : List Op) : List Op :=
  enterOp a 1 :: (sendByteOps reg ++ (awaitTransferCompleteOps ++ startOp a true n true :: ops))

theorem readRegisterOps_eq (c : Config) (reg : Byte) :
    readRegisterOps c reg = selectOps c.slaveAddr reg 1 (recvByteOps .recvByte .value) := by
  rw [readRegisterOps, startWriteOps_slaveAddr _ (by omega) (by omega), startReadOps_slaveAddr _ (by omega) (by omega)]
  rfl

theorem writeRegisterOps_eq (c : Config) (reg v : Byte) : writeRegisterOps c reg v =
    enterOp c.slaveAddr 2 :: (sendByteOps reg ++ (sendByteOps v ++
      (awaitTransferCompleteOps ++ startOp c.slaveAddr true 1 true :: recvByteOps .recvByte .probe))) := by
  rw [writeRegisterOps, startWriteOps_slaveAddr _ (by omega) (by omega), startReadOps_slaveAddr _ (by omega) (by omega)]
  rfl

theorem readBurstOps_eq (c : Config) (reg : Byte) {n : Nat} (h1 : 1 ≤ n) (h255 : n ≤ 255) : readBurstOps c reg n =
    selectOps c.slaveAddr reg n (List.replicate n (recvByteOps (.burst n) (.burst n))).flatten := by
  rw [readBurstOps, if_pos (countOk_iff.2 ⟨h1, h255⟩), startWriteOps_slaveAddr _ (by omega) (by omega),
    startReadOps_slaveAddr _ h1 h255]
  rfl

/-! The delivery of the byte received. -/

theorem deliver_value (e : Option Byte) (b : Byte) (d : Driver) :
    deliver .value e (wordOf b) d = .ok (d.return (.byte b)) := by
  rw [deliver, byteOf_wordOf]

/-- write_register's probe byte is its result, and is recorded when it is not the expected one (43_device_protocol
R185). -/
theorem deliver_probe (e : Option Byte) (b : Byte) (d : Driver) : deliver .probe e (wordOf b) d = .ok { d with
    result := some (.byte b)
    diags  := d.diags ++ e.elim [] fun x => if b = x then [] else [⟨b, x⟩] } := by
  rw [deliver, byteOf_wordOf, checkReadback_eq]
  rfl

/-! The start of a transaction. -/

section
variable {s : State} {ops : List Op}

/-- What `Clean` says of the block (70_reset_and_hazards R243). -/
theorem clean_iff : s.clean = true ↔
    s.fault = none ∧ s.phase = .idle ∧ s.sr = ⟨false, false, false⟩ ∧ s.hist = [] := by
  simp only [State.clean, Bool.and_eq_true, decide_eq_true_iff, and_assoc]
  rfl

/-- At the start of a transaction its statements come next in the call that begins. -/
theorem before_of_atStartOf (h : s.atStartOf ops) :
    s.drv.result = none ∧ s.drv.pc = 0 ∧ s.drv.startCall.Before ops := by
  obtain ⟨hprog, hpc, hres, -⟩ := h
  refine ⟨hres, hpc, ⟨?_, rfl, rfl, rfl⟩⟩
  rw [Driver.startCall_prog, Driver.startCall_pc, hprog, hpc]
  exact ⟨[], List.append_nil ops⟩

/-- From a clean start to the read phase: the slave's address, the register and its address again are ACKed. -/
theorem run_select {a : BitVec 10} {reg : Byte} {n : Nat} {ms : List Move} (h1 : 1 ≤ n) (h255 : n ≤ 255)
    (hc : s.clean = true) (hs : s.atStartOf (selectOps a reg n ops))
    (hm : s.moves = ([.host, .bus (.addrResp .ack), .host, .host, .bus (.wrResp .ack), .host, .host,
      .bus (.addrResp .ack)] : List Move) ++ ms) :
    ∃ t, Host.Core.run core 8 s = .next t ∧ InReadPhase n ops ms t ∧ t.txdr = reg ∧
      t.hist = [.start a .W, .addrAck, .wr reg .ack, .restart a .R, .addrAck] ∧ t.drv.pc = 5 ∧ t.drv.got = 0 := by
  obtain ⟨hf, hp, hsr, hh⟩ := clean_iff.1 hc
  obtain ⟨hres, hpc, hd⟩ := before_of_atStartOf hs
  have hwrite := run_startWrite (n := 1) (by omega) (by omega) hf hp hsr hres hd hm
  have hsend := hd.advance
  have hread := hsend.advance.advance
  have hrun := run_trans 2 6 hwrite (run_trans 3 3 (run_sendByte_last hf rfl rfl rfl hsend rfl)
    (run_startRead h1 h255 hf rfl rfl hread rfl))
  rw [hh] at hrun
  exact ⟨_, hrun, ⟨hf, rfl, rfl, rfl, hread.advance.advance, rfl⟩, rfl, rfl, congrArg (· + 5) hpc, rfl⟩

end

/-- Settles O50: the read phase's one byte is its last, and read_register's value (43_device_protocol R181). -/
theorem readRegisterReturnsSlaveByte : Obligations.ReadRegisterReturnsSlaveByte := by
  intro s reg v ms hc ha hs hm
  rw [readRegisterOps_eq, ha, ← List.append_nil (recvByteOps _ _)] at hs
  obtain ⟨t, hselect, hread, htxdr, hhist, hpc, -⟩ := run_select le_rfl (by omega) hc hs hm
  have hrun := run_trans 8 3 hselect (hread.run_last (deliver_value ..))
  exact ⟨_, hrun, rfl, congrArg (· + 2) hpc, hread.fault, rfl, rfl, htxdr, rfl, rfl, congrArg (· ++ _) hhist⟩

/-- Settles O51: two bytes written, the second held, then the probe's read phase, whose byte is the result and is
checked against the expected one (43_device_protocol R182, R185). -/
theorem writeRegisterReturnsProbeByte : Obligations.WriteRegisterReturnsProbeByte := by
  intro s reg v p ms hc ha hs hm
  rw [writeRegisterOps_eq, ha, ← List.append_nil (recvByteOps _ _)] at hs
  obtain ⟨hf, hp, hsr, hh⟩ := clean_iff.1 hc
  obtain ⟨hres, hpc, hd⟩ := before_of_atStartOf hs
  have hsend := hd.advance
  have hvalue := hsend.advance.advance
  have hread := hvalue.advance.advance
  have hprobe := hread.advance.advance
  have hrun := run_trans 2 12 (run_startWrite (by omega) (by omega) hf hp hsr hres hd hm) <|
    run_trans 3 9 (run_sendByte_more hf rfl (by decide) rfl hsend rfl) <|
    run_trans 3 6 (run_sendByte_last hf rfl rfl rfl hvalue rfl) <|
    run_trans 3 3 (run_startRead (n := 1) (by omega) (by omega) hf rfl rfl hread rfl) <|
    InReadPhase.run_last ⟨hf, rfl, rfl, rfl, hprobe, rfl⟩ (deliver_probe ..)
  rw [hh] at hrun
  refine ⟨_, hrun, rfl, congrArg (· + 9) hpc, hf, rfl, rfl, rfl, rfl, rfl, ?unchecked, ?expected, ?unexpected⟩
  case unchecked => intro he; simp [he]
  case expected => intro e he hpe; simp [he, hpe]
  case unexpected => intro e he hpe; simp [he, hpe]

/-! read_burst. -/

/-- The driver has stored the bytes `bs` of a burst in arrival order. -/
structure Driver.Stored (d : Driver) (bs : List Byte) : Prop where
  got : d.got = bs.length
  buf : ∀ k, k < bs.length → d.buf.read k = bs[k]?

section
variable {d : Driver} {bs : List Byte}

theorem Driver.Stored.advance (h : d.Stored bs) : d.advance.Stored bs := ⟨h.got, h.buf⟩

theorem Driver.Stored.read_write (h : d.Stored bs) (b : Byte) :
    ∀ k, k < (bs ++ [b]).length → (d.buf.write d.got b).read k = (bs ++ [b])[k]? := by
  intro k hk
  rw [List.length_append, List.length_singleton, Nat.lt_succ_iff_lt_or_eq] at hk
  rw [h.got]
  rcases hk with hlt | rfl
  · rw [Memory.read_write_other _ b (by omega), List.getElem?_append_left hlt, h.buf k hlt]
  · rw [Memory.read_write_same, List.getElem?_concat_length]

/-- The byte of a burst that is not its last is stored. -/
theorem Driver.Stored.deliver_more (h : d.Stored bs) {n : Nat} (hn : bs.length + 1 ≠ n) (e : Option Byte) (b : Byte) :
    deliver (.burst n) e (wordOf b) d = .ok { d with buf := d.buf.write d.got b, got := d.got + 1 } := by
  rw [deliver, byteOf_wordOf, storeBurst_more (by rwa [h.got])]

/-- With a burst's last byte the buffer is the result. -/
theorem Driver.Stored.deliver_last (h : d.Stored bs) {n : Nat} (hn : bs.length + 1 = n) (e : Option Byte) (b : Byte) :
    deliver (.burst n) e (wordOf b) d = .ok { d with
      buf := d.buf.write d.got b, got := d.got + 1, result := some (.bytes (bs ++ [b])) } := by
  have hlen : d.got + 1 = (bs ++ [b]).length := by simp [h.got]
  have hread : (d.buf.write d.got b).readRange (d.got + 1) = .ok (bs ++ [b]) := by
    rw [hlen, Memory.readRange_ok (h.read_write b) le_rfl, List.take_length]
  rw [deliver, byteOf_wordOf, ← hn, ← h.got, storeBurst_last hread]

end

/-- A burst of `n` bytes in its read phase: `done` are stored, and the slave drives `left` at once. -/
structure InBurst (n : Nat) (done left : List Byte) (ms : List Move) (s : State) : Prop extends
    InReadPhase left.length (List.replicate left.length (recvByteOps (.burst n) (.burst n))).flatten
      ((left.map fun b => ([.bus (.rdByte b), .host, .host] : List Move)).flatten ++ ms) s where
  stored : s.drv.Stored done
  count  : done.length + left.length = n

/-- The burst has ended with the bytes `bs` and the history `h`, the moves `ms` being left. -/
structure BurstEnded (bs : List Byte) (h : List Event) (ms : List Move) (s : State) : Prop where
  result : s.drv.result = some (.bytes bs)
  got    : s.drv.got = bs.length
  fault  : s.fault = none
  phase  : s.phase = .idle
  sr     : s.sr = ⟨false, false, false⟩
  moves  : s.moves = ms
  hist   : s.hist = h

/-- The events of a read phase's bytes: every byte but the last is ACKed, and the controller stops by itself
(41_bus_sequencer R139, R141). -/
def burstEvents (bs : List Byte) : List Event :=
  (bs.dropLast.map fun b => Event.rd b .ack) ++ ([.rd (bs.getLastD 0) .nack, .stop] : List Event)

section
variable {n : Nat} {done left : List Byte} {b b' : Byte} {ms : List Move} {s : State}

theorem InBurst.receive_more (h : InBurst n done (b :: b' :: left) ms s) (hn : n ≤ 255) :
    ∃ t, Host.Core.run core 3 s = .next t ∧ InBurst n (done ++ [b]) (b' :: left) ms t ∧
      t.hist = s.hist ++ [.rd b .ack] := by
  have hcount := h.count
  simp only [List.length_cons] at hcount
  have hstored := h.stored.advance
  have hafter := h.before.advance.advance
  have hrun := h.toInReadPhase.run_more (by simp) (by simp; omega) (hstored.deliver_more (by omega) _ b)
  refine ⟨_, hrun, ⟨⟨h.fault, rfl, h.autoend, rfl, ?before, rfl⟩, ?stored, ?count⟩, rfl⟩
  case before => exact ⟨hafter.ops, hafter.result, hafter.polls, hafter.inWait⟩
  case stored => exact ⟨by simp [h.stored.got], hstored.read_write b⟩
  case count => simp; omega

theorem InBurst.receive_last (h : InBurst n done [b] ms s) :
    ∃ t, Host.Core.run core 3 s = .next t ∧ BurstEnded (done ++ [b]) (s.hist ++ [.rd b .nack, .stop]) ms t := by
  have hstored := h.stored.advance
  have hrun := h.toInReadPhase.run_last (hstored.deliver_last h.count _ b)
  exact ⟨_, hrun, rfl, by simp [h.stored.got], h.fault, rfl, rfl, rfl, rfl⟩

/-- A read phase takes its bytes one after the other. -/
theorem InBurst.run (h : InBurst n done left ms s) (hn : n ≤ 255) (hne : left ≠ []) :
    ∃ t, Host.Core.run core (3 * left.length) s = .next t ∧
      BurstEnded (done ++ left) (s.hist ++ burstEvents left) ms t := by
  induction left generalizing done s with
  | nil => exact absurd rfl hne
  | cons b left ih =>
    cases left with
    | nil => exact h.receive_last
    | cons b' left =>
      obtain ⟨u, hu, hburst, hhist⟩ := h.receive_more hn
      obtain ⟨t, ht, hend⟩ := ih hburst nofun
      refine ⟨t, ?_, ?_⟩
      · rw [List.length_cons, Nat.mul_succ, Nat.add_comm]
        exact run_trans 3 _ hu ht
      · rw [hhist, List.append_assoc, List.append_assoc] at hend
        exact hend

end

/-- Settles O52: the register selected, the read phase takes the bytes one after the other into an empty buffer
(43_device_protocol R183). -/
theorem readBurstReturnsBytesInOrder : Obligations.ReadBurstReturnsBytesInOrder := by
  intro s reg bs ms h1 h255 hc ha hs hm
  rw [readBurstOps_eq _ _ h1 h255, ha] at hs
  rw [List.append_assoc] at hm
  obtain ⟨u, hselect, hread, -, hhist, -, hgot⟩ := run_select h1 h255 hc hs hm
  have hburst : InBurst bs.length [] bs ms u := ⟨hread, ⟨hgot, nofun⟩, Nat.zero_add _⟩
  obtain ⟨t, ht, hend⟩ := hburst.run h255 (List.ne_nil_of_length_pos h1)
  refine ⟨t, run_trans 8 _ hselect ht, hend.result, hend.got, hend.fault, hend.phase, hend.sr, hend.moves, ?_⟩
  rw [hend.hist, hhist, burstEvents, List.append_assoc]

end Sys2Proof.Machine
end

section
/-! PROOF. Faults (60_exceptions R211, R215, R222): a step that sets FAULT sets nothing else, F12 is none of the codes it
can set, and a wait that times out ends with a typed error. -/

namespace Sys2Proof.Machine

/-! What an access and a statement can do to FAULT. -/

/-- `t` is `s` with a fault raised: FAULT is set, to another code than F12, and all else is as before. -/
def Faulted (s t : State) : Prop := ∃ c : FaultCode, c ≠ .reentrant ∧ t = { s with fault := some c }

/-- The checks of a CR write raise F03 to F08 (40_register_access R101). -/
theorem crFault_ne_reentrant (v : Word) (s : State) : crFault v s ≠ some .reentrant := by
  unfold crFault
  simp only
  split_ifs <;> decide

/-- An instruction that sets FAULT changes nothing else (60_exceptions R211). -/
theorem exec_fault {i : Instr} {s t : State} (h : exec i s = .next t) : t.fault = none ∨ Faulted s t := by
  cases i with
  | writeCr v =>
    obtain ⟨hf, ⟨c, hc, rfl⟩ | ⟨-, rfl⟩⟩ := execWriteCr_next h
    · exact .inr ⟨c, fun he => crFault_ne_reentrant v s (he ▸ hc), rfl⟩
    · exact .inl ((crAct_latch_outside v s).trans hf)
  | readCr => obtain ⟨hf, rfl⟩ := execReadCr_next h; exact .inl hf
  | readSr => obtain ⟨hf, rfl⟩ := execReadSr_next h; exact .inl hf
  | writeSr v => obtain ⟨-, rfl⟩ := execWriteSr_next (v := v) h; exact .inr ⟨.roWrite, nofun, rfl⟩
  | writeTxdr v =>
    obtain ⟨hf, ⟨-, rfl⟩ | ⟨-, rfl⟩⟩ := execWriteTxdr_next h
    · exact .inl hf
    · exact .inr ⟨.txNotReady, nofun, rfl⟩
  | readTxdr => obtain ⟨hf, rfl⟩ := execReadTxdr_next h; exact .inl hf
  | readRxdr =>
    obtain ⟨hf, ⟨-, rfl⟩ | ⟨-, rfl⟩⟩ := execReadRxdr_next h
    · exact .inl hf
    · exact .inr ⟨.rxEmpty, nofun, rfl⟩
  | writeRxdr v => obtain ⟨-, rfl⟩ := execWriteRxdr_next (v := v) h; exact .inr ⟨.roWrite, nofun, rfl⟩

/-- An access faults as its instruction does, or raises F01 (40_register_access R100). -/
theorem perform_fault {a : Access} {s t : State} (h : perform a s = .next t) : t.fault = none ∨ Faulted s t := by
  rcases perform_next h with ⟨i, -, hx⟩ | ⟨-, -, rfl⟩
  · exact exec_fault hx
  · exact .inr ⟨.badAccess, nofun, rfl⟩

/-- A statement faults as its access does, or raises F11; nothing is delivered after a fault (60_exceptions R211). -/
theorem runAct_fault {act : Act} {s t : State} (hf : s.fault = none) (h : runAct act s = .next t) :
    t.fault = none ∨ Faulted s t := by
  rcases runAct_next h with ⟨a, u, -, hp, ⟨hu, d, rfl, -⟩ | ⟨-, rfl⟩⟩ | ⟨-, -, rfl⟩ | ⟨-, d, rfl, -⟩
  · exact .inl hu
  · exact perform_fault hp
  · exact .inr ⟨.argRange, nofun, rfl⟩
  · exact .inl hf

/-! The moves: only the host's raises a fault. -/

@[simp] theorem busMove_fault (a : Answer) (s : State) : (busMove a s).fault = s.fault := by
  rcases busMove_cases a s with ⟨t, ht, he⟩ | ⟨-, he⟩ <;> rw [he]
  obtain ⟨hfault, -⟩ := busStep_outside ht
  exact hfault

@[simp] theorem resetMove_fault (s : State) : (resetMove s).fault = s.fault := rfl

@[simp] theorem callMove_fault (p : List Op) (s : State) : (callMove p s).fault = s.fault := by
  rcases callMove_cases p s with ⟨-, he⟩ | ⟨-, he⟩ <;> rw [he]
  exact onDriver_fault _ s

/-- A step that sets FAULT leaves the block as it was, and never raises F12 (60_exceptions R211, R222). -/
theorem step_fault {s t : State} (h : step s = .next t) :
    t.fault = none ∨ (t.fault ≠ some .reentrant ∧ t.block = s.block) := by
  obtain ⟨hf, hmove⟩ := step_next h
  have hlive : s.afterTake.fault = none := (afterTake_fault s).trans hf
  cases hm : s.nextMove with
  | host =>
    rw [hm] at hmove
    obtain ⟨op, -, -, hrun⟩ := hostStep_next hmove
    rcases runAct_fault ((entered_fault op _).trans hlive) hrun with hnone | ⟨c, hc, rfl⟩
    · exact .inl hnone
    · refine .inr ⟨fun he => hc (Option.some.inj he), ?_⟩
      exact (entered_block op s.afterTake).trans (afterTake_block s)
  | bus a => rw [hm] at hmove; cases hmove; exact .inl ((busMove_fault a _).trans hlive)
  | reset => rw [hm] at hmove; cases hmove; exact .inl hlive
  | call p => rw [hm] at hmove; cases hmove; exact .inl ((callMove_fault p _).trans hlive)

/-- Settles O20: an instruction that answers with FAULT set has raised a fault and done nothing else, and so has the
step it was run in (60_exceptions R211). -/
theorem faultedAccessChangesNothing : Obligations.FaultedAccessChangesNothing := by
  refine ⟨fun i s t h hne => ?_, fun s t h hne => ?_⟩
  · obtain ⟨c, -, rfl⟩ := (exec_fault h).resolve_left hne
    rfl
  · obtain ⟨-, hblock⟩ := (step_fault h).resolve_left hne
    exact hblock

/-- Settles O21: no check of the model raises F12, and only the host's checks raise a fault (60_exceptions R222). -/
theorem noStepRaisesReentrancy : Obligations.NoStepRaisesReentrancy := by
  intro s t h
  rcases step_fault h with hnone | ⟨hne, -⟩
  · rw [hnone]; nofun
  · exact hne

/-! The error of a wait that timed out. -/

theorem timeoutError_burst_stored {got : Nat} (h : 1 ≤ got) (count : Nat) (f : Flag) :
    timeoutError (.burst count) f got = .malformedBurst got count := if_pos h

/-- Before a burst's first byte is stored its wait ends as recv_byte's does (log 18). -/
theorem timeoutError_burst_first {got : Nat} (h : ¬ 1 ≤ got) (count : Nat) (f : Flag) :
    timeoutError (.burst count) f got = .busStall .recvByte f := if_neg h

/-- Settles O43: outside read_burst the error is BusStall whatever `got` is; inside it, `got` decides (60_exceptions
R215, 43_device_protocol R183). -/
theorem timeoutErrorIsTyped : Obligations.TimeoutErrorIsTyped := by
  intro f got count
  exact ⟨rfl, rfl, rfl, rfl, fun h => timeoutError_burst_stored h count f,
    fun h => timeoutError_burst_first (by omega) count f⟩

end Sys2Proof.Machine
end

section
/-! PROOF. Without a budget a wait whose flag never rises polls forever (60_exceptions R214). -/

namespace Sys2Proof.Machine

/-! Which flags a block can still raise while the host only polls (10_state R24). -/

/-- The direction of the phase in progress. -/
def Phase.direction : Phase → Option Dir
  | .addressing d | .transferring d _ => some d
  | .idle | .completing               => none

/-- The bus agent cannot raise the flag from this block on: TXIS rises in a write phase alone, RXNE in a read phase
alone, TC at the end of a phase without AUTOEND (41_bus_sequencer R132 to R141). -/
def Block.CannotRaise (b : Block) : Flag → Prop
  | .txis => b.phase.direction ≠ some .W
  | .rxne => b.phase.direction ≠ some .R
  | .tc   => b.phase.direction = none ∨ b.cr.autoend = true

/-- With no phase in progress no flag can rise. -/
theorem Block.cannotRaise_of_no_phase {b : Block} (h : b.phase.direction = none) (f : Flag) : b.CannotRaise f := by
  cases f with
  | txis => exact fun hd => nomatch h.symm.trans hd
  | rxne => exact fun hd => nomatch h.symm.trans hd
  | tc => exact .inl h

/-- No bus step changes CR, and one that does not end the phase keeps its direction (41_bus_sequencer R132 to R142). -/
theorem busStep_direction {a : Answer} {s t : State} (h : busStep a s = some t) :
    t.cr = s.cr ∧ (t.phase.direction = none ∨ t.phase.direction = s.phase.direction) := by
  rcases busStep_cases h with ⟨hp, -, rfl⟩ | ⟨hp, -, rfl⟩ | ⟨-, -, rfl⟩ | ⟨r, hp, -, -, -, -, rfl⟩ | ⟨-, -, -, -, rfl⟩ |
    ⟨-, -, -, -, rfl⟩ | ⟨r, -, -, -, -, rfl⟩ | ⟨r, b, hp, -, -, -, -, rfl⟩ | ⟨b, -, -, -, -, rfl⟩ |
    ⟨b, -, -, -, -, rfl⟩ | ⟨-, -, rfl⟩
  · exact ⟨rfl, .inr (by rw [hp]; rfl)⟩
  · exact ⟨rfl, .inr (by rw [hp]; rfl)⟩
  · exact ⟨rfl, .inl rfl⟩
  · exact ⟨rfl, .inr (by rw [hp]; rfl)⟩
  · exact ⟨rfl, .inl rfl⟩
  · exact ⟨rfl, .inl rfl⟩
  · exact ⟨rfl, .inl rfl⟩
  · exact ⟨rfl, .inr (by rw [hp]; rfl)⟩
  · exact ⟨rfl, .inl rfl⟩
  · exact ⟨rfl, .inl rfl⟩
  · exact ⟨rfl, .inl rfl⟩

/-- A flag that cannot rise still cannot after a bus step. -/
theorem busStep_keeps_cannotRaise {a : Answer} {s t : State} {f : Flag} (hs : s.block.CannotRaise f)
    (h : busStep a s = some t) : t.block.CannotRaise f := by
  obtain ⟨hcr, hd | hd⟩ := busStep_direction h
  · exact Block.cannotRaise_of_no_phase hd f
  · have hdir : t.block.phase.direction = s.block.phase.direction := hd
    have hctl : t.block.cr = s.block.cr := hcr
    cases f <;> simpa only [Block.CannotRaise, hdir, hctl] using hs

/-- What cannot rise does not: each flag's rise has its phase (10_state R24). -/
theorem step_flag_low {s t : State} {f : Flag} (h : step s = .next t) (hlow : s.sr.flag f = false)
    (hs : s.block.CannotRaise f) : t.sr.flag f = false := by
  have hc := step_srChange h
  rw [← Bool.not_eq_true]
  intro hhigh
  cases f with
  | txis =>
    rcases hc.txis_rises hlow hhigh with ⟨hp, -⟩ | ⟨r, hp, -⟩
    · exact hs (congrArg Phase.direction hp)
    · exact hs (congrArg Phase.direction hp)
  | rxne =>
    obtain ⟨r, b, hp, -⟩ := hc.rxne_rises hlow hhigh
    exact hs (congrArg Phase.direction hp)
  | tc =>
    obtain ⟨ha, hp⟩ := hc.tc_rises hlow hhigh
    rcases hs with hnone | hauto
    · rcases hp with ⟨hp, -⟩ | ⟨hp, -⟩
      · exact nomatch hnone.symm.trans (congrArg Phase.direction hp)
      · exact nomatch hnone.symm.trans (congrArg Phase.direction hp)
    · exact nomatch ha.symm.trans hauto

/-! The driver's failed polls. -/

/-- One more failed poll of the wait (42_bus_primitives R160). -/
def Driver.failPoll (d : Driver) : Driver := { d with polls := d.pollsSoFar + 1, inWait := true }

/-- Failed polls change nothing of the driver but their count and the mark of the wait. -/
theorem Driver.failPolls_frame (d : Driver) (m : Nat) :
    ∃ p b, Driver.failPoll^[m] d = { d with polls := p, inWait := b } := by
  induction m with
  | zero => exact ⟨d.polls, d.inWait, rfl⟩
  | succ m ih =>
    obtain ⟨p, b, he⟩ := ih
    rw [Function.iterate_succ_apply', he]
    exact ⟨_, _, rfl⟩

/-- From a wait's start on, the count is the number of failed polls (log 13). -/
theorem Driver.failPolls_eq (m : Nat) {d : Driver} (hw : d.inWait = false) :
    Driver.failPoll^[m] d = d.afterFailedPolls m := by
  induction m with
  | zero => rfl
  | succ m ih =>
    rw [Function.iterate_succ_apply', ih, Driver.failPoll, Driver.pollsSoFar_afterFailedPolls m hw]
    exact Driver.afterFailedPolls_succ m d

theorem Driver.WaitsAt.failPolls {d : Driver} {f : Flag} {w : Waiter} (h : d.WaitsAt f w) (m : Nat) :
    (Driver.failPoll^[m] d).WaitsAt f w := by
  obtain ⟨p, b, he⟩ := d.failPolls_frame m
  rw [he]
  exact ⟨h.running, h.poll⟩

/-! The run of a wait. -/

/-- The host's moves among the first `k` moves of a run. -/
def hostMoves (run : Nat → State) (k : Nat) : Nat :=
  ((List.range k).filter fun j => decide ((run j).nextMove = .host)).length

theorem hostMoves_succ (run : Nat → State) (k : Nat) :
    hostMoves run (k + 1) = hostMoves run k + if (run k).nextMove = .host then 1 else 0 := by
  simp only [hostMoves, List.range_succ, List.filter_append, List.length_append]
  by_cases hm : (run k).nextMove = .host <;> simp [hm]

/-- After `k` of the run's first `n` steps the host is still at its poll: each of its moves was one more failed poll, the
block is as it was unless the bus agent moved, and the flag is 0, be it by premise or because it cannot rise. -/
structure StillPolling (run : Nat → State) (n : Nat) (f : Flag) (k : Nat) : Prop where
  fault  : (run k).fault = none
  budget : (run k).cfg.pollBudget = none
  drv    : (run k).drv = Driver.failPoll^[hostMoves run k] (run 0).drv
  block  : (∀ j a, j < k → (run j).nextMove ≠ .bus a) → (run k).block = (run 0).block
  low    : (run k).sr.flag f = false
  stays  : (∀ i, i ≤ n → (run i).sr.flag f = false) ∨ (run k).block.CannotRaise f

section
variable {run : Nat → State} {n k : Nat} {f : Flag} {w : Waiter}

/-- A step of a wait is taken, and the host is still at its poll after it. -/
theorem StillPolling.step (h : StillPolling run n f k) (hrun : IsRun run) (hd : (run 0).drv.WaitsAt f w) (hk : k < n)
    (hreset : (run k).nextMove ≠ .reset) :
    Machine.step (run k) = .next (run (k + 1)) ∧ StillPolling run n f (k + 1) := by
  have hwait : (run k).drv.WaitsAt f w := h.drv ▸ hd.failPolls _
  obtain ⟨t, hs, hfault, hcfg, hmove⟩ := wait_step h.fault h.budget hwait h.low hreset
  obtain rfl := hrun.next hs
  have hlow : (run (k + 1)).sr.flag f = false :=
    h.stays.elim (fun hall => hall (k + 1) hk) (step_flag_low hs h.low)
  have hbefore (hq : ∀ j a, j < k + 1 → (run j).nextMove ≠ .bus a) : (run k).block = (run 0).block :=
    h.block fun j a hj => hq j a (Nat.lt_succ_of_lt hj)
  rcases hmove with ⟨hm, hb, hdrv⟩ | ⟨a, hm, ht, hdrv⟩ | ⟨⟨p, hm⟩, hb, hdrv⟩
  · refine ⟨hs, hfault, hcfg ▸ h.budget, ?_, fun hq => hb.trans (hbefore hq), hlow, hb ▸ h.stays⟩
    rw [hdrv, h.drv, hostMoves_succ, if_pos hm, Function.iterate_succ_apply']
    rfl
  · refine ⟨hs, hfault, hcfg ▸ h.budget, ?_, fun hq => absurd hm (hq k a k.lt_succ_self), hlow, ?_⟩
    · rw [hdrv, h.drv, hostMoves_succ, if_neg (by rw [hm]; nofun), Nat.add_zero]
    · refine h.stays.imp_right fun hc => ?_
      rw [← afterTake_block] at hc
      rcases busMove_cases a (run k).afterTake with ⟨u, hu, he⟩ | ⟨-, he⟩ <;> rw [ht, he]
      · exact busStep_keeps_cannotRaise hc hu
      · exact hc
  · refine ⟨hs, hfault, hcfg ▸ h.budget, ?_, fun hq => hb.trans (hbefore hq), hlow, hb ▸ h.stays⟩
    rw [hdrv, h.drv, hostMoves_succ, if_neg (by rw [hm]; nofun), Nat.add_zero]

/-- Over all the steps without a reset the host is still at its poll. -/
theorem StillPolling.throughout (h : StillPolling run n f 0) (hrun : IsRun run) (hd : (run 0).drv.WaitsAt f w)
    (hreset : ∀ k, k < n → (run k).nextMove ≠ .reset) : ∀ k, k ≤ n → StillPolling run n f k := by
  intro k hk
  induction k with
  | zero => exact h
  | succ k ih => exact ((ih (Nat.le_of_lt hk)).step hrun hd hk (hreset k hk)).2

end

/-- The phases of R214 (b) to (d) in which the awaited flag cannot rise. -/
theorem cannotRaise_of_phase {s : State} {f : Flag}
    (h : s.phase = .idle ∨ s.phase = .completing ∨ (f = .tc ∧ s.cr.autoend = true) ∨
      (f = .txis ∧ (s.phase = .addressing .R ∨ ∃ r, s.phase = .transferring .R r)) ∨
      (f = .rxne ∧ (s.phase = .addressing .W ∨ ∃ r, s.phase = .transferring .W r))) : s.block.CannotRaise f := by
  rcases h with hp | hp | ⟨rfl, ha⟩ | ⟨rfl, hp | ⟨r, hp⟩⟩ | ⟨rfl, hp | ⟨r, hp⟩⟩
  · exact Block.cannotRaise_of_no_phase (congrArg Phase.direction hp) f
  · exact Block.cannotRaise_of_no_phase (congrArg Phase.direction hp) f
  · exact .inr ha
  all_goals simp [Block.CannotRaise, State.block, hp, Phase.direction]

/-- Settles O45: along the run the host is still at its poll (`StillPolling`), at its start by the premises and then step
by step (60_exceptions R214). -/
theorem pollWithoutBudgetNeverEnds : Obligations.PollWithoutBudgetNeverEnds := by
  intro run n f w hrun hf hb hr hop hreset hlow hstays k hk
  have hd : (run 0).drv.WaitsAt f w := ⟨hr, hop⟩
  have hstart : StillPolling run n f 0 := ⟨hf, hb, rfl, fun _ => rfl, hlow, hstays.imp_right cannotRaise_of_phase⟩
  have h := hstart.throughout hrun hd hreset k hk
  obtain ⟨p, b, hdrv⟩ := (run 0).drv.failPolls_frame (hostMoves run k)
  rw [← h.drv] at hdrv
  refine ⟨fun hkn => (h.step hrun hd hkn (hreset k hkn)).1, h.low, h.fault, ?_, ?_, ?_, ?_, fun hw hpos => ?_, h.block⟩
  · exact (h.drv ▸ hd.failPolls _ : (run k).drv.WaitsAt f w).running
  · rw [hdrv]
  · rw [hdrv]
  · rw [hdrv]
  · show (run k).drv.polls = hostMoves run k
    rw [h.drv, Driver.failPolls_eq _ hw]
    obtain ⟨m, hm⟩ := Nat.exists_eq_add_of_le' hpos
    rw [show hostMoves run k = m + 1 from hm]
    rfl

end Sys2Proof.Machine
end

section
/-! PROOF. What a hardware reset gives the block and the host, and the start of a run (70_reset_and_hazards R240,
R241). -/

namespace Sys2Proof.Machine

/-- A live step whose move is a reset is the reset. -/
theorem step_reset {s : State} {ms : List Move} (hf : s.fault = none) (hm : s.moves = .reset :: ms) :
    step s = .next (resetMove { s with moves := ms }) :=
  step_move hf hm

/-- Settles O57: a reset writes each value, appends one event to HIST and restarts the host. -/
theorem hardwareResetRestoresValues : Obligations.HardwareResetRestoresValues := by
  intro s ms hf hm
  exact ⟨_, step_reset hf hm, rfl, rfl, rfl, rfl, rfl, (resetMove_fault _).trans hf, rfl, resetMove_cfg _,
    Driver.restart_prog _, Driver.restart_pc _, Driver.restart_polls _, Driver.restart_got _, Driver.restart_buf _,
    Driver.restart_result _⟩

theorem reset_clean : State.reset.clean = true := clean_iff.2 ⟨rfl, rfl, rfl, rfl⟩

/-- Settles O58: the values are State.reset's own, and they make it Clean. -/
theorem startOfRunValues : Obligations.StartOfRunValues :=
  ⟨rfl, rfl, rfl, rfl, rfl, rfl, rfl, rfl, rfl, rfl, rfl, reset_clean⟩

/-- Settles O34: in Idle with its flags 0 the block's invariant holds, an empty HIST has no transaction open, no byte
waits, and an empty buf is canonical. -/
theorem resetMeetsInvariants : Obligations.ResetMeetsInvariants :=
  ⟨(inv_of_idle rfl).2 ⟨rfl, rfl⟩, (bracketed_of_idle rfl).2 rfl, byteIntact_iff.2 nofun, Memory.wf_nil⟩

end Sys2Proof.Machine
end

section
/-! PROOF. A transaction under the launch premises (70_reset_and_hazards R243, 43_device_protocol R187): from its clean
start, point by point, to its end, whatever the interleaving. -/

namespace Sys2Proof.Machine

/-! The statements still to run. -/

section
variable {prog ops : List Op} {pc : Nat} {op : Op}

theorem statement_of_drop (h : prog.drop pc = op :: ops) : prog[pc]? = some op := by
  rw [← List.head?_drop, h, List.head?_cons]

theorem drop_succ_of_drop (h : prog.drop pc = op :: ops) : prog.drop (pc + 1) = ops := by
  rw [← List.tail_drop, h, List.tail_cons]

theorem length_of_drop (h : prog.drop pc = op :: ops) : prog.length = pc + (op :: ops).length := by
  have hlen := congrArg List.length h
  rw [List.length_drop, List.length_cons] at hlen
  rw [List.length_cons]
  omega

end

/-! The start of a transaction. -/

/-- The launch premises about one state: Clean, at the start of a transaction's statements, with no poll budget. They
hold until the host's first step. -/
structure Launch (prog : List Op) (s : State) : Prop where
  clean  : s.clean = true
  start  : s.atStartOf prog
  budget : Budget none s

section
variable {prog ops : List Op} {op : Op} {s : State} {run : Nat → State} {k : Nat} {a : BitVec 10} {n : Nat}

theorem Launch.fault (h : Launch prog s) : s.fault = none := (clean_iff.1 h.clean).1

theorem Launch.phase (h : Launch prog s) : s.phase = .idle := (clean_iff.1 h.clean).2.1

/-- The moves are no part of the launch premises. -/
theorem Launch.moves (h : Launch prog s) (ms : List Move) : Launch prog { s with moves := ms } :=
  ⟨h.clean, h.start, h.budget⟩

theorem Launch.afterTake (h : Launch prog s) : Launch prog s.afterTake := by
  obtain ⟨ms, m, hs⟩ := takeMove_state s
  rw [State.afterTake, hs]
  exact ⟨h.clean, h.start, h.budget⟩

theorem Launch.statement (h : Launch (op :: ops) s) : s.drv.prog[s.drv.pc]? = some op := by
  obtain ⟨hprog, hpc, -⟩ := h.start
  rw [hprog, hpc]
  rfl

theorem Launch.running (h : Launch (op :: ops) s) : s.drv.running = true := by
  obtain ⟨-, -, hresult, -⟩ := h.start
  exact Driver.running_of_statement (by simp [hresult]) h.statement

/-- In Idle no answer is enabled, and a running host takes no call: only the host leads on from the start. -/
theorem Launch.idleMove (h : Launch (op :: ops) s) (hhost : s.nextMove ≠ .host) (hreset : s.nextMove ≠ .reset) :
    ∃ t, step s = .next t ∧ Launch (op :: ops) t := by
  rw [step_live h.fault]
  cases hm : s.nextMove with
  | host => exact absurd hm hhost
  | reset => exact absurd hm hreset
  | bus b =>
    refine ⟨_, rfl, ?_⟩
    rw [busMove, busStep_idle b h.afterTake.phase]
    exact h.afterTake
  | call p =>
    refine ⟨_, rfl, ?_⟩
    rw [callMove, if_pos h.afterTake.running]
    exact h.afterTake

/-- The host's first step takes the start-of-call values and writes CR: the write phase begins (10_state R31,
40_register_access R102). -/
theorem Launch.hostMove (h : Launch (enterOp a n :: ops) s) (h1 : 1 ≤ n) (h255 : n ≤ 255) (hhost : s.nextMove = .host) :
    ∃ t, step s = .next t ∧ At (enterOp a n :: ops)
      ⟨1, 0, [], .addressing .W, ⟨a, false, BitVec.ofNat 8 n, false⟩, ⟨false, false, false⟩⟩ t := by
  have h' := h.afterTake
  obtain ⟨hf, hp, hsr, hh⟩ := clean_iff.1 h'.clean
  obtain ⟨hprog, hpc, -⟩ := h'.start
  rw [step_live h.fault, hhost, stepMove, hostStep_running h'.running h'.statement]
  simp only [enterOp, startOp, accessOp, runAct, perform_ok _ (decode_writeCr _), entered_mk]
  rw [exec_start_idle h1 h255 (by exact hf) (by exact hp) (by exact hsr), onNext_live (by exact hf)]
  refine ⟨_, rfl, hf, h'.budget, hprog, congrArg (· + 1) hpc, rfl, rfl, nofun, rfl, rfl, rfl, ?_, nofun⟩
  exact congrArg (fun l => rdBytes (l ++ [.start a .W])) hh

/-- A fair run leaves the start by the host's first step. -/
theorem FairRun.enter (hf : FairRun run) (h : Launch (enterOp a n :: ops) (run k)) (h1 : 1 ≤ n) (h255 : n ≤ 255) :
    ∃ i, k ≤ i ∧ At (enterOp a n :: ops)
      ⟨1, 0, [], .addressing .W, ⟨a, false, BitVec.ofNat 8 n, false⟩, ⟨false, false, false⟩⟩ (run i) :=
  hf.byHost h (fun _ ms hs => ⟨hs.fault, hs.moves ms⟩) (fun _ hs => hs.hostMove h1 h255)
    (fun _ hs hhost hreset _ => hs.idleMove hhost hreset)

end

/-! The primitives (42_bus_primitives R161 to R165), each from one point to the next. -/

section
variable {prog ops : List Op} {run : Nat → State} {k pc : Nat} {cr : ControlReg} {w : Waiter} (hf : FairRun run)
include hf

/-- start_write at a transaction's start: the slave ACKs its address, and a byte may be written. -/
theorem FairRun.startWrite {a : BitVec 10} {n : Nat} (h : Launch (enterOp a n :: pollOp .txis w :: ops) (run k))
    (h1 : 1 ≤ n) (h255 : n ≤ 255) :
    ∃ i, At (enterOp a n :: pollOp .txis w :: ops) ⟨1, 0, [], .transferring .W (BitVec.ofNat 8 n),
      ⟨a, false, BitVec.ofNat 8 n, false⟩, ⟨true, false, false⟩⟩ (run i) := by
  obtain ⟨_, -, hstart⟩ := hf.enter h h1 h255
  obtain ⟨i, -, hack⟩ := hf.address hstart rfl rfl rfl
  exact ⟨i, hack⟩

/-- send_byte once TXIS is up. -/
theorem FairRun.sendByte {b r : Byte}
    (h : At prog ⟨pc, 0, [], .transferring .W r, cr, ⟨true, false, false⟩⟩ (run k))
    (hops : prog.drop pc = sendByteOps b ++ ops) :
    ∃ i, At prog ⟨pc + 2, 0, [], .transferring .W r, cr, ⟨false, false, false⟩⟩ (run i) := by
  obtain ⟨_, -, hseen⟩ := hf.pollHigh h (statement_of_drop hops) rfl rfl
  obtain ⟨i, -, hsent⟩ := hf.sendData hseen (statement_of_drop (drop_succ_of_drop hops)) rfl rfl
  exact ⟨i, hsent⟩

/-- await_transfer_complete and start_read after the last byte written: the slave ACKs it and then its address. -/
theorem FairRun.startRead {a : BitVec 10} {n : Nat} (h1 : 1 ≤ n) (h255 : n ≤ 255)
    (h : At prog ⟨pc, 0, [], .transferring .W 1, cr, ⟨false, false, false⟩⟩ (run k)) (hcr : cr.autoend = false)
    (hops : prog.drop pc = awaitTransferCompleteOps ++ startOp a true n true :: pollOp .rxne w :: ops) :
    ∃ i, At prog ⟨pc + 2, 0, [], .transferring .R (BitVec.ofNat 8 n), ⟨a, true, BitVec.ofNat 8 n, true⟩,
      ⟨false, false, false⟩⟩ (run i) := by
  have hstart := drop_succ_of_drop hops
  obtain ⟨_, -, hacked⟩ := hf.lastByteAcked h (statement_of_drop hops) rfl rfl rfl hcr
  obtain ⟨_, -, hseen⟩ := hf.pollHigh hacked (statement_of_drop hops) rfl rfl
  obtain ⟨_, -, hrestart⟩ := hf.restart hseen (statement_of_drop hstart) rfl rfl (decodeCR_encodeCR _)
    (crMbz_encodeCR _) rfl rfl (count_ne_zero h1 h255) rfl
  obtain ⟨i, -, hack⟩ := hf.address hrestart (statement_of_drop (drop_succ_of_drop hstart)) rfl rfl
  exact ⟨i, hack⟩

end

/-! The bytes received. -/

/-- A transaction has ended: what R243 says of that point. -/
structure TransactionEnded (prog : List Op) (s : State) : Prop where
  fault : s.fault = none
  phase : s.phase = .idle
  sr    : s.sr = ⟨false, false, false⟩
  pc    : s.drv.pc = prog.length
  value : (∃ b, s.drv.result = some (.byte b) ∧ rdBytes s.hist = [b]) ∨
    ∃ bs, s.drv.result = some (.bytes bs) ∧ rdBytes s.hist = bs

/-- Only the low byte of a word is delivered (30_encoding R74). -/
theorem deliver_byteOf (dest : Dest) (e : Option Byte) (r : Word) (d : Driver) :
    deliver dest e (wordOf (byteOf r)) d = deliver dest e r d := by
  cases dest <;> simp only [deliver, byteOf_wordOf]

section
variable {prog ops : List Op} {run : Nat → State} {k pc got : Nat} {done : List Byte} {b : Byte} {p : Phase}
  {cr : ControlReg} {w : Waiter} {dest : Dest}

/-- With the last byte of a transaction its value is returned. -/
theorem At.ended {s : State} {r : Driver} {bs : List Byte}
    (h : At prog ⟨pc, got, bs, .idle, cr, ⟨false, false, false⟩⟩ s) (hpc : r.pc + 1 = prog.length)
    (hvalue : (∃ b, r.result = some (.byte b) ∧ bs = [b]) ∨ r.result = some (.bytes bs)) :
    TransactionEnded prog { s with drv := r.advance } := by
  refine ⟨h.fault, h.phase, h.sr, hpc, ?_⟩
  rcases hvalue with ⟨b, hres, hbs⟩ | hres
  · exact .inl ⟨b, hres, h.bytes.trans hbs⟩
  · exact .inr ⟨bs, hres, h.bytes⟩

/-- Between a byte's arrival and its delivery the bytes before it are stored. -/
theorem At.stored {s : State} {sr : StatusReg} (h : At prog ⟨pc, done.length, done ++ [b], p, cr, sr⟩ s) :
    s.drv.Stored done :=
  ⟨h.got, fun j hj => (h.buf j hj).trans (List.getElem?_append_left hj)⟩

variable (hf : FairRun run)
include hf

/-- recv_byte once RXNE is up with the byte `b`: where its delivery leads. -/
theorem FairRun.recvByte {D : State → Prop}
    (h : At prog ⟨pc, got, done ++ [b], p, cr, ⟨false, true, false⟩⟩ (run k))
    (hops : prog.drop pc = recvByteOps w dest ++ ops) (hp : p = .idle ∨ ∃ r, p = .transferring .R r)
    (hD : ∀ s, At prog ⟨pc + 1, got, done ++ [b], p, cr, ⟨false, false, false⟩⟩ s →
      ∃ r, deliver dest s.cfg.expectedCfgReadback (wordOf b) s.drv = .ok r ∧ D { s with drv := r.advance }) :
    ∃ i, D (run i) := by
  have hblocked : ∀ pc, (Spot.mk pc got (done ++ [b]) p cr ⟨false, true, false⟩).blocked = true := by
    rcases hp with rfl | ⟨r, rfl⟩ <;> exact fun _ => rfl
  obtain ⟨_, -, hseen⟩ := hf.pollHigh h (statement_of_drop hops) (hblocked _) rfl
  obtain ⟨i, -, hi⟩ := hf.takeByte (D := D) hseen (statement_of_drop (drop_succ_of_drop hops)) (hblocked _) rfl
    fun s hs hlast => by
      obtain ⟨r, hr, hDr⟩ := hD s hs
      obtain rfl : b = byteOf s.rdata := by simpa using hlast
      rw [deliver_byteOf] at hr
      exact ⟨_, finishAccess_ok hr, hDr⟩
  exact ⟨i, hi⟩

/-- A read phase of one byte, which is the value of read_register and of write_register (43_device_protocol R181,
R182). -/
theorem FairRun.recvValue
    (h : At prog ⟨pc, 0, [], .transferring .R 1, cr, ⟨false, false, false⟩⟩ (run k)) (hcr : cr.autoend = true)
    (hops : prog.drop pc = recvByteOps w dest)
    (hdest : ∀ e b d, ∃ r, deliver dest e (wordOf b) d = .ok r ∧ r.pc = d.pc ∧ r.result = some (.byte b)) :
    ∃ i, TransactionEnded prog (run i) := by
  have hops' : prog.drop pc = recvByteOps w dest ++ [] := by rw [hops, List.append_nil]
  obtain ⟨b, _, -, hb⟩ := hf.lastByteReceived h (statement_of_drop hops') rfl rfl hcr rfl
  refine hf.recvByte (done := []) hb hops' (.inl rfl) fun s hs => ?_
  obtain ⟨r, hr, hpc, hres⟩ := hdest s.cfg.expectedCfgReadback b s.drv
  refine ⟨r, hr, hs.ended ?_ (.inl ⟨b, hres, rfl⟩)⟩
  rw [hpc, hs.pc]
  exact (length_of_drop hops').symm

/-- A byte of a burst that is not its last: it is stored and the next one is awaited (41_bus_sequencer R139). -/
theorem FairRun.recvMore {n m : Nat} (h255 : m + 2 ≤ 255) (hcount : done.length + 1 ≠ n)
    (h : At prog ⟨pc, done.length, done, .transferring .R (BitVec.ofNat 8 (m + 2)), cr, ⟨false, false, false⟩⟩ (run k))
    (hops : prog.drop pc = recvByteOps (.burst n) (.burst n) ++ ops) :
    ∃ b i, At prog ⟨pc + 2, (done ++ [b]).length, done ++ [b], .transferring .R (BitVec.ofNat 8 (m + 1)), cr,
      ⟨false, false, false⟩⟩ (run i) := by
  obtain ⟨b, _, -, hb⟩ := hf.byteReceived h (statement_of_drop hops) rfl (by bv_omega) (by bv_omega) rfl rfl
  refine ⟨b, hf.recvByte hb hops (.inr ⟨_, rfl⟩) fun s hs => ?_⟩
  have hlen : (done ++ [b]).length = done.length + 1 := List.length_append
  have hleft : BitVec.ofNat 8 (m + 2) - 1 = BitVec.ofNat 8 (m + 1) := by bv_omega
  exact ⟨_, hs.stored.deliver_more hcount _ b, hs.fault, hs.budget, hs.prog, congrArg (· + 1) hs.pc,
    (congrArg (· + 1) hs.got).trans hlen.symm, hs.result, hs.stored.read_write b,
    hs.phase.trans (congrArg (Phase.transferring .R) hleft), hs.cr, hs.sr, hs.bytes, hs.last⟩

/-- The bytes a burst still has to read, the last one included (43_device_protocol R183). -/
theorem FairRun.recvBurst {n m : Nat} (h255 : m + 1 ≤ 255) (hcount : done.length + (m + 1) = n)
    (h : At prog ⟨pc, done.length, done, .transferring .R (BitVec.ofNat 8 (m + 1)), cr, ⟨false, false, false⟩⟩ (run k))
    (hcr : cr.autoend = true)
    (hops : prog.drop pc = (List.replicate (m + 1) (recvByteOps (.burst n) (.burst n))).flatten) :
    ∃ i, TransactionEnded prog (run i) := by
  induction m generalizing done pc k with
  | zero =>
    obtain ⟨b, _, -, hb⟩ := hf.lastByteReceived h (statement_of_drop hops) rfl rfl hcr rfl
    refine hf.recvByte hb hops (.inl rfl) fun s hs => ?_
    refine ⟨_, hs.stored.deliver_last hcount _ b, hs.ended ?_ (.inr rfl)⟩
    exact (congrArg (· + 1) hs.pc).trans (length_of_drop hops).symm
  | succ m ih =>
    obtain ⟨b, _, hmore⟩ := hf.recvMore h255 (by omega) h hops
    refine ih (by omega) ?_ hmore (drop_succ_of_drop (drop_succ_of_drop hops))
    rw [List.length_append, List.length_singleton]
    omega

end

/-! The transactions. -/

section
variable {run : Nat → State} {c : Config} {reg : Byte} (hf : FairRun run)
include hf

/-- read_register and read_burst up to their read phase. -/
theorem FairRun.select {a : BitVec 10} {n : Nat} {w : Waiter} {ops : List Op} (h1 : 1 ≤ n) (h255 : n ≤ 255)
    (h : Launch (selectOps a reg n (pollOp .rxne w :: ops)) (run 0)) :
    ∃ i, At (selectOps a reg n (pollOp .rxne w :: ops)) ⟨5, 0, [], .transferring .R (BitVec.ofNat 8 n),
      ⟨a, true, BitVec.ofNat 8 n, true⟩, ⟨false, false, false⟩⟩ (run i) := by
  obtain ⟨_, hstart⟩ := hf.startWrite h (by omega) (by omega)
  obtain ⟨_, hsent⟩ := hf.sendByte hstart rfl
  exact hf.startRead h1 h255 hsent rfl rfl

/-- 43_device_protocol R181. -/
theorem FairRun.readRegister_ends (h : Launch (readRegisterOps c reg) (run 0)) :
    ∃ i, TransactionEnded (readRegisterOps c reg) (run i) := by
  rw [readRegisterOps_eq] at h ⊢
  obtain ⟨_, hread⟩ := hf.select le_rfl (by omega) h
  exact hf.recvValue hread rfl rfl fun e b d => ⟨_, deliver_value e b d, rfl, rfl⟩

/-- Two bytes are written, the second held, then the probe is read (43_device_protocol R182). -/
theorem FairRun.writeRegister_ends {v : Byte} (h : Launch (writeRegisterOps c reg v) (run 0)) :
    ∃ i, TransactionEnded (writeRegisterOps c reg v) (run i) := by
  rw [writeRegisterOps_eq] at h ⊢
  obtain ⟨_, hstart⟩ := hf.startWrite h (by omega) (by omega)
  obtain ⟨_, hreg⟩ := hf.sendByte hstart rfl
  obtain ⟨_, -, hmore⟩ := hf.byteAcked hreg rfl rfl rfl (by decide) (by decide) rfl
  obtain ⟨_, hsent⟩ := hf.sendByte hmore rfl
  obtain ⟨_, hread⟩ := hf.startRead le_rfl (by omega) hsent rfl rfl
  exact hf.recvValue hread rfl rfl fun e b d => ⟨_, deliver_probe e b d, rfl, rfl⟩

/-- 43_device_protocol R183. -/
theorem FairRun.readBurst_ends {n : Nat} (h1 : 1 ≤ n) (h255 : n ≤ 255) (h : Launch (readBurstOps c reg n) (run 0)) :
    ∃ i, TransactionEnded (readBurstOps c reg n) (run i) := by
  rw [readBurstOps_eq c reg h1 h255] at h ⊢
  obtain ⟨m, rfl⟩ := Nat.exists_eq_add_of_le' h1
  obtain ⟨_, hread⟩ := hf.select h1 h255 h
  exact hf.recvBurst (done := []) h255 (Nat.zero_add _) hread rfl rfl

end

/-- Settles O53: the premises are those of a fair run from a launch, and from one each of the three transactions is led
point by point to its end (43_device_protocol R187, R188). -/
theorem transactionsEndUnderLiveBus : Obligations.TransactionsEndUnderLiveBus := by
  intro run prog hrun hclean hstart hprog hbudget hreset hlive hhost
  have hf : FairRun run := ⟨hrun, hreset, hlive, hhost⟩
  have hl : Launch prog (run 0) := ⟨hclean, hstart, hbudget⟩
  have hend : ∃ i, TransactionEnded prog (run i) := by
    rcases hprog with ⟨reg, rfl⟩ | ⟨reg, v, rfl⟩ | ⟨reg, n, h1, h255, rfl⟩
    · exact hf.readRegister_ends hl
    · exact hf.writeRegister_ends hl
    · exact hf.readBurst_ends h1 h255 hl
  obtain ⟨i, h⟩ := hend
  exact ⟨i, h.fault, h.phase, h.sr, h.pc, h.value⟩

end Sys2Proof.Machine
end
